-- ==== Sys2Proof/Word.lean ====
section
/-! DEFINITION. The bit vectors of the block and its fixed-length byte strings
(spec/00_scope.md R6, R7, R10). -/

namespace Sys2Proof

/-- A byte, 8 bits (R10); a character given to the block is one byte. -/
abbrev Byte := BitVec 8

/-- A bus word: the block's data width, 32 bits (R6). -/
abbrev Word := BitVec 32

/-- A 64-bit counter or time (R6). -/
abbrev DWord := BitVec 64

/-- An HMAC-SHA1 digest: 20 bytes (R6). -/
abbrev Digest := Vector Byte 20

/-- A counter message: 8 bytes (R6). -/
abbrev Message := Vector Byte 8

/-- The candidate and code buffers: 16 bytes (R6). -/
abbrev Buffer16 := Vector Byte 16

end Sys2Proof
end

