-- ==== Sys2Proof/Syntax.lean ====
section
/-! DEFINITION. The commands: one constructor per row of spec/opcode_table.json
(spec/30_encoding.md R85, R92). -/

namespace Sys2Proof

/-- A command with its operand fields. `d` is the DIG field (R82), `ch` and `b` the DATA field (R83);
every other operand is read from a register when the command executes (R90). -/
inductive Instr where
  /-- NOP (spec/45_control.md R185). -/
  | nop
  /-- KEYCLR (spec/40_base32.md R103). -/
  | keyclr
  /-- B32PUSH ch (spec/40_base32.md R104). -/
  | b32push (ch : Byte)
  /-- KEYPUSH b (spec/40_base32.md R105). -/
  | keypush (b : Byte)
  /-- TCTR (spec/43_totp.md R153). -/
  | tctr
  /-- TRUNC d (spec/42_hotp.md R134). -/
  | trunc (d : BitVec 4)
  /-- HOTP d (spec/42_hotp.md R135). -/
  | hotp (d : BitVec 4)
  /-- TOTP d (spec/43_totp.md R154). -/
  | totp (d : BitVec 4)
  /-- VERIFY (spec/44_verify.md R167). -/
  | verify
  /-- ABORT, as a command accepted from idle (spec/45_control.md R186). -/
  | abort
  deriving DecidableEq, Repr

end Sys2Proof
end

