-- ==== Sys2Proof/WellFormed.lean ====
section
/-! DEFINITION. Which commands have a legal word: TRUNC, HOTP and TOTP need 1 ≤ DIG ≤ 15
(spec/30_encoding.md R82, R86); the other operands are free. -/

namespace Sys2Proof

/-- The check, by command. -/
def Instr.wellFormed : Instr → Bool
  | .nop => true
  | .keyclr => true
  | .b32push _ => true
  | .keypush _ => true
  | .tctr => true
  | .trunc d => d != 0
  | .hotp d => d != 0
  | .totp d => d != 0
  | .verify => true
  | .abort => true

/-- The command has a legal word (R86). -/
abbrev Instr.WellFormed (i : Instr) : Prop := i.wellFormed = true

end Sys2Proof
end

