-- ==== Sys2Proof/Decode.lean ====
section
/-! DEFINITION. The command word (spec/30_encoding.md R80 to R89): its fields, the legality of a word,
the decoder, total on the 2^32 words and rejecting by name, the encoder, and the rows' match and mask. -/

namespace Sys2Proof

/-- OP = w[3:0] (R81). -/
def opField (w : Word) : BitVec 4 := w.extractLsb' 0 4

/-- DIG = w[7:4] (R82). -/
def digField (w : Word) : BitVec 4 := w.extractLsb' 4 4

/-- DATA = w[15:8] (R83). -/
def dataField (w : Word) : Byte := w.extractLsb' 8 8

/-- RSV = w[31:16] (R84). -/
def rsvField (w : Word) : BitVec 16 := w.extractLsb' 16 16

/-- `Legal(w)` of R86. -/
def legal (w : Word) : Bool :=
  rsvField w == 0 &&
    match (opField w).toNat with
    | 0x0 | 0x1 | 0x4 | 0x8 | 0x9 => w.extractLsb' 4 12 == (0 : BitVec 12)
    | 0x2 | 0x3 => digField w == 0
    | 0x5 | 0x6 | 0x7 => dataField w == 0 && digField w != 0
    | _ => false

/-- Why a word is no command. Every one of them ends with ILLEGAL_CMD (R87). -/
inductive DecodeError where
  /-- RSV is not 0 (R84). -/
  | reservedBits
  /-- OP is 0xA to 0xF (R88). -/
  | reservedOp
  /-- DIG is not 0 on a command that takes no digits (R82). -/
  | unusedDigits
  /-- DATA is not 0 on a command that takes no byte (R83). -/
  | unusedData
  /-- DIG is 0 on TRUNC, HOTP or TOTP (R86). -/
  | zeroDigits
  deriving DecidableEq, Repr

/-- A command without operands: DIG = 0 and DATA = 0. -/
def decodePlain (w : Word) (i : Instr) : Except DecodeError Instr :=
  if digField w ≠ 0 then .error .unusedDigits
  else if dataField w ≠ 0 then .error .unusedData
  else .ok i

/-- A command with a data byte: DIG = 0, DATA free. -/
def decodeData (w : Word) (f : Byte → Instr) : Except DecodeError Instr :=
  if digField w ≠ 0 then .error .unusedDigits else .ok (f (dataField w))

/-- A command with a digit count: DATA = 0, DIG in 1 to 15. -/
def decodeDigits (w : Word) (f : BitVec 4 → Instr) : Except DecodeError Instr :=
  if dataField w ≠ 0 then .error .unusedData
  else if digField w = 0 then .error .zeroDigits
  else .ok (f (digField w))

/-- `Decode` of R89: each word is one of the ten commands of R85, or illegal. -/
def decode (w : Word) : Except DecodeError Instr :=
  if rsvField w ≠ 0 then .error .reservedBits
  else
    match (opField w).toNat with
    | 0x0 => decodePlain w .nop
    | 0x1 => decodePlain w .keyclr
    | 0x2 => decodeData w .b32push
    | 0x3 => decodeData w .keypush
    | 0x4 => decodePlain w .tctr
    | 0x5 => decodeDigits w .trunc
    | 0x6 => decodeDigits w .hotp
    | 0x7 => decodeDigits w .totp
    | 0x8 => decodePlain w .verify
    | 0x9 => decodePlain w .abort
    | _ => .error .reservedOp

/-- A word from its fields, RSV = 0 (R80). -/
def assemble (op dig : BitVec 4) (data : Byte) : Word := (0 : BitVec 16) ++ data ++ dig ++ op

/-- The command's word, by the table of R92. -/
def encode : Instr → Word
  | .nop => assemble 0x0 0 0
  | .keyclr => assemble 0x1 0 0
  | .b32push ch => assemble 0x2 0 ch
  | .keypush b => assemble 0x3 0 b
  | .tctr => assemble 0x4 0 0
  | .trunc d => assemble 0x5 d 0
  | .hotp d => assemble 0x6 d 0
  | .totp d => assemble 0x7 d 0
  | .verify => assemble 0x8 0 0
  | .abort => assemble 0x9 0 0

/-- The match value of the command's row (R85). -/
def tableMatch : Instr → Word
  | .nop => 0x00000000
  | .keyclr => 0x00000001
  | .b32push _ => 0x00000002
  | .keypush _ => 0x00000003
  | .tctr => 0x00000004
  | .trunc _ => 0x00000005
  | .hotp _ => 0x00000006
  | .totp _ => 0x00000007
  | .verify => 0x00000008
  | .abort => 0x00000009

/-- The mask of the command's row (R85). -/
def tableMask : Instr → Word
  | .nop => 0xFFFFFFFF
  | .keyclr => 0xFFFFFFFF
  | .b32push _ => 0xFFFF00FF
  | .keypush _ => 0xFFFF00FF
  | .tctr => 0xFFFFFFFF
  | .trunc _ => 0xFFFFFF0F
  | .hotp _ => 0xFFFFFF0F
  | .totp _ => 0xFFFFFF0F
  | .verify => 0xFFFFFFFF
  | .abort => 0xFFFFFFFF

/-- The command a table row's word stands for, none where the decoder refuses it. A command word is
a number, not bytes (spec/20_memory.md R66), so bit 0 of the table is bit 0 of the word; the bits
above nbits are 0. -/
def decodeTableWord (nbits w : Nat) : Option Instr :=
  match decode (BitVec.ofNat 32 (w % 2 ^ nbits)) with
  | .ok i => some i
  | .error _ => none

end Sys2Proof
end

