-- ==== Sys2Proof/Config.lean ====
section
/-! DEFINITION. What is fixed for one block: the build parameters of spec/00_scope.md R6 that have a
value, and the free constants for what the spec leaves open (EMPTY_KEY_POLICY, the hmac agent's draw). -/

namespace Sys2Proof

/-- The build parameters of R6 that the model takes as arguments; the default of each field is R6's
value for this hardware. State carries one `Params`, which no step writes (assumption 1). -/
structure Params where
  /-- KEY_MAX, the capacity of the key buffer in bytes: 1 to 256, 64 by default. -/
  keyMax : Nat := 64
  /-- STEP_S, the TOTP step in seconds: 1 to 2^32 - 1, 30 for this hardware. -/
  stepS : Word := 30
  /-- KEY_READBACK: whether the KEY window returns key bytes; true by default. -/
  keyReadback : Bool := true
  deriving DecidableEq, Repr

/-- The legal values of R6. -/
abbrev Params.Legal (p : Params) : Prop :=
  1 ≤ p.keyMax ∧ p.keyMax ≤ 256 ∧ 1 ≤ p.stepS.toNat

/-- EMPTY_KEY_POLICY (R6): what the hmac agent does with a zero-length key. -/
inductive EmptyKeyPolicy where
  /-- REJECT: it answers CryptoError. -/
  | reject
  /-- ACCEPT: it answers the HMAC of the empty key, or CryptoError. -/
  | accept
  deriving DecidableEq, Repr, Inhabited

/-- The hmac agent's draw from `Allowed(k, m)` (spec/41_hmac_port.md R123, decision D24): does it
answer with the digest or fail? -/
inductive HmacDraw where
  | digest
  | cryptoError
  deriving DecidableEq, Repr, Inhabited

/-- EMPTY_KEY_POLICY is OPEN in R6: a constant nothing constrains (assumption 2). -/
opaque Config.emptyKeyPolicy : EmptyKeyPolicy

/-- The draw for the n-th answer the schedule says nothing about: a free value (assumption 3). -/
opaque Config.hmacDraw : Nat → HmacDraw

end Sys2Proof
end

