-- ==== Sys2Proof/Machine/State.lean ====
section
/-! DEFINITION. The state of the block as plain data (spec/10_state.md), the state after reset
(spec/70_reset_and_hazards.md R220), and the reasons a step can stop. -/

namespace Sys2Proof.Machine

/-- `fsm` (R40). -/
inductive Fsm where
  /-- No command. -/
  | idle
  /-- A command is accepted and not yet executed. -/
  | exec
  /-- An HMAC request is outstanding. -/
  | wait
  /-- An HMAC response is held and not yet processed. -/
  | resp
  deriving DecidableEq, Repr

/-- The error codes of spec/60_exceptions.md R200; the reserved codes 6 to 15 are never written. -/
inductive ErrCode where
  | none
  | invalidSecret
  | cryptoError
  | illegalCmd
  | keyOverflow
  | aborted
  deriving DecidableEq, Repr

/-- A request on the HMAC port: the key and the 8-byte message (R49, spec/41_hmac_port.md R120). -/
structure HmacReq where
  key : List Byte
  msg : Message
  deriving DecidableEq, Repr

/-- A response of the hmac agent (spec/41_hmac_port.md R120). -/
inductive HmacResp where
  | digest (d : Digest)
  | cryptoError
  deriving DecidableEq, Repr

/-- The two kinds of bus access. -/
inductive Access where
  | read
  | write
  deriving DecidableEq, Repr

/-- What the host can do (spec/30_encoding.md R91): MemRead and MemWrite of `width` bytes at byte
offset `off`, and the reset event. -/
inductive HostOp where
  | rd (width off : Nat)
  | wr (width off : Nat) (v : Word)
  | rst
  deriving DecidableEq, Repr

/-- One turn of the schedule: which of the three agents (spec/00_scope.md R3) moves, with the host's
operation or the hmac agent's draw. -/
inductive Turn where
  | host (op : HostOp)
  | core
  | hmac (draw : HmacDraw)
  deriving DecidableEq, Repr

/-- The whole state: build parameters, the registers of the window, the hidden state of the core, the
HMAC port, and three fields of the model's own (turns, hostRead, draws). -/
structure State where
  /-- The build parameters (spec/00_scope.md R6); no step writes them. -/
  params : Params
  /-- STATUS.DONE (R26). -/
  done : Bool
  /-- STATUS.VALID (R27). -/
  valid : Bool
  /-- STATUS.MATCH (R27). -/
  matchIdx : BitVec 2
  /-- STATUS.KOVF (R28). -/
  kovf : Bool
  /-- STATUS.OVR (R29). -/
  ovr : Bool
  /-- STATUS.ERR (R30). -/
  err : ErrCode
  /-- IRQ_EN.IE (R31). -/
  ie : Bool
  /-- KEY, the KEY_MAX bytes of the key buffer (R33). -/
  key : List Byte
  /-- KEY_LEN.LEN (R32). -/
  keyLen : Nat
  /-- B32_STATE.ACC (R34). -/
  acc : BitVec 7
  /-- B32_STATE.BITCNT (R34). -/
  bitcnt : BitVec 3
  /-- DIGITS (R36). -/
  digits : BitVec 4
  /-- CTR_LO (R37). -/
  ctrLo : Word
  /-- CTR_HI (R37). -/
  ctrHi : Word
  /-- NOW_LO (R38). -/
  nowLo : Word
  /-- NOW_HI (R38). -/
  nowHi : Word
  /-- REMAIN (R39). -/
  remain : Word
  /-- OFFS (R41). -/
  offs : BitVec 4
  /-- PVAL, bits 30:0 (R42). -/
  pval : BitVec 31
  /-- CODE_NUM (R43). -/
  codeNum : Word
  /-- CAND_LEN (R44). -/
  candLen : Word
  /-- CAND[0..16) (R45). -/
  cand : Buffer16
  /-- CODE[0..16) (R46). -/
  code : Buffer16
  /-- H[0..20) (R47). -/
  h : Digest
  /-- fsm (R40). -/
  fsm : Fsm
  /-- cmd, the accepted command word (R40). -/
  cmd : Word
  /-- abort_req (R40). -/
  abortReq : Bool
  /-- wctr (R40). -/
  wctr : DWord
  /-- vidx (R40). -/
  vidx : Fin 3
  /-- vbase (R40). -/
  vbase : DWord
  /-- tc_rem (R40). -/
  tcRem : Word
  /-- resp (R40). -/
  resp : Option HmacResp
  /-- req, the HMAC port's state (R49). -/
  req : Option HmacReq
  /-- The model's own: the turns to come, the next one first (assumption 5). -/
  turns : List Turn
  /-- The model's own: the word the last MemRead returned to the host (assumption 7). -/
  hostRead : Option Word
  /-- The model's own: how many free draws of the hmac agent were used (assumption 3). -/
  draws : Nat
  deriving DecidableEq, Repr

/-- The state the reset event loads in a block built with the parameters `p` (R220). -/
def State.resetFor (p : Params) : State where
  params := p
  done := false
  valid := false
  matchIdx := 0
  kovf := false
  ovr := false
  err := .none
  ie := false
  key := List.replicate p.keyMax 0
  keyLen := 0
  acc := 0
  bitcnt := 0
  digits := 0
  ctrLo := 0
  ctrHi := 0
  nowLo := 0
  nowHi := 0
  remain := 0
  offs := 0
  pval := 0
  codeNum := 0
  candLen := 0
  cand := Vector.replicate 16 0
  code := Vector.replicate 16 0
  h := Vector.replicate 20 0
  fsm := .idle
  cmd := 0
  abortReq := false
  wctr := 0
  vidx := 0
  vbase := 0
  tcRem := 0
  resp := none
  req := none
  turns := []
  hostRead := none
  draws := 0

/-- The machine right after reset, with R6's parameter values for this hardware. -/
def State.reset : State := State.resetFor {}

/-- Why the machine stops. -/
inductive Fault where
  /-- Raised by a host access of `width` bytes at offset `off` that the window does not admit
  (spec/20_memory.md R62, spec/60_exceptions.md R203): safe, the spec's own fault. -/
  | busError (a : Access) (width off : Nat)
  /-- Raised by a core step with fsm = RESP and no response held (R51, clause 3, rules it out): safe,
  no run reaches it (assumption 9). -/
  | noResponseHeld
  /-- Raised by a core step with fsm = RESP and a command that never sends a request
  (spec/45_control.md R183 rules it out): safe, no run reaches it (assumption 9). -/
  | noResponseStep
  deriving DecidableEq, Repr

/-- Why a command has no meaning in the model. -/
inductive Refusal where
  /-- Raised by an arm of exec for a command that has no meaning yet: safe. No arm raises it. -/
  | notModelled (mnemonic : String)
  deriving DecidableEq, Repr

end Sys2Proof.Machine
end

