-- ==== Sys2Proof/Machine/Operands.lean ====
section
/-! DEFINITION. Every form an operand takes: bytes packed into bus words (spec/20_memory.md R67), the
64-bit pairs (R68), the counter message (R69, spec/42_hotp.md R130), and the operands a command
reads from registers (spec/30_encoding.md R90). -/

namespace Sys2Proof.Machine

/-- A word from four bytes, the lowest-numbered byte in bits 31:24 (R67). -/
def packWord (b0 b1 b2 b3 : Byte) : Word := b0 ++ b1 ++ b2 ++ b3

/-- Byte j of a word, byte 0 in bits 31:24 (R67). -/
def byteOfWord (w : Word) (j : Nat) : Byte := w.extractLsb' (8 * (3 - j)) 8

/-- Word k of a byte buffer: its bytes 4k to 4k+3 (R67); a byte past the end reads 0. -/
def wordAt {n : Nat} (v : Vector Byte n) (k : Nat) : Word :=
  packWord (v[4 * k]?.getD 0) (v[4 * k + 1]?.getD 0) (v[4 * k + 2]?.getD 0) (v[4 * k + 3]?.getD 0)

/-- The buffer after word k is written: bytes 4k to 4k+3 come from the word (R67). -/
def putWord {n : Nat} (v : Vector Byte n) (k : Nat) (w : Word) : Vector Byte n :=
  Vector.ofFn fun i => if i.val / 4 = k then byteOfWord w (i.val % 4) else v[i]

/-- The 64-bit counter CTR_HI ++ CTR_LO (spec/10_state.md R37). -/
def ctr (s : State) : DWord := s.ctrHi ++ s.ctrLo

/-- The 64-bit time NOW_HI ++ NOW_LO (spec/10_state.md R38). -/
def now (s : State) : DWord := s.nowHi ++ s.nowLo

/-- The high half of a 64-bit value: floor(c / 2^32) (spec/10_state.md R37). -/
def highHalf (c : DWord) : Word := c.extractLsb' 32 32

/-- The low half of a 64-bit value: c mod 2^32 (spec/10_state.md R37). -/
def lowHalf (c : DWord) : Word := c.extractLsb' 0 32

/-- The key the commands use: KEY[0 .. KEY_LEN) (spec/10_state.md R33). -/
def keyBytes (s : State) : List Byte := s.key.take s.keyLen

/-- BE64 (spec/00_scope.md R10): byte i is c[63-8i : 56-8i]. -/
def be64 (c : DWord) : Message := Vector.ofFn fun i => c.extractLsb' (56 - 8 * i.val) 8

/-- Serialize (spec/42_hotp.md R130): the message from the two halves of the counter. -/
def serialize (hi lo : Word) : Message :=
  #v[byteOfWord hi 0, byteOfWord hi 1, byteOfWord hi 2, byteOfWord hi 3,
    byteOfWord lo 0, byteOfWord lo 1, byteOfWord lo 2, byteOfWord lo 3]

/-- KEY[i], 0 at and above KEY_MAX (spec/10_state.md R33). -/
def keyByte (s : State) (i : Nat) : Byte := if i < s.params.keyMax then s.key.getD i 0 else 0

end Sys2Proof.Machine
end

