-- ==== Sys2Proof/Machine/Flags.lean ====
section
/-! DEFINITION. Every flag the block computes: the number of an error code
(spec/60_exceptions.md R200), STATUS as a word (spec/10_state.md R24, R25), its write-1-to-clear bits,
the key-full and empty-key conditions, and the interrupt line (spec/60_exceptions.md R206). -/

namespace Sys2Proof.Machine

/-- The number STATUS.ERR shows for a code (R200). -/
def errNumber : ErrCode → BitVec 4
  | .none => 0
  | .invalidSecret => 1
  | .cryptoError => 2
  | .illegalCmd => 3
  | .keyOverflow => 4
  | .aborted => 5

/-- STATUS.BUSY is not stored: 1 exactly when fsm ≠ IDLE (R25). -/
def busy (s : State) : Bool := s.fsm != .idle

/-- One flag as a bit. -/
def flagBit (b : Bool) : BitVec 1 := BitVec.ofBool b

/-- STATUS (R24): ERR in 11:8, OVR in 6, KOVF in 5, MATCH in 4:3, VALID in 2, DONE in 1, BUSY in 0. -/
def statusWord (s : State) : Word :=
  (0 : BitVec 20) ++ errNumber s.err ++ (0 : BitVec 1) ++ flagBit s.ovr ++ flagBit s.kovf
    ++ s.matchIdx ++ flagBit s.valid ++ flagBit s.done ++ flagBit (busy s)

/-- A host write to STATUS (R24): bit 1 clears DONE, bit 6 clears OVR, nothing else changes. -/
def clearStatus (v : Word) (s : State) : State :=
  { s with
    done := s.done && !v.getLsbD 1
    ovr := s.ovr && !v.getLsbD 6 }

/-- The key buffer is full: KEY_LEN = KEY_MAX (spec/40_base32.md R102). -/
def keyFull (s : State) : Bool := s.keyLen == s.params.keyMax

/-- The interrupt output IRQ = IRQ_EN.IE & STATUS.DONE (R206). -/
def irq (s : State) : Bool := s.ie && s.done

end Sys2Proof.Machine
end

