-- ==== Sys2Proof/Machine/Ops.lean ====
section
/-! DEFINITION. The named operations the commands share: accepting a command and ending it
(spec/45_control.md R180, R184), commit and raise (spec/00_scope.md R11), the HMAC request
(spec/41_hmac_port.md R121), the writes of the key buffer and the packer, and the reset event. The block
has no trap entry and no trap return (spec/60_exceptions.md R208, R209): `finish` is how an error ends a
command. -/

namespace Sys2Proof.Machine

/-- The result of one core step. -/
abbrev StepResult := Host.Outcome State Fault Refusal

/-- `finish(E)` (R184) clears VALID and MATCH for a VERIFY word (OP = 0x8) that ends with an error. -/
def clearsVerdict (e : ErrCode) (s : State) : Bool := opField s.cmd == 0x8 && e != .none

/-- `finish(E)` (R184): the end of the command in progress. -/
def finish (e : ErrCode) (s : State) : State :=
  { s with
    fsm := .idle
    done := true
    err := e
    abortReq := false
    resp := none
    valid := if clearsVerdict e s then false else s.valid
    matchIdx := if clearsVerdict e s then 0 else s.matchIdx }

/-- `commit { ... }` (spec/00_scope.md R11): the writes already made in `s` take effect together, and
the command ends with finish(NONE). -/
def commit (s : State) : StepResult := .next (finish .none s)

/-- `raise E` (spec/00_scope.md R11): the command ends at once with finish(E). -/
def raise (e : ErrCode) (s : State) : StepResult := .next (finish e s)

/-- `Accept(w)` (R180): the idle block latches a command word. -/
def accept (w : Word) (s : State) : State := { s with cmd := w, fsm := .exec, done := false }

/-- OVR records a host write that was dropped (spec/10_state.md R29). -/
def markDropped (s : State) : State := { s with ovr := true }

/-- abort_req records an ABORT word written while busy (R181). -/
def requestAbort (s : State) : State := { s with abortReq := true }

/-- `CmdWhileBusy(w)` (R181): the ABORT word asks for an abort, any other word is dropped. -/
def cmdWhileBusy (w : Word) (s : State) : State :=
  if w = 0x00000009 then requestAbort s else markDropped s

/-- `HmacRequest(k, m)` (spec/41_hmac_port.md R121). -/
def hmacRequest (k : List Byte) (m : Message) (s : State) : State :=
  { s with req := some { key := k, msg := m }, fsm := .wait }

/-- `HmacAnswer(r)` (spec/41_hmac_port.md R122). -/
def hmacAnswer (r : HmacResp) (s : State) : State :=
  { s with req := none, resp := some r, fsm := .resp }

/-- wctr takes the counter of the request issued next (spec/10_state.md R40). -/
def setWctr (c : DWord) (s : State) : State := { s with wctr := c }

/-- tc_rem takes the remaining seconds a TOTP holds back (spec/10_state.md R40). -/
def setTcRem (n : Word) (s : State) : State := { s with tcRem := n }

/-- vbase takes the base of a VERIFY window (spec/10_state.md R40). -/
def setVbase (base : DWord) (s : State) : State := { s with vbase := base }

/-- vidx takes the window index being tried (spec/10_state.md R40). -/
def setVidx (i : Fin 3) (s : State) : State := { s with vidx := i }

/-- resp <- none, before VERIFY's next request (spec/44_verify.md R167). -/
def dropResp (s : State) : State := { s with resp := none }

/-- KOVF <- 1 (spec/40_base32.md R102). -/
def setKovf (s : State) : State := { s with kovf := true }

/-- CTR_HI and CTR_LO take the two halves of a counter (spec/43_totp.md R153). -/
def setCtr (c : DWord) (s : State) : State := { s with ctrHi := highHalf c, ctrLo := lowHalf c }

/-- ACC and BITCNT take new values (spec/40_base32.md R104). -/
def setPacker (acc : BitVec 7) (bitcnt : BitVec 3) (s : State) : State :=
  { s with acc := acc, bitcnt := bitcnt }

/-- The storing half of `KeyAppend(b)` (spec/40_base32.md R102): KEY[KEY_LEN] and KEY_LEN. -/
def storeKeyByte (b : Byte) (s : State) : State :=
  { s with key := s.key.set s.keyLen b, keyLen := s.keyLen + 1 }

/-- The refusing half of `KeyAppend(b)` (spec/40_base32.md R102): KOVF, then KEY_OVERFLOW. -/
def overflow (s : State) : StepResult := raise .keyOverflow (setKovf s)

/-- KEYCLR's writes (spec/40_base32.md R103): the key buffer and packer are empty again. -/
def clearKey (s : State) : State :=
  { s with
    key := List.replicate s.params.keyMax 0
    keyLen := 0
    acc := 0
    bitcnt := 0
    kovf := false }

/-- The response a response step processes: CryptoError raises CRYPTO_ERROR, a digest goes on
(spec/42_hotp.md R135, spec/43_totp.md R154, spec/44_verify.md R167). -/
def withDigest (s : State) (k : Digest → StepResult) : StepResult :=
  match s.resp with
  | some (.digest h) => k h
  | some .cryptoError => raise .cryptoError s
  | none => .fault .noResponseHeld

/-- The reset event RST (spec/70_reset_and_hazards.md R220): every piece of the block's state takes its
reset value. The parameters, the schedule and what the host has read are not the block's (assumption 12). -/
def resetEvent (s : State) : State :=
  { State.resetFor s.params with turns := s.turns, hostRead := s.hostRead, draws := s.draws }

end Sys2Proof.Machine
end

