-- ==== Sys2Proof/Machine/Bus.lean ====
section
/-! DEFINITION. The register window (spec/10_state.md section 2, spec/20_memory.md): which register stands
at an offset, MemRead, MemWrite, the accesses the window does not admit, and the host's step. -/

namespace Sys2Proof.Machine

/-- The registers of the window, by name. -/
inductive Reg where
  | id
  | cmd
  | status
  | irqEn
  | keyLen
  | b32State
  | step
  | digits
  | ctrLo
  | ctrHi
  | nowLo
  | nowHi
  | remain
  | offs
  | pval
  | codeNum
  | candLen
  | cand (k : Fin 4)
  | code (k : Fin 4)
  | h (k : Fin 5)
  | keyw (k : Fin 64)
  /-- A reserved or unmapped offset (R48). -/
  | hole
  deriving DecidableEq, Repr

/-- The register at a word-aligned byte offset (the register map of spec/10_state.md). -/
def regAt (off : Nat) : Reg :=
  if off < 0x044 then
    match off with
    | 0x000 => .id
    | 0x004 => .cmd
    | 0x008 => .status
    | 0x00C => .irqEn
    | 0x010 => .keyLen
    | 0x014 => .b32State
    | 0x018 => .step
    | 0x01C => .digits
    | 0x020 => .ctrLo
    | 0x024 => .ctrHi
    | 0x028 => .nowLo
    | 0x02C => .nowHi
    | 0x030 => .remain
    | 0x034 => .offs
    | 0x038 => .pval
    | 0x03C => .codeNum
    | 0x040 => .candLen
    | _ => .hole
  else if off < 0x054 then .cand (Fin.ofNat 4 ((off - 0x044) / 4))
  else if off < 0x064 then .code (Fin.ofNat 4 ((off - 0x054) / 4))
  else if off < 0x078 then .h (Fin.ofNat 5 ((off - 0x064) / 4))
  else if off < 0x100 then .hole
  else if off < 0x200 then .keyw (Fin.ofNat 64 ((off - 0x100) / 4))
  else .hole

/-- Word k of the KEY window (R33): the key bytes, or 0 in a block built without read-back. -/
def keyWord (s : State) (k : Nat) : Word :=
  if s.params.keyReadback then
    packWord (keyByte s (4 * k)) (keyByte s (4 * k + 1)) (keyByte s (4 * k + 2)) (keyByte s (4 * k + 3))
  else 0

/-- The 32-bit value of a register: its fields in their bit positions, reserved bits 0
(spec/20_memory.md R63). -/
def readReg (r : Reg) (s : State) : Word :=
  match r with
  | .id => 0x4F545043
  | .cmd => 0
  | .status => statusWord s
  | .irqEn => (flagBit s.ie).setWidth 32
  | .keyLen => (BitVec.ofNat 9 s.keyLen).setWidth 32
  | .b32State => (0 : BitVec 21) ++ s.bitcnt ++ (0 : BitVec 1) ++ s.acc
  | .step => s.params.stepS
  | .digits => s.digits.setWidth 32
  | .ctrLo => s.ctrLo
  | .ctrHi => s.ctrHi
  | .nowLo => s.nowLo
  | .nowHi => s.nowHi
  | .remain => s.remain
  | .offs => s.offs.setWidth 32
  | .pval => s.pval.setWidth 32
  | .codeNum => s.codeNum
  | .candLen => s.candLen
  | .cand k => wordAt s.cand k.val
  | .code k => wordAt s.code k.val
  | .h k => wordAt s.h k.val
  | .keyw k => keyWord s k.val
  | .hole => 0

/-- A host write to an input register: stored when idle, dropped with OVR when busy
(spec/45_control.md R182). -/
def writeInput (s : State) (stored : State) : State :=
  if busy s then markDropped s else stored

/-- IRQ_EN takes bit 0 of the written word (spec/10_state.md R31). -/
def setIe (v : Word) (s : State) : State := { s with ie := v.getLsbD 0 }

/-- The host receives the word a MemRead returned (spec/20_memory.md R63; assumption 7). -/
def answerHost (v : Word) (s : State) : State := { s with hostRead := some v }

/-- `MemWrite` by the kind of register (spec/20_memory.md R64). -/
def writeReg (r : Reg) (v : Word) (s : State) : State :=
  match r with
  | .cmd => if busy s then cmdWhileBusy v s else accept v s
  | .status => clearStatus v s
  | .irqEn => setIe v s
  | .ctrLo => writeInput s { s with ctrLo := v }
  | .ctrHi => writeInput s { s with ctrHi := v }
  | .nowLo => writeInput s { s with nowLo := v }
  | .nowHi => writeInput s { s with nowHi := v }
  | .candLen => writeInput s { s with candLen := v }
  | .cand k => writeInput s { s with cand := putWord s.cand k.val v }
  | .h k => writeInput s { s with h := putWord s.h k.val v }
  | .id => s
  | .keyLen => s
  | .b32State => s
  | .step => s
  | .digits => s
  | .remain => s
  | .offs => s
  | .pval => s
  | .codeNum => s
  | .code _ => s
  | .keyw _ => s
  | .hole => s

/-- The accesses the window admits (spec/20_memory.md R61, R62): one 32-bit word at a multiple of 4,
at most 0xFFC. -/
def admitted (width off : Nat) : Bool := width == 4 && off % 4 == 0 && off ≤ 0xFFC

/-- The host's step: a read gives the host the register's value and changes nothing in the block, a write
acts by R64, and an access that is not admitted is a BusError (spec/60_exceptions.md R203). -/
def hostStep (op : HostOp) (s : State) : StepResult :=
  match op with
  | .rd width off =>
    if admitted width off then .next (answerHost (readReg (regAt off) s) s)
    else .fault (.busError .read width off)
  | .wr width off v =>
    if admitted width off then .next (writeReg (regAt off) v s)
    else .fault (.busError .write width off)
  | .rst => .next (resetEvent s)

end Sys2Proof.Machine
end

