-- ==== Sys2Proof/Machine/Base32.lean ====
section
/-! DEFINITION. The Base32 decoder and key loading (spec/40_base32.md): B32Index, Pack, and the commands
KEYCLR, B32PUSH and KEYPUSH. -/

namespace Sys2Proof.Machine

/-- `B32Index(ch)` (R100): letters of either case are 0 to 25, '2' to '7' are 26 to 31, everything
else is discarded. -/
def b32Index (ch : Byte) : Option (BitVec 5) :=
  if 0x41 ≤ ch ∧ ch ≤ 0x5A then some ((ch - 0x41).setWidth 5)
  else if 0x61 ≤ ch ∧ ch ≤ 0x7A then some ((ch - 0x61).setWidth 5)
  else if 0x32 ≤ ch ∧ ch ≤ 0x37 then some ((ch - 0x32 + 26).setWidth 5)
  else none

/-- What `Pack` gives: the new pending bits, their count, and the byte emitted, if any. -/
structure Packed where
  acc : BitVec 7
  bitcnt : BitVec 3
  emitted : Option Byte
  deriving DecidableEq, Repr

/-- `Pack(acc, bitcnt, v)` (R101): appends the 5-bit index, most significant bit first, and emits the
oldest 8 pending bits once there are 8. `t` has 12 bits. -/
def pack (acc : BitVec 7) (bitcnt : BitVec 3) (v : BitVec 5) : Packed :=
  let t : BitVec 12 := (acc.setWidth 12 <<< 5) ||| v.setWidth 12
  let n := bitcnt.toNat + 5
  if 8 ≤ n then
    { acc := (t &&& ((1 <<< (n - 8)) - 1)).setWidth 7
      bitcnt := BitVec.ofNat 3 (n - 8)
      emitted := some ((t >>> (n - 8) &&& 0xFF).setWidth 8) }
  else
    { acc := t.setWidth 7
      bitcnt := BitVec.ofNat 3 n
      emitted := none }

/-- KEYCLR (R103). -/
def execKeyclr (s : State) : StepResult := commit (clearKey s)

/-- B32PUSH ch (R104). -/
def execB32push (ch : Byte) (s : State) : StepResult :=
  if s.kovf then raise .keyOverflow s
  else
    match b32Index ch with
    | none => commit s
    | some v =>
      let p := pack s.acc s.bitcnt v
      match p.emitted with
      | none => commit (setPacker p.acc p.bitcnt s)
      | some e =>
        if keyFull s then overflow s
        else commit (storeKeyByte e (setPacker p.acc p.bitcnt s))

/-- KEYPUSH b (R105): a raw byte ends any pending Base32 group. -/
def execKeypush (b : Byte) (s : State) : StepResult :=
  if s.kovf then raise .keyOverflow s
  else if keyFull s then overflow s
  else commit (storeKeyByte b (setPacker 0 0 s))

end Sys2Proof.Machine
end

