-- ==== Sys2Proof/Machine/Control.lean ====
section
/-! DEFINITION. The control commands NOP and ABORT (spec/45_control.md R185, R186). -/

namespace Sys2Proof.Machine

/-- NOP (R185). -/
def execNop (s : State) : StepResult := commit s

/-- ABORT accepted from idle (R186). The same word written while busy is `cmdWhileBusy`'s; written again
before this command's core step, it makes `coreStep` end with ABORTED (assumption 19). -/
def execAbort (s : State) : StepResult := commit s

end Sys2Proof.Machine
end

