-- ==== Sys2Proof/Machine/Hotp.lean ====
section
/-! DEFINITION. The HOTP truncation and modulo engine (spec/42_hotp.md): DynTrunc, ModDigits, Render,
CodeOf, and the commands TRUNC and HOTP. -/

namespace Sys2Proof.Machine

/-- The offset of `DynTrunc(h)` (R131): the low nibble of h[19]. -/
def truncOffset (h : Digest) : BitVec 4 := (h[19] &&& 0x0F).setWidth 4

/-- The value `p` of `DynTrunc(h)` (R131), as the word the formula computes: four bytes from the
offset on, the first masked by 0x7F. -/
def truncWord (h : Digest) : Word :=
  let o := truncOffset h
  (h[o.toNat]'(by omega) &&& 0x7F).setWidth 32 <<< 24
    ||| (h[o.toNat + 1]'(by omega) &&& 0xFF).setWidth 32 <<< 16
    ||| (h[o.toNat + 2]'(by omega) &&& 0xFF).setWidth 32 <<< 8
    ||| (h[o.toNat + 3]'(by omega) &&& 0xFF).setWidth 32

/-- `p` in the 31 bits PVAL holds (R131: p < 2^31 for every digest). -/
def truncValue (h : Digest) : BitVec 31 := (truncWord h).setWidth 31

/-- `ModDigits(p, d)` (R132), exact. -/
def modDigits (p d : Nat) : Nat := p % 10 ^ d

/-- Character i of `Render(n, d)` (R133). -/
def renderChar (n d i : Nat) : Byte := BitVec.ofNat 8 (0x30 + n / 10 ^ (d - 1 - i) % 10)

/-- `Render(n, d)` (R133): the d-character decimal string, most significant digit first. -/
def render (n d : Nat) : List Byte := (List.range d).map (renderChar n d)

/-- The number of `CodeOf(h, d)` (R136). -/
def codeNumber (h : Digest) (d : Nat) : Nat := modDigits (truncValue h).toNat d

/-- The string of `CodeOf(h, d)` (R136). -/
def codeString (h : Digest) (d : Nat) : List Byte := render (codeNumber h d) d

/-- CODE from a string: its characters, then 0x00 up to byte 15 (R136). -/
def codeBuffer (str : List Byte) : Buffer16 := Vector.ofFn fun i => str.getD i.val 0

/-- `CommitCode(h, d)` (R136): the register writes of a code result. -/
def commitCode (h : Digest) (d : BitVec 4) (s : State) : State :=
  { s with
    offs := truncOffset h
    pval := truncValue h
    codeNum := BitVec.ofNat 32 (codeNumber h d.toNat)
    code := codeBuffer (codeString h d.toNat)
    digits := d }

/-- H takes the digest the hmac agent returned (R135). -/
def setH (h : Digest) (s : State) : State := { s with h := h }

/-- TRUNC d (R134). DIG = 0 is illegal (spec/30_encoding.md R86, R87). -/
def execTrunc (d : BitVec 4) (s : State) : StepResult :=
  if d = 0 then raise .illegalCmd s else commit (commitCode s.h d s)

/-- HOTP d, execute step (R135). DIG = 0 is illegal (spec/30_encoding.md R86, R87). -/
def hotpExecute (d : BitVec 4) (s : State) : StepResult :=
  if d = 0 then raise .illegalCmd s
  else if s.kovf then raise .keyOverflow s
  else .next (hmacRequest (keyBytes s) (serialize s.ctrHi s.ctrLo) (setWctr (ctr s) s))

/-- HOTP d, response step (R135). -/
def hotpRespond (d : BitVec 4) (s : State) : StepResult :=
  withDigest s fun h => commit (commitCode h d (setH h s))

/-- HOTP d (R135): the response step when a response is held, else the execute step. -/
def execHotp (d : BitVec 4) (s : State) : StepResult :=
  match s.fsm with
  | .resp => hotpRespond d s
  | .idle | .exec | .wait => hotpExecute d s

end Sys2Proof.Machine
end

