-- ==== Sys2Proof/Machine/Totp.lean ====
section
/-! DEFINITION. The TOTP counter calculator (spec/43_totp.md): TimeCounter, Remaining, and the commands
TCTR and TOTP. -/

namespace Sys2Proof.Machine

/-- `TimeCounter(NOW, S)` (R150), exact. -/
def timeCounter (t S : Nat) : Nat := t / 1000 / S

/-- `Remaining(NOW, S)` (R151), by the document's own formula, exact. The subtraction on naturals stops
at 0, which is the formula's max(0, ·), and ceil(x / 1000) is (x + 999) / 1000. -/
def remaining (t S : Nat) : Nat :=
  let periodEndMillis := (timeCounter t S + 1) * S * 1000
  (periodEndMillis - t + 999) / 1000

/-- The counter of the block's NOW and STEP_S, in 64 bits (R150: it is below 2^54). -/
def nowCounter (s : State) : DWord :=
  BitVec.ofNat 64 (timeCounter (now s).toNat s.params.stepS.toNat)

/-- The remaining seconds of the block's NOW and STEP_S, in 32 bits (R152: it is at most S). -/
def nowRemaining (s : State) : Word :=
  BitVec.ofNat 32 (remaining (now s).toNat s.params.stepS.toNat)

/-- REMAIN takes a value (R153). -/
def setRemain (n : Word) (s : State) : State := { s with remain := n }

/-- TCTR (R153). -/
def execTctr (s : State) : StepResult := commit (setRemain (nowRemaining s) (setCtr (nowCounter s) s))

/-- TOTP d, execute step (R154). DIG = 0 is illegal (spec/30_encoding.md R86, R87). -/
def totpExecute (d : BitVec 4) (s : State) : StepResult :=
  if d = 0 then raise .illegalCmd s
  else if s.kovf then raise .keyOverflow s
  else if s.keyLen = 0 then raise .invalidSecret s
  else
    .next (hmacRequest (keyBytes s) (be64 (nowCounter s))
      (setWctr (nowCounter s) (setTcRem (nowRemaining s) s)))

/-- TOTP d, response step (R154). -/
def totpRespond (d : BitVec 4) (s : State) : StepResult :=
  withDigest s fun h =>
    commit (commitCode h d (setH h (setRemain s.tcRem (setCtr s.wctr s))))

/-- TOTP d (R154): the response step when a response is held, else the execute step. -/
def execTotp (d : BitVec 4) (s : State) : StepResult :=
  match s.fsm with
  | .resp => totpRespond d s
  | .idle | .exec | .wait => totpExecute d s

end Sys2Proof.Machine
end

