-- ==== Sys2Proof/Machine/Verify.lean ====
section
/-! DEFINITION. The verification window comparator (spec/44_verify.md): Match, Try, and the command
VERIFY. -/

namespace Sys2Proof.Machine

/-- `Match(str)` (R166): the candidate has 6 characters and they equal the code's. -/
def candMatches (str : List Byte) (s : State) : Bool :=
  s.candLen == 6 && s.cand.toList.take 6 == str

/-- The counter of window entry i: vbase - 1 + i (R167). -/
def windowCounter (base : DWord) (i : Fin 3) : DWord := base - 1 + BitVec.ofNat 64 i.val

/-- `Try(i)` (R167): request the code of window entry i. -/
def tryEntry (i : Fin 3) (s : State) : State :=
  hmacRequest (keyBytes s) (be64 (windowCounter s.vbase i))
    (setWctr (windowCounter s.vbase i) (setVidx i s))

/-- VALID and MATCH take a verdict (R167). -/
def setVerdict (valid : Bool) (matchIdx : BitVec 2) (s : State) : State :=
  { s with valid := valid, matchIdx := matchIdx }

/-- VERIFY, execute step (R167): entry 0 is not tried when base = 0 (R165). -/
def verifyExecute (s : State) : StepResult :=
  if s.kovf then raise .keyOverflow s
  else if s.keyLen = 0 then raise .invalidSecret s
  else
    let based := setVbase (nowCounter s) s
    if nowCounter s = 0 then .next (tryEntry 1 based) else .next (tryEntry 0 based)

/-- VERIFY, response step (R167). -/
def verifyRespond (s : State) : StepResult :=
  withDigest s fun h =>
    if candMatches (codeString h 6) s then
      commit (setVerdict true (BitVec.ofNat 2 (s.vidx.val + 1)) s)
    else if s.vidx = 2 then commit (setVerdict false 0 s)
    else .next (tryEntry (s.vidx + 1) (dropResp s))

/-- VERIFY (R167): the response step when a response is held, else the execute step. -/
def execVerify (s : State) : StepResult :=
  match s.fsm with
  | .resp => verifyRespond s
  | .idle | .exec | .wait => verifyExecute s

end Sys2Proof.Machine
end

