-- ==== Sys2Proof/Machine/Dispatch.lean ====
section
/-! DEFINITION. exec: the core step of a command (spec/45_control.md R183), one arm per command. -/

namespace Sys2Proof.Machine

def exec (i : Instr) (s : State) : Host.Outcome State Fault Refusal :=
  match i with
  | .nop => Sys2Proof.Machine.execNop s
  | .keyclr => Sys2Proof.Machine.execKeyclr s
  | .b32push ch => Sys2Proof.Machine.execB32push ch s
  | .keypush b => Sys2Proof.Machine.execKeypush b s
  | .tctr => Sys2Proof.Machine.execTctr s
  | .trunc d => Sys2Proof.Machine.execTrunc d s
  | .hotp d => Sys2Proof.Machine.execHotp d s
  | .totp d => Sys2Proof.Machine.execTotp d s
  | .verify => Sys2Proof.Machine.execVerify s
  | .abort => Sys2Proof.Machine.execAbort s

end Sys2Proof.Machine
end

