-- ==== Sys2Proof/Machine/Sha1.lean ====
section
/-! DEFINITION. HMAC_SHA1 (spec/41_hmac_port.md R124): the HMAC construction as R124 gives it, over
SHA-1. R124 names SHA-1 as the FIPS 180 hash and does not reproduce it: PRESUMED, taken from FIPS 180
and checked against the spec's digests and the ten codes of spec/42_hotp.md R139 (assumption 4). -/

namespace Sys2Proof.Machine

/-- The five chaining words of SHA-1 (PRESUMED, FIPS 180). -/
structure Chain where
  a : Word
  b : Word
  c : Word
  d : Word
  e : Word
  deriving DecidableEq, Repr

/-- SHA-1's initial chaining value (PRESUMED, FIPS 180). -/
def sha1Start : Chain := ⟨0x67452301, 0xEFCDAB89, 0x98BADCFE, 0x10325476, 0xC3D2E1F0⟩

/-- SHA-1's round function of round t: Ch, Parity, Maj, Parity (PRESUMED, FIPS 180). -/
def sha1Mix (t : Nat) (b c d : Word) : Word :=
  if t < 20 then (b &&& c) ||| (~~~b &&& d)
  else if t < 40 then b ^^^ c ^^^ d
  else if t < 60 then (b &&& c) ||| (b &&& d) ||| (c &&& d)
  else b ^^^ c ^^^ d

/-- SHA-1's constant of round t (PRESUMED, FIPS 180). -/
def sha1Const (t : Nat) : Word :=
  if t < 20 then 0x5A827999
  else if t < 40 then 0x6ED9EBA1
  else if t < 60 then 0x8F1BBCDC
  else 0xCA62C1D6

/-- One round of SHA-1 with schedule word w (PRESUMED, FIPS 180). -/
def sha1Round (x : Chain) (t : Nat) (w : Word) : Chain :=
  ⟨x.a.rotateLeft 5 + sha1Mix t x.b x.c x.d + x.e + sha1Const t + w, x.a, x.b.rotateLeft 30, x.c, x.d⟩

/-- The rounds from round t on, one per schedule word (PRESUMED, FIPS 180). -/
def sha1Rounds : List Word → Nat → Chain → Chain
  | [], _, x => x
  | w :: ws, t, x => sha1Rounds ws (t + 1) (sha1Round x t w)

/-- n more schedule words, the newest word first: each is the xor of the words 3, 8, 14 and 16 back,
rotated left by 1 (PRESUMED, FIPS 180). -/
def sha1Extend : Nat → List Word → List Word
  | 0, ws => ws
  | n + 1, ws =>
    sha1Extend n ((ws.getD 2 0 ^^^ ws.getD 7 0 ^^^ ws.getD 13 0 ^^^ ws.getD 15 0).rotateLeft 1 :: ws)

/-- SHA-1's compression of one 16-word block (PRESUMED, FIPS 180). -/
def sha1Compress (x : Chain) (block : List Word) : Chain :=
  let y := sha1Rounds (sha1Extend 64 block.reverse).reverse 0 x
  ⟨x.a + y.a, x.b + y.b, x.c + y.c, x.d + y.d, x.e + y.e⟩

/-- n blocks in turn. -/
def sha1Blocks : Nat → List Word → Chain → Chain
  | 0, _, x => x
  | n + 1, ws, x => sha1Blocks n (ws.drop 16) (sha1Compress x (ws.take 16))

/-- Bytes as big-endian words; a last group short of 4 bytes is dropped. -/
def wordsOfBytes : List Byte → List Word
  | a :: b :: c :: d :: rest => packWord a b c d :: wordsOfBytes rest
  | _ => []

/-- SHA-1's padding: 0x80, zeros, and the bit length as 8 bytes (PRESUMED, FIPS 180). -/
def sha1Pad (m : List Byte) : List Byte :=
  m ++ 0x80 :: List.replicate ((119 - m.length % 64) % 64) 0
    ++ (be64 (BitVec.ofNat 64 (8 * m.length))).toList

/-- The digest's 20 bytes, each word big-endian. -/
def chainBytes (x : Chain) : Digest :=
  Vector.ofFn fun i => byteOfWord (([x.a, x.b, x.c, x.d, x.e] : List Word).getD (i.val / 4) 0) (i.val % 4)

/-- SHA-1 (PRESUMED, FIPS 180). -/
def sha1 (m : List Byte) : Digest :=
  let ws := wordsOfBytes (sha1Pad m)
  chainBytes (sha1Blocks (ws.length / 16) ws sha1Start)

/-- K' of R124: the key, or its SHA-1 when it is longer than 64 bytes, zero-padded to 64 bytes. -/
def hmacBlock (k : List Byte) : List Byte :=
  let k0 := if k.length ≤ 64 then k else (sha1 k).toList
  k0 ++ List.replicate (64 - k0.length) 0

/-- HMAC_SHA1(K, m) of R124. -/
def hmacSha1 (k : List Byte) (m : Message) : Digest :=
  let inner := sha1 ((hmacBlock k).map (· ^^^ 0x36) ++ m.toList)
  sha1 ((hmacBlock k).map (· ^^^ 0x5C) ++ inner.toList)

end Sys2Proof.Machine
end

