-- ==== Sys2Proof/Machine/HmacPort.lean ====
section
/-! DEFINITION. The hmac agent's side of the port (spec/41_hmac_port.md R122, R123). -/

namespace Sys2Proof.Machine

/-- The hmac agent may answer with a digest: the key is not empty, or empty keys are accepted (R123). -/
def digestAllowed (k : List Byte) : Bool :=
  match k with
  | _ :: _ => true
  | [] => Config.emptyKeyPolicy == .accept

/-- The member of `Allowed(k, m)` (R123) a draw picks: CryptoError is always allowed, the digest only
where `digestAllowed` says so. -/
def hmacResponse (r : HmacReq) (draw : HmacDraw) : HmacResp :=
  match draw with
  | .cryptoError => .cryptoError
  | .digest => if digestAllowed r.key then .digest (hmacSha1 r.key r.msg) else .cryptoError

/-- The hmac agent's step (R122): `HmacAnswer(r)` when a request is outstanding; else it has no step and
its turn changes nothing. -/
def hmacStep (draw : HmacDraw) (s : State) : State :=
  match s.req with
  | none => s
  | some r => hmacAnswer (hmacResponse r draw) s

end Sys2Proof.Machine
end

