-- ==== Sys2Proof/Machine/Sequencer.lean ====
section
/-! DEFINITION. The core step (spec/45_control.md R183) and whose turn it is (R190). -/

namespace Sys2Proof.Machine

/-- The core has a step exactly when fsm = EXEC or fsm = RESP (R183). -/
def coreEnabled (s : State) : Bool := s.fsm == .exec || s.fsm == .resp

/-- The core's work in EXEC (R183): the latched word is decoded once, and an illegal one ends with
ILLEGAL_CMD (spec/30_encoding.md R87). -/
def executeLatched (s : State) : StepResult :=
  match decode s.cmd with
  | .ok i => exec i s
  | .error _ => raise .illegalCmd s

/-- The core's work in RESP (R183): only HOTP, TOTP and VERIFY have a response step. -/
def respondLatched (s : State) : StepResult :=
  match (opField s.cmd).toNat with
  | 0x6 => exec (.hotp (digField s.cmd)) s
  | 0x7 => exec (.totp (digField s.cmd)) s
  | 0x8 => exec .verify s
  | _ => .fault .noResponseStep

/-- `CoreStep` (R183); without an enabled step the core's turn changes nothing. DESIGN CHOICE: an abort
request ends every command with ABORTED (R181, R183, R187), an ABORT accepted from idle too, when the word
0x00000009 is written again before its core step; R186's 'never ends with ABORTED' then fails
(assumption 19). -/
def coreStep (s : State) : StepResult :=
  match s.fsm with
  | .idle => .next s
  | .wait => .next s
  | .exec => if s.abortReq then raise .aborted s else executeLatched s
  | .resp => if s.abortReq then raise .aborted s else respondLatched s

/-- The step of the agent whose turn it is. -/
def takeTurn (t : Turn) (s : State) : StepResult :=
  match t with
  | .host op => hostStep op s
  | .core => coreStep s
  | .hmac draw => .next (hmacStep draw s)

/-- The state after its next turn is taken off the schedule. -/
def afterTurn (rest : List Turn) (s : State) : State := { s with turns := rest }

/-- The state after a free draw of the hmac agent is used (assumption 3). -/
def useDraw (s : State) : State := { s with draws := s.draws + 1 }

/-- The step when the schedule names no agent: the core if it has a step, else the hmac agent if it has
one, with a free draw, else nothing (an idle block keeps its state, spec/60_exceptions.md R215). -/
def unscheduledStep (s : State) : StepResult :=
  if coreEnabled s then coreStep s
  else if s.req.isSome then .next (hmacStep (Config.hmacDraw s.draws) (useDraw s))
  else .next s

/-- One step of the machine: the next turn of the schedule. -/
def scheduledStep (s : State) : StepResult :=
  match s.turns with
  | [] => unscheduledStep s
  | t :: rest => takeTurn t (afterTurn rest s)

/-- The state in which the very next step is the core's execute step of the latched word w: as after
`Accept(w)` from idle (R180), with the core's turn first. -/
def latchWord (w : Word) (s : State) : State :=
  { s with
    cmd := w
    fsm := .exec
    done := false
    abortReq := false
    resp := none
    req := none
    turns := .core :: s.turns }

end Sys2Proof.Machine
end

