-- ==== Sys2Proof/Machine/Step.lean ====
section
/-! DEFINITION. The step of the machine, and the placing of an opcode-table word where the next step runs
it. -/

namespace Sys2Proof.Machine

/-- One step: one turn of one agent (spec/20_memory.md R70). -/
def step (s : State) : Host.Outcome State Fault Refusal := scheduledStep s

/-- `s` with the word w (bits above nbits zero) latched as the command the very next step executes: what
a host write to CMD of an idle block does (spec/45_control.md R180; assumption 6). -/
def State.withFetchWord (s : State) (nbits w : Nat) : State :=
  latchWord (BitVec.ofNat 32 (w % 2 ^ nbits)) s

end Sys2Proof.Machine
end

