-- ==== Sys2Proof/Safety.lean ====
section
/-! DEFINITION. The terms the claims are made in: the invariants of spec/10_state.md R51, what a step
leaves unchanged, which registers a command may write (R50), and the bit-string reading of a Base32
input (spec/40_base32.md R106). -/

namespace Sys2Proof.Safety

open Sys2Proof.Machine

/-- The commands that send an HMAC request (spec/45_control.md R183). -/
def sendsRequest : Instr → Bool
  | .hotp _ => true
  | .totp _ => true
  | .verify => true
  | .nop => false
  | .keyclr => false
  | .b32push _ => false
  | .keypush _ => false
  | .tctr => false
  | .trunc _ => false
  | .abort => false

/-- The commands with a digit count (spec/30_encoding.md R82). -/
def takesDigits : Instr → Bool
  | .trunc _ => true
  | .hotp _ => true
  | .totp _ => true
  | .nop => false
  | .keyclr => false
  | .b32push _ => false
  | .keypush _ => false
  | .tctr => false
  | .verify => false
  | .abort => false

/-- The word spells the command's row of the opcode map (spec/30_encoding.md R85). -/
abbrev Spells (w : Word) (i : Instr) : Prop :=
  w &&& tableMask i = tableMatch i ∧ (takesDigits i = true → w.extractLsb' 4 4 ≠ (0 : BitVec 4))

/-- The offset of an input register: CTR, NOW, CAND_LEN, CAND, H (spec/45_control.md R182). -/
def inputOffset (off : Nat) : Bool :=
  (0x020 ≤ off && off ≤ 0x02C) || (0x040 ≤ off && off ≤ 0x050) || (0x064 ≤ off && off ≤ 0x074)

/-- The value the host would read at a word-aligned offset. -/
def readOffset (off : Nat) (s : State) : Word := readReg (regAt off) s

/-- Every piece of the block's state has the value the reset event loads
(spec/70_reset_and_hazards.md R220). -/
abbrev IsReset (t : State) : Prop :=
  t.done = false ∧ t.valid = false ∧ t.matchIdx = 0 ∧ t.kovf = false ∧ t.ovr = false ∧ t.err = .none ∧
    t.ie = false ∧ t.keyLen = 0 ∧ t.key = List.replicate t.params.keyMax 0 ∧ t.acc = 0 ∧ t.bitcnt = 0 ∧
    t.digits = 0 ∧ t.ctrLo = 0 ∧ t.ctrHi = 0 ∧ t.nowLo = 0 ∧ t.nowHi = 0 ∧ t.remain = 0 ∧ t.offs = 0 ∧
    t.pval = 0 ∧ t.codeNum = 0 ∧ t.candLen = 0 ∧ t.cand = Vector.replicate 16 0 ∧
    t.code = Vector.replicate 16 0 ∧ t.h = Vector.replicate 20 0 ∧ t.fsm = .idle ∧ t.cmd = 0 ∧
    t.abortReq = false ∧ t.wctr = 0 ∧ t.vbase = 0 ∧ t.vidx = 0 ∧ t.tcRem = 0 ∧ t.resp = none ∧
    t.req = none ∧ irq t = false

/-- A request is outstanding or being processed. -/
abbrev InFlight (s : State) : Prop := s.fsm = .wait ∨ s.fsm = .resp

/-- The invariants of R51, by clause, with the build parameters legal (spec/00_scope.md R6), the size of
the key buffer (R33), and the two facts about a request in flight that clauses 8 and 11 rest on. Clause 1
is true by definition (BUSY is not stored, R25). -/
structure Inv (s : State) : Prop where
  /-- R6. -/
  paramsLegal : s.params.Legal
  /-- Clause 2. -/
  reqWait : s.req.isSome = true ↔ s.fsm = .wait
  /-- Clause 3. -/
  respResp : s.resp.isSome = true ↔ s.fsm = .resp
  /-- Clause 4. -/
  abortBusy : s.abortReq = true → s.fsm ≠ .idle
  /-- R33: the buffer holds KEY_MAX bytes. -/
  keySize : s.key.length = s.params.keyMax
  /-- Clause 5, the bound. -/
  keyLenMax : s.keyLen ≤ s.params.keyMax
  /-- Clause 5, the bytes past the key. -/
  keyTail : ∀ i, s.keyLen ≤ i → i < s.params.keyMax → s.key.getD i 0 = 0
  /-- Clause 6 (BITCNT has 3 bits). -/
  accPending : s.acc.toNat < 2 ^ s.bitcnt.toNat
  /-- Clause 7. -/
  kovfFull : s.kovf = true → s.keyLen = s.params.keyMax
  /-- Clause 8, a code is committed (OFFS has 4 bits and PVAL 31). -/
  codeNumber : s.digits ≠ 0 → s.codeNum.toNat = s.pval.toNat % 10 ^ s.digits.toNat
  /-- Clause 8, no code is committed. -/
  noCode : s.digits = 0 →
    s.offs = 0 ∧ s.pval = 0 ∧ s.codeNum = 0 ∧ ∀ i : Fin 16, s.code[i] = 0
  /-- Clause 9, the characters. -/
  codeChars : ∀ i : Fin 16, i.val < s.digits.toNat →
    0x30 ≤ s.code[i].toNat ∧ s.code[i].toNat ≤ 0x39
  /-- Clause 9, the bytes past the code. -/
  codeTail : ∀ i : Fin 16, s.digits.toNat ≤ i.val → s.code[i] = 0
  /-- Clause 10. -/
  verdict : s.valid = true ↔ s.matchIdx ≠ 0
  /-- Clause 11. -/
  remainRange : s.remain = 0 ∨ (1 ≤ s.remain.toNat ∧ s.remain.toNat ≤ s.params.stepS.toNat)
  /-- Only HOTP, TOTP and VERIFY reach WAIT and RESP (spec/45_control.md R183). -/
  inFlightCmd : InFlight s → ∃ i, decode s.cmd = .ok i ∧ sendsRequest i = true
  /-- The remaining seconds a TOTP will commit are in range (spec/43_totp.md R151, R154). -/
  inFlightRemain : InFlight s → opField s.cmd = 0x7 →
    1 ≤ s.tcRem.toNat ∧ s.tcRem.toNat ≤ s.params.stepS.toNat

/-- The input registers, the interrupt enable, OVR, the latched word, and the model's own fields, which no
command writes (R50). -/
abbrev SameInputs (s t : State) : Prop :=
  t.params = s.params ∧ t.nowLo = s.nowLo ∧ t.nowHi = s.nowHi ∧ t.candLen = s.candLen ∧
    t.cand = s.cand ∧ t.ie = s.ie ∧ t.ovr = s.ovr ∧ t.cmd = s.cmd ∧ t.turns = s.turns ∧
    t.hostRead = s.hostRead ∧ t.draws = s.draws

/-- The key buffer, the packer and KOVF. -/
abbrev SameKey (s t : State) : Prop :=
  t.key = s.key ∧ t.keyLen = s.keyLen ∧ t.acc = s.acc ∧ t.bitcnt = s.bitcnt ∧ t.kovf = s.kovf

/-- CTR and REMAIN. -/
abbrev SameTime (s t : State) : Prop :=
  t.ctrLo = s.ctrLo ∧ t.ctrHi = s.ctrHi ∧ t.remain = s.remain

/-- H. -/
abbrev SameDigest (s t : State) : Prop := t.h = s.h

/-- OFFS, PVAL, CODE_NUM, CODE and DIGITS. -/
abbrev SameCode (s t : State) : Prop :=
  t.offs = s.offs ∧ t.pval = s.pval ∧ t.codeNum = s.codeNum ∧ t.code = s.code ∧ t.digits = s.digits

/-- VALID and MATCH. -/
abbrev SameVerdict (s t : State) : Prop := t.valid = s.valid ∧ t.matchIdx = s.matchIdx

/-- DONE and ERR. -/
abbrev SameDone (s t : State) : Prop := t.done = s.done ∧ t.err = s.err

/-- wctr, vidx, vbase and tc_rem. -/
abbrev SameHidden (s t : State) : Prop :=
  t.wctr = s.wctr ∧ t.vidx = s.vidx ∧ t.vbase = s.vbase ∧ t.tcRem = s.tcRem

/-- The command ended with the code `e` (spec/45_control.md R184). -/
abbrev Ended (e : ErrCode) (t : State) : Prop :=
  t.fsm = .idle ∧ t.done = true ∧ t.err = e ∧ t.abortReq = false ∧ t.resp = none

/-- A request for the counter c is on the port and the command waits for its answer
(spec/41_hmac_port.md R120, R121). -/
abbrev Requested (c : DWord) (s t : State) : Prop :=
  t.fsm = .wait ∧ t.req = some { key := s.key.take s.keyLen, msg := be64 c } ∧ t.wctr = c ∧
    t.abortReq = s.abortReq

/-- The registers of the window a command may write, STATUS aside: the table of R50. -/
def mayWrite : Instr → Reg → Bool
  | .nop, _ => false
  | .abort, _ => false
  | .verify, _ => false
  | .keyclr, r => match r with | .keyLen | .b32State | .keyw _ => true | _ => false
  | .b32push _, r => match r with | .keyLen | .b32State | .keyw _ => true | _ => false
  | .keypush _, r => match r with | .keyLen | .b32State | .keyw _ => true | _ => false
  | .tctr, r => match r with | .ctrLo | .ctrHi | .remain => true | _ => false
  | .trunc _, r => match r with | .offs | .pval | .codeNum | .code _ | .digits => true | _ => false
  | .hotp _, r =>
    match r with | .h _ | .offs | .pval | .codeNum | .code _ | .digits => true | _ => false
  | .totp _, r =>
    match r with
    | .ctrLo | .ctrHi | .remain | .h _ | .offs | .pval | .codeNum | .code _ | .digits => true
    | _ => false

/-- The 31-bit value of RFC 4226 truncation, in arithmetic (spec/42_hotp.md R131). -/
def truncNat (h : Digest) (o : Nat) : Nat :=
  ((h[o]?.getD 0).toNat % 128) * 2 ^ 24 + (h[o + 1]?.getD 0).toNat * 2 ^ 16 +
    (h[o + 2]?.getD 0).toNat * 2 ^ 8 + (h[o + 3]?.getD 0).toNat

/-- The number a string of ASCII digits spells. -/
def decimalValue (str : List Byte) : Nat := str.foldl (fun n c => 10 * n + (c.toNat - 0x30)) 0

/-- OFFS, PVAL, CODE_NUM, CODE and DIGITS hold the d-digit code of the digest h (spec/42_hotp.md R131 to
R133, R136), in arithmetic: the characters spell CODE_NUM, most significant first, then zero bytes. -/
abbrev HoldsCode (h : Digest) (d : BitVec 4) (t : State) : Prop :=
  t.offs.toNat = h[19].toNat % 16 ∧ t.pval.toNat = truncNat h (h[19].toNat % 16) ∧
    t.codeNum.toNat = t.pval.toNat % 10 ^ d.toNat ∧ t.digits = d ∧
    (∀ i : Fin 16, i.val < d.toNat →
      t.code[i].toNat = 0x30 + t.codeNum.toNat / 10 ^ (d.toNat - 1 - i.val) % 10) ∧
    (∀ i : Fin 16, d.toNat ≤ i.val → t.code[i] = 0)

/-- The 6-digit code string of the counter c under the key k (spec/44_verify.md R170). -/
def windowCode (k : List Byte) (c : Nat) : List Byte :=
  codeString (hmacSha1 k (be64 (BitVec.ofNat 64 c))) 6

/-- The candidate is the string `str` (spec/44_verify.md R166). -/
abbrev IsCandidate (s : State) (str : List Byte) : Prop :=
  s.candLen = 6 ∧ s.cand.toList.take 6 = str

/-- The B32PUSH commands of a string, one after another, from a given state: none as soon as one of them
does not end with ERR = NONE (R106). -/
def pushAll : List Byte → State → Option State
  | [], s => some s
  | ch :: rest, s =>
    match exec (.b32push ch) s with
    | .next t => if t.err = .none then pushAll rest t else none
    | .fault _ => none
    | .refused _ => none

/-- The five bits of an index, most significant first. -/
def indexBits (v : BitVec 5) : List Bool :=
  [v.getLsbD 4, v.getLsbD 3, v.getLsbD 2, v.getLsbD 1, v.getLsbD 0]

/-- The bit string S of R106: the indices of the characters that have one, in order. -/
def inputBits (str : List Byte) : List Bool := (str.filterMap b32Index).flatMap indexBits

/-- A bit string read most significant bit first. -/
def bitsValue (bits : List Bool) : Nat := bits.foldl (fun n b => 2 * n + b.toNat) 0

/-- The Base32 alphabet of spec/40_base32.md, in ASCII. -/
def alphabet : List Byte :=
  [0x41, 0x42, 0x43, 0x44, 0x45, 0x46, 0x47, 0x48, 0x49, 0x4A, 0x4B, 0x4C, 0x4D, 0x4E, 0x4F, 0x50,
    0x51, 0x52, 0x53, 0x54, 0x55, 0x56, 0x57, 0x58, 0x59, 0x5A] ++
  [0x32, 0x33, 0x34, 0x35, 0x36, 0x37]

/-- ASCII upper case (spec/40_base32.md R100, decision D8). -/
def upperCase (ch : Byte) : Byte := if 0x61 ≤ ch ∧ ch ≤ 0x7A then ch - 0x20 else ch

end Sys2Proof.Safety
end

