-- ==== Sys2Proof/Certificates/Slice0/Obligations.lean ====
section
/-! DEFINITION. The statements for the provers. Every docstring names the rules of spec/ it formalises; where a
statement speaks of a turn of the schedule, the schedule is the model's way of saying which agent moves
(assumption 5). -/

open Sys2Proof Sys2Proof.Machine Sys2Proof.Safety

/-! ## The command word -/

/-- Every legal command is read back from its own word, operands included (R85, R92). -/
def Obligations.DecodeEncodeRoundTrip : Prop :=
  ∀ i : Instr, i.WellFormed → decode (encode i) = .ok i

/-- R89: each of the 2^32 words is one of the ten commands with its field values, or is illegal. -/
def Obligations.DecodeIsTotal : Prop :=
  ∀ w : Word,
    (∃ i : Instr, i.WellFormed ∧ decode w = .ok i ∧ encode i = w ∧ legal w = true) ∨
      ((∃ e, decode w = .error e) ∧ legal w = false)

/-- R86: Legal(w) is true exactly when w spells a command of R85's table; no word spells two. -/
def Obligations.LegalWordsSpellOneCommand : Prop :=
  (∀ w : Word, legal w = true ↔ ∃ i : Instr, Spells w i) ∧
    ∀ (w : Word) (i j : Instr), Spells w i → Spells w j → tableMatch i = tableMatch j

/-- A few words of R92's table and of the spec's illegal examples, written out. -/
def Obligations.SampleWordsDecode : Prop :=
  decode 0x00000000 = .ok .nop ∧ decode 0x00000001 = .ok .keyclr ∧
    decode 0x00004D02 = .ok (.b32push 0x4D) ∧ decode 0x0000FF03 = .ok (.keypush 0xFF) ∧
    decode 0x00000004 = .ok .tctr ∧ decode 0x000000F5 = .ok (.trunc 15) ∧
    decode 0x00000066 = .ok (.hotp 6) ∧ decode 0x00000087 = .ok (.totp 8) ∧
    decode 0x00000008 = .ok .verify ∧ decode 0x00000009 = .ok .abort ∧
    decode 0x00000010 = .error .unusedDigits ∧ decode 0x00000165 = .error .unusedData ∧
    decode 0x00000006 = .error .zeroDigits ∧ decode 0x0000000A = .error .reservedOp ∧
    decode 0x80000004 = .error .reservedBits

/-! ## Steps -/

/-- With no abort requested, a core step is exec of the command the latched word decodes to: in EXEC for
every command, in RESP for those that sent a request (R183). It is so when the schedule gives the core the
turn and when it names no agent (assumption 5). -/
def Obligations.StepRunsDecodedCommand : Prop :=
  ∀ (s : State) (i : Instr), s.fsm = .exec ∨ (s.fsm = .resp ∧ sendsRequest i = true) →
    s.abortReq = false → decode s.cmd = .ok i →
    (∀ rest, s.turns = .core :: rest → step s = exec i (afterTurn rest s)) ∧
      (s.turns = [] → step s = exec i s)

/-- An illegal word does nothing but finish(ILLEGAL_CMD), which for OP = 0x8 also clears VALID and MATCH
(R87). -/
def Obligations.IllegalWordOnlyFinishes : Prop :=
  ∀ (s : State) (rest : List Turn), s.fsm = .exec → s.abortReq = false → legal s.cmd = false →
    s.turns = .core :: rest →
    ∃ t, step s = .next t ∧ Ended .illegalCmd t ∧ SameInputs (afterTurn rest s) t ∧ SameKey s t ∧
      SameTime s t ∧ SameDigest s t ∧ SameCode s t ∧ SameHidden s t ∧ t.req = s.req ∧
      (s.cmd.extractLsb' 0 4 = (0x8 : BitVec 4) → t.valid = false ∧ t.matchIdx = 0) ∧
      (s.cmd.extractLsb' 0 4 ≠ (0x8 : BitVec 4) → SameVerdict s t)

/-- An abort request ends the command at the core's next step with ERR = ABORTED, whatever else holds, and
commits nothing; a held answer is discarded; for VERIFY the verdict is cleared (R187, R205). It is so for
an ABORT accepted from idle too, of which R186 says that it never ends so (the model's choice,
assumption 19). -/
def Obligations.AbortRequestEndsCommand : Prop :=
  ∀ (s : State) (rest : List Turn), s.fsm = .exec ∨ s.fsm = .resp → s.abortReq = true →
    s.turns = .core :: rest →
    ∃ t, step s = .next t ∧ Ended .aborted t ∧ SameInputs (afterTurn rest s) t ∧ SameKey s t ∧
      SameTime s t ∧ SameDigest s t ∧ SameCode s t ∧ SameHidden s t ∧ t.req = s.req ∧
      (s.cmd.extractLsb' 0 4 = (0x8 : BitVec 4) → t.valid = false ∧ t.matchIdx = 0) ∧
      (s.cmd.extractLsb' 0 4 ≠ (0x8 : BitVec 4) → SameVerdict s t)

/-- The core has no step in IDLE or WAIT (R183) and the hmac agent none without a request (R122): such a
turn passes and changes nothing (that it passes is the model's choice, assumption 5). -/
def Obligations.TurnWithoutStepPasses : Prop :=
  ∀ (s : State) (rest : List Turn),
    (s.fsm = .idle ∨ s.fsm = .wait → s.turns = .core :: rest → step s = .next (afterTurn rest s)) ∧
      ∀ draw, s.req = none → s.turns = .hmac draw :: rest → step s = .next (afterTurn rest s)

/-! ## The host -/

/-- R180: an idle block accepts any word; STATUS then reads BUSY = 1 and DONE = 0, and nothing else has
changed. -/
def Obligations.IdleBlockAcceptsCommand : Prop :=
  ∀ (s : State) (rest : List Turn) (w : Word), s.fsm = .idle →
    s.turns = .host (.wr 4 0x004 w) :: rest →
    ∃ t, step s = .next t ∧ t = { s with turns := rest, cmd := w, fsm := .exec, done := false } ∧
      (readOffset 0x008 t).getLsbD 0 = true ∧ (readOffset 0x008 t).getLsbD 1 = false

/-- R181: while busy, the exact word 0x00000009 requests an abort and any other word is dropped with
OVR; the command in progress is not changed. -/
def Obligations.BusyCommandWrite : Prop :=
  ∀ (s : State) (rest : List Turn) (w : Word), s.fsm ≠ .idle →
    s.turns = .host (.wr 4 0x004 w) :: rest →
    step s = .next (if w = 0x00000009 then { s with turns := rest, abortReq := true }
      else { s with turns := rest, ovr := true })

/-- R182: a write to an input register while busy is dropped with OVR; STATUS and IRQ_EN writes act whether
busy or not; every other write but CMD's is ignored whether busy or not. -/
def Obligations.HostWritesObeyBusy : Prop :=
  ∀ (s : State) (rest : List Turn) (off : Nat) (v : Word), off % 4 = 0 → off ≤ 0xFFC →
    s.turns = .host (.wr 4 off v) :: rest →
    (inputOffset off = true → s.fsm ≠ .idle → step s = .next { s with turns := rest, ovr := true }) ∧
      (off = 0x008 → step s = .next
        { s with turns := rest, done := s.done && !v.getLsbD 1, ovr := s.ovr && !v.getLsbD 6 }) ∧
      (off = 0x00C → step s = .next { s with turns := rest, ie := v.getLsbD 0 }) ∧
      (inputOffset off = false → off ≠ 0x004 → off ≠ 0x008 → off ≠ 0x00C →
        step s = .next { s with turns := rest })

/-- While idle, a write to an input register is stored: it reads back at once, and every other offset
reads as before (R64, R67, R68, R234). -/
def Obligations.IdleInputWriteReadsBack : Prop :=
  ∀ (s : State) (rest : List Turn) (off : Nat) (v : Word), s.fsm = .idle → off % 4 = 0 →
    inputOffset off = true → s.turns = .host (.wr 4 off v) :: rest →
    ∃ t, step s = .next t ∧ readOffset off t = v ∧
      (∀ other, other % 4 = 0 → other ≤ 0xFFC → other ≠ off → readOffset other t = readOffset other s) ∧
      t.fsm = s.fsm ∧ t.cmd = s.cmd ∧ t.abortReq = s.abortReq ∧ t.resp = s.resp ∧ t.req = s.req ∧
      SameKey s t ∧ SameHidden s t

/-- R24: the fields of STATUS as it reads, ERR by the numbers R200 gives its codes, and a host write to it:
bit 1 clears DONE, bit 6 clears OVR, nothing else changes, busy or not. -/
def Obligations.StatusRegister : Prop :=
  (∀ s : State,
    (readOffset 0x008 s).getLsbD 0 = decide (s.fsm ≠ .idle) ∧
      (readOffset 0x008 s).getLsbD 1 = s.done ∧ (readOffset 0x008 s).getLsbD 2 = s.valid ∧
      (readOffset 0x008 s).extractLsb' 3 2 = s.matchIdx ∧ (readOffset 0x008 s).getLsbD 5 = s.kovf ∧
      (readOffset 0x008 s).getLsbD 6 = s.ovr ∧ (readOffset 0x008 s).getLsbD 7 = false ∧
      (readOffset 0x008 s).extractLsb' 8 4 = errNumber s.err ∧
      errNumber .none = 0 ∧ errNumber .invalidSecret = 1 ∧ errNumber .cryptoError = 2 ∧
      errNumber .illegalCmd = 3 ∧ errNumber .keyOverflow = 4 ∧ errNumber .aborted = 5 ∧
      (readOffset 0x008 s).extractLsb' 12 20 = 0) ∧
    readOffset 0x008 State.reset = 0 ∧
    ∀ (s : State) (rest : List Turn) (v : Word), s.turns = .host (.wr 4 0x008 v) :: rest →
      step s = .next { s with
        turns := rest
        done := if v.getLsbD 1 then false else s.done
        ovr := if v.getLsbD 6 then false else s.ovr }

/-- R31: IRQ_EN holds IE in bit 0, the other bits read 0, a write stores bit 0 at any time, busy or not,
and it resets to 0. -/
def Obligations.InterruptEnable : Prop :=
  readOffset 0x00C State.reset = 0 ∧
    ∀ (s : State) (rest : List Turn) (v : Word), s.turns = .host (.wr 4 0x00C v) :: rest →
      step s = .next { s with turns := rest, ie := v.getLsbD 0 } ∧
        readOffset 0x00C { s with turns := rest, ie := v.getLsbD 0 } = v &&& 1

/-- R206: IRQ = IE & DONE; it rises at every finish if IE = 1, or when the host sets IE while DONE = 1, and
falls when the host clears DONE or IE, when a command is accepted, and at reset. -/
def Obligations.InterruptLine : Prop :=
  (∀ s : State, irq s = true ↔ s.ie = true ∧ s.done = true) ∧
    (∀ (e : ErrCode) (s : State), irq (finish e s) = s.ie) ∧
    (∀ (v : Word) (s : State), irq (setIe v s) = (v.getLsbD 0 && s.done)) ∧
    (∀ (v : Word) (s : State), irq (clearStatus v s) = (irq s && !v.getLsbD 1)) ∧
    (∀ (w : Word) (s : State), irq (accept w s) = false) ∧ ∀ s : State, irq (resetEvent s) = false

/-- R62: an access of a width other than 4, at an offset that is no multiple of 4, or above 0xFFF, is a
BusError that stops the model. -/
def Obligations.InadmissibleAccessFaults : Prop :=
  ∀ (s : State) (rest : List Turn) (width off : Nat) (v : Word),
    width ≠ 4 ∨ off % 4 ≠ 0 ∨ 0xFFF < off →
    (s.turns = .host (.rd width off) :: rest → step s = .fault (.busError .read width off)) ∧
      (s.turns = .host (.wr width off v) :: rest → step s = .fault (.busError .write width off))

/-- R63: a read at an admitted offset gives the host the register's value and changes nothing in the
block; CMD reads 0. -/
def Obligations.ReadsChangeNothing : Prop :=
  ∀ (s : State) (rest : List Turn) (off : Nat), off % 4 = 0 → off ≤ 0xFFC →
    s.turns = .host (.rd 4 off) :: rest →
    step s = .next { s with turns := rest, hostRead := some (readOffset off s) } ∧
      (off = 0x004 → readOffset off s = 0)

/-- The register map (spec/10_state.md section 2) from 0x000 to 0x03C: what the host reads there, but for
STATUS and IRQ_EN, which have statements of their own. -/
def Obligations.RegisterMapReads : Prop :=
  ∀ s : State,
    readOffset 0x000 s = 0x4F545043 ∧ readOffset 0x004 s = 0 ∧
    (s.keyLen ≤ 256 → (readOffset 0x010 s).toNat = s.keyLen) ∧
    (readOffset 0x014 s).toNat = s.acc.toNat + 256 * s.bitcnt.toNat ∧
    readOffset 0x018 s = s.params.stepS ∧ (readOffset 0x01C s).toNat = s.digits.toNat ∧
    readOffset 0x020 s = s.ctrLo ∧ readOffset 0x024 s = s.ctrHi ∧
    readOffset 0x028 s = s.nowLo ∧ readOffset 0x02C s = s.nowHi ∧
    readOffset 0x030 s = s.remain ∧ (readOffset 0x034 s).toNat = s.offs.toNat ∧
    (readOffset 0x038 s).toNat = s.pval.toNat ∧ readOffset 0x03C s = s.codeNum

/-- The register map (spec/10_state.md section 2) from 0x040 on: what the host reads of CAND_LEN and of the
four byte buffers, byte 4k of each in the high bits of word k (R67), KEY[i] for i below KEY_MAX and 0 at
and above it, nothing of KEY without read-back (R33), and 0 at every reserved or unmapped offset (R48). -/
def Obligations.BufferReads : Prop :=
  ∀ s : State,
    readOffset 0x040 s = s.candLen ∧
    (∀ k (_ : k < 4), readOffset (0x044 + 4 * k) s =
      s.cand[4 * k] ++ s.cand[4 * k + 1] ++ s.cand[4 * k + 2] ++ s.cand[4 * k + 3]) ∧
    (∀ k (_ : k < 4), readOffset (0x054 + 4 * k) s =
      s.code[4 * k] ++ s.code[4 * k + 1] ++ s.code[4 * k + 2] ++ s.code[4 * k + 3]) ∧
    (∀ k (_ : k < 5), readOffset (0x064 + 4 * k) s =
      s.h[4 * k] ++ s.h[4 * k + 1] ++ s.h[4 * k + 2] ++ s.h[4 * k + 3]) ∧
    (∀ k < 64, ∀ j < 4, (readOffset (0x100 + 4 * k) s).extractLsb' (8 * (3 - j)) 8 =
      if s.params.keyReadback = true ∧ 4 * k + j < s.params.keyMax then s.key.getD (4 * k + j) 0
      else (0 : Byte)) ∧
    ∀ off, (0x078 ≤ off ∧ off ≤ 0x0FC) ∨ 0x200 ≤ off → readOffset off s = 0

/-- R220: the reset event gives every piece of the block's state its reset value, whatever the state was,
and the machine starts there; after it ID reads its constant and STEP the step. -/
def Obligations.ResetLoadsEveryValue : Prop :=
  (∀ (s : State) (rest : List Turn), s.turns = .host .rst :: rest →
    ∃ t, step s = .next t ∧ IsReset t ∧ t.params = s.params ∧ readOffset 0x000 t = 0x4F545043 ∧
      readOffset 0x018 t = s.params.stepS) ∧
    IsReset State.reset ∧ readOffset 0x000 State.reset = 0x4F545043 ∧
    readOffset 0x018 State.reset = 30

/-- R35: STEP reads the build parameter STEP_S, 30 for this hardware, and neither reset, a command nor the
host changes it, nor any other build parameter. -/
def Obligations.StepRegisterIsConstant : Prop :=
  State.reset.params.stepS = 30 ∧ (∀ s : State, readOffset 0x018 s = s.params.stepS) ∧
    ∀ s t : State, step s = .next t → t.params = s.params

/-! ## NOP, ABORT, and key loading -/

/-- NOP and ABORT accepted from idle end with ERR = NONE and change nothing else (R185, R186). -/
def Obligations.NopAndAbortDoNothing : Prop :=
  ∀ (s : State) (i : Instr), i = .nop ∨ i = .abort →
    ∃ t, exec i s = .next t ∧ Ended .none t ∧ SameInputs s t ∧ SameKey s t ∧ SameTime s t ∧
      SameDigest s t ∧ SameCode s t ∧ SameVerdict s t ∧ SameHidden s t ∧ t.req = s.req

/-- KEYCLR empties the key buffer and the packer and clears KOVF (R103). -/
def Obligations.KeyclrEmptiesKey : Prop :=
  ∀ s : State,
    ∃ t, exec .keyclr s = .next t ∧ Ended .none t ∧ t.keyLen = 0 ∧ t.acc = 0 ∧ t.bitcnt = 0 ∧
      t.kovf = false ∧ t.key.length = s.params.keyMax ∧ (∀ i, t.key.getD i 0 = 0) ∧ SameInputs s t ∧
      SameTime s t ∧ SameDigest s t ∧ SameCode s t ∧ SameVerdict s t ∧ SameHidden s t ∧ t.req = s.req

/-- R100: a byte's index is the position of its upper case in the alphabet; a byte that is not in the
alphabet has none. -/
def Obligations.IndexIsAlphabetPosition : Prop :=
  ∀ (ch : Byte) (v : BitVec 5), b32Index ch = some v ↔ alphabet[v.toNat]? = some (upperCase ch)

/-- R101: Pack appends the index to the pending bits, most significant bit first, and emits the oldest 8
bits once there are 8; BITCNT' = (BITCNT + 5) mod 8 and ACC' < 2^BITCNT' (for the pending bits R34
allows, ACC < 2^BITCNT). -/
def Obligations.PackAppendsIndex : Prop :=
  ∀ (acc : BitVec 7) (bitcnt : BitVec 3) (v : BitVec 5), acc.toNat < 2 ^ bitcnt.toNat →
    (pack acc bitcnt v).bitcnt.toNat = (bitcnt.toNat + 5) % 8 ∧
      (pack acc bitcnt v).acc.toNat < 2 ^ (pack acc bitcnt v).bitcnt.toNat ∧
      (8 ≤ bitcnt.toNat + 5 →
        (∃ e, (pack acc bitcnt v).emitted = some e ∧
          e.toNat = (acc.toNat * 32 + v.toNat) / 2 ^ (bitcnt.toNat - 3)) ∧
        (pack acc bitcnt v).acc.toNat = (acc.toNat * 32 + v.toNat) % 2 ^ (bitcnt.toNat - 3)) ∧
      (bitcnt.toNat + 5 < 8 →
        (pack acc bitcnt v).emitted = none ∧
          (pack acc bitcnt v).acc.toNat = acc.toNat * 32 + v.toNat)

/-- B32PUSH of a character that is discarded, while KOVF = 0, ends with ERR = NONE and changes nothing
else, even when the buffer is full (R104). -/
def Obligations.B32pushDiscards : Prop :=
  ∀ (s : State) (ch : Byte), s.kovf = false → b32Index ch = none →
    ∃ t, exec (.b32push ch) s = .next t ∧ Ended .none t ∧ SameInputs s t ∧ SameKey s t ∧
      SameTime s t ∧ SameDigest s t ∧ SameCode s t ∧ SameVerdict s t ∧ SameHidden s t ∧ t.req = s.req

/-- B32PUSH of an alphabet character updates the packer and stores the byte it completes, if any, at
KEY[KEY_LEN] (R104, R102). -/
def Obligations.B32pushPacks : Prop :=
  ∀ (s : State) (ch : Byte) (v : BitVec 5), s.kovf = false → b32Index ch = some v →
    (pack s.acc s.bitcnt v).emitted = none ∨ s.keyLen ≠ s.params.keyMax →
    ∃ t, exec (.b32push ch) s = .next t ∧ Ended .none t ∧ t.acc = (pack s.acc s.bitcnt v).acc ∧
      t.bitcnt = (pack s.acc s.bitcnt v).bitcnt ∧ t.kovf = false ∧
      ((pack s.acc s.bitcnt v).emitted = none → t.key = s.key ∧ t.keyLen = s.keyLen) ∧
      (∀ e, (pack s.acc s.bitcnt v).emitted = some e →
        t.keyLen = s.keyLen + 1 ∧ t.key.length = s.key.length ∧
        (s.keyLen < s.key.length → t.key.getD s.keyLen 0 = e) ∧
        ∀ j, j ≠ s.keyLen → t.key.getD j 0 = s.key.getD j 0) ∧
      SameInputs s t ∧ SameTime s t ∧ SameDigest s t ∧ SameCode s t ∧ SameVerdict s t ∧
      SameHidden s t ∧ t.req = s.req

/-- A byte that would be stored into a full buffer sets KOVF and ends the command with KEY_OVERFLOW; the
packer and the key keep their values (R102, R104, R105). -/
def Obligations.FullBufferOverflows : Prop :=
  ∀ (s : State) (i : Instr), s.kovf = false → s.keyLen = s.params.keyMax → s.cmd = encode i →
    (∃ b, i = .keypush b) ∨
      (∃ ch v e, i = .b32push ch ∧ b32Index ch = some v ∧ (pack s.acc s.bitcnt v).emitted = some e) →
    ∃ t, exec i s = .next t ∧ Ended .keyOverflow t ∧ t.kovf = true ∧ t.key = s.key ∧
      t.keyLen = s.keyLen ∧ t.acc = s.acc ∧ t.bitcnt = s.bitcnt ∧ SameInputs s t ∧ SameTime s t ∧
      SameDigest s t ∧ SameCode s t ∧ SameVerdict s t ∧ SameHidden s t ∧ t.req = s.req

/-- KEYPUSH appends a raw byte and drops the pending Base32 bits (R105). -/
def Obligations.KeypushAppends : Prop :=
  ∀ (s : State) (b : Byte), s.kovf = false → s.keyLen ≠ s.params.keyMax →
    ∃ t, exec (.keypush b) s = .next t ∧ Ended .none t ∧ t.keyLen = s.keyLen + 1 ∧
      t.key.length = s.key.length ∧ (s.keyLen < s.key.length → t.key.getD s.keyLen 0 = b) ∧
      (∀ j, j ≠ s.keyLen → t.key.getD j 0 = s.key.getD j 0) ∧ t.acc = 0 ∧ t.bitcnt = 0 ∧
      t.kovf = false ∧ SameInputs s t ∧ SameTime s t ∧ SameDigest s t ∧ SameCode s t ∧
      SameVerdict s t ∧ SameHidden s t ∧ t.req = s.req

/-- While KOVF = 1, B32PUSH, KEYPUSH and the execute steps of HOTP, TOTP and VERIFY end with KEY_OVERFLOW
and change nothing but what finish writes, which for VERIFY clears VALID and MATCH (R28, C7). -/
def Obligations.KovfRefusesKeyCommands : Prop :=
  ∀ (s : State) (i : Instr), s.kovf = true → s.cmd = encode i → i.WellFormed →
    (∃ x, i = .b32push x) ∨ (∃ x, i = .keypush x) ∨ (sendsRequest i = true ∧ s.fsm ≠ .resp) →
    ∃ t, exec i s = .next t ∧ Ended .keyOverflow t ∧ SameInputs s t ∧ SameKey s t ∧ SameTime s t ∧
      SameDigest s t ∧ SameCode s t ∧ SameHidden s t ∧ t.req = s.req ∧
      (i = .verify → t.valid = false ∧ t.matchIdx = 0) ∧ (i ≠ .verify → SameVerdict s t)

/-- R106, which the spec marks as its own inference: KEYCLR and then a B32PUSH of every character decodes the
string, when none of them overflows. -/
def Obligations.PushedStringDecodes : Prop :=
  ∀ (s cleared t : State) (str : List Byte), exec .keyclr s = .next cleared →
    pushAll str cleared = some t →
    t.keyLen = (inputBits str).length / 8 ∧
      (inputBits str).length = 5 * (str.filterMap b32Index).length ∧
      (∀ j, j < t.keyLen →
        (t.key.getD j 0).toNat = bitsValue (((inputBits str).drop (8 * j)).take 8)) ∧
      t.bitcnt.toNat = (inputBits str).length % 8 ∧
      t.acc.toNat = bitsValue ((inputBits str).drop (8 * t.keyLen))

/-! ## Time -/

/-- R150: the counter is floor(floor(NOW / 1000) / S); it fits 64 bits and adding 1 does not wrap. R150's
inferred bound 2^54 holds for S ≥ 2 (STEP_S = 30 among them); for S = 1 the bound is 2^55 (assumption 17). -/
def Obligations.TimeCounterFits : Prop :=
  ∀ s : State, s.params.Legal →
    (nowCounter s).toNat = (now s).toNat / 1000 / s.params.stepS.toNat ∧
      (nowCounter s).toNat < 2 ^ 55 ∧ (2 ≤ s.params.stepS.toNat → (nowCounter s).toNat < 2 ^ 54) ∧
      (nowCounter s + 1).toNat = (nowCounter s).toNat + 1

/-- The bound R150 infers, for every legal S: it FAILS at S = 1 and a NOW near 2^64, where
floor(NOW / 1000) is 18446744073709551, above 2^54 = 18014398509481984. -/
def Obligations.InferredCounterBound : Prop :=
  ∀ t S : Nat, t < 2 ^ 64 → 1 ≤ S → timeCounter t S < 2 ^ 54

/-- R151's formula, with the closed form and the boundaries that R151 and R152 mark as the spec's own
inferences: the remaining seconds are max(0, ceil((periodEndMillis - NOW) / 1000)), which is
S - (floor(NOW / 1000) mod S): S exactly in the first second of a step, 1 exactly in its last. -/
def Obligations.RemainingClosedForm : Prop :=
  ∀ t S : Nat, 1 ≤ S →
    (remaining t S : Int) =
        max 0 (-(((t : Int) - (((t / 1000 / S + 1) * S * 1000 : Nat) : Int)) / 1000)) ∧
      remaining t S = S - t / 1000 % S ∧ 1 ≤ remaining t S ∧ remaining t S ≤ S ∧
      (remaining t S = S ↔ t / 1000 % S = 0) ∧ (remaining t S = 1 ↔ t / 1000 % S = S - 1)

/-- TCTR writes the counter of NOW to CTR, in halves, and the remaining seconds to REMAIN (R153). -/
def Obligations.TctrWritesCounter : Prop :=
  ∀ s : State, s.params.Legal →
    ∃ t, exec .tctr s = .next t ∧ Ended .none t ∧
      t.ctrHi.toNat = (now s).toNat / 1000 / s.params.stepS.toNat / 2 ^ 32 ∧
      t.ctrLo.toNat = (now s).toNat / 1000 / s.params.stepS.toNat % 2 ^ 32 ∧
      t.remain.toNat = s.params.stepS.toNat - (now s).toNat / 1000 % s.params.stepS.toNat ∧
      SameInputs s t ∧ SameKey s t ∧ SameDigest s t ∧ SameCode s t ∧ SameVerdict s t ∧
      SameHidden s t ∧ t.req = s.req

/-! ## Truncation and codes -/

/-- R130: Serialize of the two halves is BE64 of the 64-bit counter, most significant byte first. -/
def Obligations.SerializeIsBigEndian : Prop :=
  ∀ hi lo : Word,
    serialize hi lo = be64 (BitVec.ofNat 64 (hi.toNat * 2 ^ 32 + lo.toNat)) ∧
      ∀ i : Fin 8,
        (serialize hi lo)[i].toNat = (hi.toNat * 2 ^ 32 + lo.toNat) / 2 ^ (8 * (7 - i.val)) % 256

/-- R131: the offset is the low nibble of h[19] and p is the masked 31-bit value of the four bytes from
it on, below 2^31 for every digest. -/
def Obligations.DynTruncIsMasked31Bits : Prop :=
  ∀ h : Digest,
    (truncOffset h).toNat = h[19].toNat % 16 ∧
      (truncWord h).toNat = truncNat h (h[19].toNat % 16) ∧ (truncWord h).toNat < 2 ^ 31

/-- R133: Render gives d ASCII digits that spell n. -/
def Obligations.RenderSpellsNumber : Prop :=
  ∀ n d : Nat, n < 10 ^ d →
    (render n d).length = d ∧ (∀ c ∈ render n d, 0x30 ≤ c.toNat ∧ c.toNat ≤ 0x39) ∧
      decimalValue (render n d) = n

/-- TRUNC d commits the code of H and writes nothing else (R134, R136). -/
def Obligations.TruncCommitsCode : Prop :=
  ∀ (s : State) (d : BitVec 4), d ≠ 0 →
    ∃ t, exec (.trunc d) s = .next t ∧ Ended .none t ∧ HoldsCode s.h d t ∧ SameInputs s t ∧
      SameKey s t ∧ SameTime s t ∧ SameDigest s t ∧ SameVerdict s t ∧ SameHidden s t ∧ t.req = s.req

/-! ## HOTP, TOTP, VERIFY -/

/-- HOTP's execute step requests the HMAC of the key and the counter, whatever the key's length, and
changes nothing else (R135). -/
def Obligations.HotpRequestsDigest : Prop :=
  ∀ (s : State) (d : BitVec 4), d ≠ 0 → s.fsm ≠ .resp → s.kovf = false →
    ∃ t, exec (.hotp d) s = .next t ∧ Requested (s.ctrHi ++ s.ctrLo) s t ∧ SameInputs s t ∧
      SameKey s t ∧ SameTime s t ∧ SameDigest s t ∧ SameCode s t ∧ SameVerdict s t ∧ SameDone s t ∧
      t.vidx = s.vidx ∧ t.vbase = s.vbase ∧ t.tcRem = s.tcRem ∧ t.resp = s.resp

/-- HOTP's response step commits the digest and its code, and does not change CTR (R135). -/
def Obligations.HotpCommitsCode : Prop :=
  ∀ (s : State) (d : BitVec 4) (h : Digest), s.fsm = .resp → s.resp = some (.digest h) →
    ∃ t, exec (.hotp d) s = .next t ∧ Ended .none t ∧ t.h = h ∧ HoldsCode h d t ∧ SameInputs s t ∧
      SameKey s t ∧ SameTime s t ∧ SameVerdict s t ∧ SameHidden s t ∧ t.req = s.req

/-- TOTP's execute step requests the HMAC of the key and the counter of NOW, holds the remaining seconds
back in tc_rem, and changes nothing else (R154). -/
def Obligations.TotpRequestsDigest : Prop :=
  ∀ (s : State) (d : BitVec 4), d ≠ 0 → s.fsm ≠ .resp → s.kovf = false → s.keyLen ≠ 0 →
    s.params.Legal →
    ∃ t c, exec (.totp d) s = .next t ∧ Requested c s t ∧
      c.toNat = (now s).toNat / 1000 / s.params.stepS.toNat ∧
      t.tcRem.toNat = s.params.stepS.toNat - (now s).toNat / 1000 % s.params.stepS.toNat ∧
      SameInputs s t ∧ SameKey s t ∧ SameTime s t ∧ SameDigest s t ∧ SameCode s t ∧
      SameVerdict s t ∧ SameDone s t ∧ t.vidx = s.vidx ∧ t.vbase = s.vbase ∧ t.resp = s.resp

/-- TOTP's response step commits the counter, the remaining seconds, the digest and its code (R154). -/
def Obligations.TotpCommitsCode : Prop :=
  ∀ (s : State) (d : BitVec 4) (h : Digest), s.fsm = .resp → s.resp = some (.digest h) →
    ∃ t, exec (.totp d) s = .next t ∧ Ended .none t ∧ t.ctrHi.toNat = s.wctr.toNat / 2 ^ 32 ∧
      t.ctrLo.toNat = s.wctr.toNat % 2 ^ 32 ∧ t.remain = s.tcRem ∧ t.h = h ∧ HoldsCode h d t ∧
      SameInputs s t ∧ SameKey s t ∧ SameVerdict s t ∧ SameHidden s t ∧ t.req = s.req

/-- VERIFY's execute step fixes the base and requests the first entry of the window: base - 1, or base
itself when base = 0 (R165, R167). -/
def Obligations.VerifyStartsWindow : Prop :=
  ∀ s : State, s.fsm ≠ .resp → s.kovf = false → s.keyLen ≠ 0 → s.params.Legal →
    ∃ t c, exec .verify s = .next t ∧ Requested c s t ∧
      t.vbase.toNat = (now s).toNat / 1000 / s.params.stepS.toNat ∧
      (t.vbase.toNat = 0 → t.vidx = 1 ∧ c.toNat = 0) ∧
      (1 ≤ t.vbase.toNat → t.vidx = 0 ∧ c.toNat = t.vbase.toNat - 1) ∧ SameInputs s t ∧
      SameKey s t ∧ SameTime s t ∧ SameDigest s t ∧ SameCode s t ∧ SameVerdict s t ∧ SameDone s t ∧
      t.tcRem = s.tcRem ∧ t.resp = s.resp

/-- R166: the candidate matches a 6-character code exactly when its length is 6 and its first six bytes are
the code's. -/
def Obligations.MatchComparesSixBytes : Prop :=
  ∀ (str : List Byte) (s : State), str.length = 6 →
    (candMatches str s = true ↔ s.candLen = 6 ∧ ∀ i : Fin 6, str[i.val]? = some s.cand[i.val])

/-- VERIFY's response step: a match gives the verdict at once, the last entry without a match gives
VALID = 0, and else the next entry is requested, for the counter vbase - 1 + (vidx + 1) = vbase + vidx;
nothing but VALID and MATCH is committed (R166, R167). -/
def Obligations.VerifyTriesEntries : Prop :=
  ∀ (s : State) (h : Digest), s.fsm = .resp → s.resp = some (.digest h) →
    ∃ t, exec .verify s = .next t ∧ SameInputs s t ∧ SameKey s t ∧ SameTime s t ∧ SameDigest s t ∧
      SameCode s t ∧ t.vbase = s.vbase ∧ t.tcRem = s.tcRem ∧
      (IsCandidate s (codeString h 6) →
        Ended .none t ∧ t.valid = true ∧ t.matchIdx.toNat = s.vidx.val + 1 ∧ SameHidden s t ∧
          t.req = s.req) ∧
      (¬ IsCandidate s (codeString h 6) → s.vidx = 2 →
        Ended .none t ∧ t.valid = false ∧ t.matchIdx = 0 ∧ SameHidden s t ∧ t.req = s.req) ∧
      (¬ IsCandidate s (codeString h 6) → s.vidx ≠ 2 →
        t.vidx.val = s.vidx.val + 1 ∧ t.resp = none ∧ SameVerdict s t ∧ SameDone s t ∧
        Requested (s.vbase + BitVec.ofNat 64 s.vidx.val) s t)

/-- TOTP and VERIFY with an empty key end with INVALID_SECRET: no request is sent and every result keeps
its value, but VERIFY's verdict, which is cleared (R154, R167, R202). -/
def Obligations.EmptySecretRefused : Prop :=
  ∀ (s : State) (i : Instr), s.keyLen = 0 → s.kovf = false → s.fsm ≠ .resp → s.cmd = encode i →
    i.WellFormed → (∃ d, i = .totp d) ∨ i = .verify →
    ∃ t, exec i s = .next t ∧ Ended .invalidSecret t ∧ SameInputs s t ∧ SameKey s t ∧ SameTime s t ∧
      SameDigest s t ∧ SameCode s t ∧ SameHidden s t ∧ t.req = s.req ∧
      (i = .verify → t.valid = false ∧ t.matchIdx = 0) ∧ (i ≠ .verify → SameVerdict s t)

/-- A CryptoError answer ends HOTP, TOTP and VERIFY with CRYPTO_ERROR and commits nothing; VERIFY's
verdict is cleared (R135, R154, R167, R202). -/
def Obligations.CryptoErrorCommitsNothing : Prop :=
  ∀ (s : State) (i : Instr), s.fsm = .resp → s.resp = some .cryptoError → s.cmd = encode i →
    sendsRequest i = true →
    ∃ t, exec i s = .next t ∧ Ended .cryptoError t ∧ SameInputs s t ∧ SameKey s t ∧ SameTime s t ∧
      SameDigest s t ∧ SameCode s t ∧ SameHidden s t ∧ t.req = s.req ∧
      (i = .verify → t.valid = false ∧ t.matchIdx = 0) ∧ (i ≠ .verify → SameVerdict s t)

/-- The hmac agent's step reads only req and writes only req, resp and fsm (R122); its answer is in
Allowed(k, m) (R123): CryptoError by its draw, or the digest, which an empty key gets only where
EMPTY_KEY_POLICY, a constant nothing constrains (assumption 2), accepts it. The turn carries the draw
(assumption 3); hmacSha1 is the model's SHA-1 (assumption 4). -/
def Obligations.HmacAgentAnswers : Prop :=
  ∀ (s : State) (rest : List Turn) (draw : HmacDraw) (r : HmacReq), s.req = some r →
    s.turns = .hmac draw :: rest →
    ∃ x, step s = .next { s with turns := rest, req := none, resp := some x, fsm := .resp } ∧
      (draw = .cryptoError → x = .cryptoError) ∧
      (draw = .digest → r.key ≠ [] → x = .digest (hmacSha1 r.key r.msg)) ∧
      (draw = .digest → r.key = [] →
        x = if Config.emptyKeyPolicy = .accept then .digest (hmacSha1 [] r.msg) else .cryptoError)

/-- HOTP from its word to its result: with a digest for an answer, three steps commit the code of
HMAC_SHA1(KEY[0..KEY_LEN), BE64(CTR)) (R135, R136, R189). The schedule and the draw are the model's
(assumptions 3, 5), and hmacSha1 is its SHA-1 (assumption 4). -/
def Obligations.HotpComputesCode : Prop :=
  ∀ (s : State) (d : BitVec 4), d ≠ 0 → s.fsm = .exec → s.abortReq = false →
    s.cmd = encode (.hotp d) → s.kovf = false → s.key.take s.keyLen ≠ [] →
    s.turns = [.core, .hmac .digest, .core] →
    ∃ t : State, Host.Core.run Sys2Proof.core 3 s = .next t ∧ Ended .none t ∧
      t.h = hmacSha1 (s.key.take s.keyLen) (be64 (s.ctrHi ++ s.ctrLo)) ∧
      HoldsCode (hmacSha1 (s.key.take s.keyLen) (be64 (s.ctrHi ++ s.ctrLo))) d t ∧
      SameKey s t ∧ SameTime s t ∧ SameVerdict s t ∧ t.req = none

/-- TCTR and then HOTP d commit the same CTR, REMAIN, digest and code as TOTP d, whenever the key is not
empty and the agent answers with digests (R153's corner case). The schedules are the model's
(assumption 5). -/
def Obligations.TotpIsTctrThenHotp : Prop :=
  ∀ (s : State) (d : BitVec 4), d ≠ 0 → s.fsm = .idle → s.abortReq = false → s.kovf = false →
    s.key.take s.keyLen ≠ [] →
    ∃ t u : State,
      Host.Core.run Sys2Proof.core 4
        { s with turns :=
          [.host (.wr 4 0x004 (encode (.totp d))), .core, .hmac .digest, .core] } = .next t ∧
      Host.Core.run Sys2Proof.core 6
        { s with turns :=
          [.host (.wr 4 0x004 (encode .tctr)), .core, .host (.wr 4 0x004 (encode (.hotp d))), .core,
            .hmac .digest, .core] } = .next u ∧
      t.ctrLo = u.ctrLo ∧ t.ctrHi = u.ctrHi ∧ t.remain = u.remain ∧ t.h = u.h ∧ SameCode t u ∧
      Ended .none t ∧ Ended .none u

/-- VERIFY from its word to its verdict, with digests for answers: the first of base - 1 (when base ≥ 1),
base, base + 1 whose 6-digit code is the candidate gives VALID = 1 and MATCH; none gives VALID = 0
(R165 to R168). The schedule and the draws are the model's (assumptions 3, 5): turns left over when it
stops early pass. -/
def Obligations.VerifyDecidesWindow : Prop :=
  ∀ (s : State) (base : Nat), s.fsm = .exec → s.abortReq = false → s.cmd = encode .verify →
    s.kovf = false → s.key.take s.keyLen ≠ [] → s.params.Legal →
    base = (now s).toNat / 1000 / s.params.stepS.toNat →
    s.turns = [.core, .hmac .digest, .core, .hmac .digest, .core, .hmac .digest, .core] →
    ∃ t : State, Host.Core.run Sys2Proof.core 7 s = .next t ∧ Ended .none t ∧
      (if 1 ≤ base ∧ IsCandidate s (windowCode (s.key.take s.keyLen) (base - 1)) then
        t.valid = true ∧ t.matchIdx = 1
      else if IsCandidate s (windowCode (s.key.take s.keyLen) base) then
        t.valid = true ∧ t.matchIdx = 2
      else if IsCandidate s (windowCode (s.key.take s.keyLen) (base + 1)) then
        t.valid = true ∧ t.matchIdx = 3
      else t.valid = false ∧ t.matchIdx = 0)

/-! ## The whole machine -/

/-- The table of R50: a command changes no register of the window but those listed for it and STATUS. -/
def Obligations.OnlyListedRegistersChange : Prop :=
  ∀ (i : Instr) (s t : State), exec i s = .next t →
    ∀ r : Reg, r ≠ .status → mayWrite i r = false → readReg r t = readReg r s

/-- The invariants of R51 hold after every step that starts where they hold. -/
def Obligations.StepKeepsInvariants : Prop :=
  ∀ s t : State, Inv s → step s = .next t → Inv t

/-- The invariants of R51 hold after reset. -/
def Obligations.ResetMeetsInvariants : Prop := Inv State.reset

/-- From a state that meets the invariants a step stops only at a host access the window does not admit,
and never refuses (R216). -/
def Obligations.OnlyBusErrorsStop : Prop :=
  ∀ s : State, Inv s →
    (∀ f, step s = .fault f →
      ∃ rest width off, (width ≠ 4 ∨ off % 4 ≠ 0 ∨ 0xFFF < off) ∧
        ((s.turns = .host (.rd width off) :: rest ∧ f = .busError .read width off) ∨
          ∃ v, s.turns = .host (.wr width off v) :: rest ∧ f = .busError .write width off)) ∧
      ∀ r, step s ≠ .refused r

/-- KOVF is cleared only by KEYCLR and by reset (R28). -/
def Obligations.OnlyKeyclrClearsKovf : Prop :=
  ∀ s t : State, step s = .next t → s.kovf = true → t.kovf = false →
    (∃ rest, s.turns = .host .rst :: rest) ∨ (s.fsm = .exec ∧ s.cmd = encode .keyclr)

/-- VALID and MATCH are written only when a VERIFY command (a word with OP = 0x8) finishes, and by reset
(R27). -/
def Obligations.OnlyVerifyWritesVerdict : Prop :=
  ∀ s t : State, step s = .next t → ¬ SameVerdict s t →
    (∃ rest, s.turns = .host .rst :: rest) ∨
      (s.cmd.extractLsb' 0 4 = (0x8 : BitVec 4) ∧ s.fsm ≠ .idle ∧ t.fsm = .idle)

/-- While a command runs, no step but reset changes its inputs: NOW, CAND_LEN and CAND never, and the key,
CTR, REMAIN and H not before the command's last step (R127, R182). -/
def Obligations.InputsFixedWhileBusy : Prop :=
  ∀ s t : State, step s = .next t → s.fsm ≠ .idle → (¬ ∃ rest, s.turns = .host .rst :: rest) →
    t.nowLo = s.nowLo ∧ t.nowHi = s.nowHi ∧ t.candLen = s.candLen ∧ t.cand = s.cand ∧
      (t.fsm ≠ .idle → SameKey s t ∧ SameTime s t ∧ SameDigest s t ∧ SameCode s t)

/-- Every command finishes: from a state that meets the invariants and whose schedule is empty, whatever
the hmac agent's free draws are, the block is idle after at most seven steps (R189, R190). That with an empty
schedule an enabled agent moves is the model's choice (assumption 5). -/
def Obligations.CommandsFinish : Prop :=
  ∀ s : State, Inv s → s.turns = [] →
    ∃ n t, n ≤ 7 ∧ Host.Core.run Sys2Proof.core n s = .next t ∧ t.fsm = .idle ∧ t.turns = []
end

