-- ==== Sys2Proof/Laws/Encoding.lean ====
section
/-! SUPPORT. The fields of an assembled word, and a word assembled from its fields (spec/30_encoding.md
R80). -/

namespace Sys2Proof

@[simp] theorem opField_assemble (op dig : BitVec 4) (data : Byte) :
    opField (assemble op dig data) = op := by
  apply BitVec.eq_of_getLsbD_eq
  intro i hi
  simp only [opField, assemble, BitVec.getLsbD_append, BitVec.getLsbD_extractLsb']
  simp [hi]

@[simp] theorem digField_assemble (op dig : BitVec 4) (data : Byte) :
    digField (assemble op dig data) = dig := by
  apply BitVec.eq_of_getLsbD_eq
  intro i hi
  simp only [digField, assemble, BitVec.getLsbD_append, BitVec.getLsbD_extractLsb']
  have a : ¬ 4 + i < 4 := by omega
  simp [hi]

@[simp] theorem dataField_assemble (op dig : BitVec 4) (data : Byte) :
    dataField (assemble op dig data) = data := by
  apply BitVec.eq_of_getLsbD_eq
  intro i hi
  simp only [dataField, assemble, BitVec.getLsbD_append, BitVec.getLsbD_extractLsb']
  have a : ¬ 8 + i < 4 := by omega
  have b : ¬ 8 + i - 4 < 4 := by omega
  have c : 8 + i - 4 - 4 = i := by omega
  simp [hi, a, b, c]

@[simp] theorem rsvField_assemble (op dig : BitVec 4) (data : Byte) :
    rsvField (assemble op dig data) = 0 := by
  apply BitVec.eq_of_getLsbD_eq
  intro i hi
  simp only [rsvField, assemble, BitVec.getLsbD_append, BitVec.getLsbD_extractLsb']
  have a : ¬ 16 + i < 4 := by omega
  have b : ¬ 16 + i - 4 < 4 := by omega
  have c : ¬ 16 + i - 4 - 4 < 8 := by omega
  simp [a, b, c]

/-- A word with RSV = 0 is its fields. -/
theorem assemble_fields {w : Word} (h : rsvField w = 0) :
    assemble (opField w) (digField w) (dataField w) = w := by
  apply BitVec.eq_of_getLsbD_eq
  intro i hi
  simp only [opField, digField, dataField, assemble, BitVec.getLsbD_append,
    BitVec.getLsbD_extractLsb']
  by_cases h1 : i < 4
  · simp [h1]
  · by_cases h2 : i < 8
    · have : i - 4 < 4 := by omega
      simp [h1, this, show 4 + (i - 4) = i by omega]
    · by_cases h3 : i < 16
      · have a : ¬ i - 4 < 4 := by omega
        have b : i - 4 - 4 < 8 := by omega
        simp [h1, a, b, show 8 + (i - 4 - 4) = i by omega]
      · have a : ¬ i - 4 < 4 := by omega
        have b : ¬ i - 4 - 4 < 8 := by omega
        have e := congrArg (·.getLsbD (i - 16)) h
        simp only [rsvField, BitVec.getLsbD_extractLsb'] at e
        simp only [show i - 16 < 16 by omega, show 16 + (i - 16) = i by omega] at e
        simp [h1, a, b] at e ⊢
        simpa using e.symm

end Sys2Proof
end

