-- ==== Sys2Proof/Laws/State.lean ====
section
/-! SUPPORT. One lemma per field per named update of State, so that no proof unfolds a record update. -/

namespace Sys2Proof.Machine

@[simp] theorem markDropped_params (s : State) : (markDropped s).params = s.params := rfl
@[simp] theorem markDropped_done (s : State) : (markDropped s).done = s.done := rfl
@[simp] theorem markDropped_valid (s : State) : (markDropped s).valid = s.valid := rfl
@[simp] theorem markDropped_matchIdx (s : State) : (markDropped s).matchIdx = s.matchIdx := rfl
@[simp] theorem markDropped_kovf (s : State) : (markDropped s).kovf = s.kovf := rfl
@[simp] theorem markDropped_ovr (s : State) : (markDropped s).ovr = true := rfl
@[simp] theorem markDropped_err (s : State) : (markDropped s).err = s.err := rfl
@[simp] theorem markDropped_ie (s : State) : (markDropped s).ie = s.ie := rfl
@[simp] theorem markDropped_key (s : State) : (markDropped s).key = s.key := rfl
@[simp] theorem markDropped_keyLen (s : State) : (markDropped s).keyLen = s.keyLen := rfl
@[simp] theorem markDropped_acc (s : State) : (markDropped s).acc = s.acc := rfl
@[simp] theorem markDropped_bitcnt (s : State) : (markDropped s).bitcnt = s.bitcnt := rfl
@[simp] theorem markDropped_digits (s : State) : (markDropped s).digits = s.digits := rfl
@[simp] theorem markDropped_ctrLo (s : State) : (markDropped s).ctrLo = s.ctrLo := rfl
@[simp] theorem markDropped_ctrHi (s : State) : (markDropped s).ctrHi = s.ctrHi := rfl
@[simp] theorem markDropped_nowLo (s : State) : (markDropped s).nowLo = s.nowLo := rfl
@[simp] theorem markDropped_nowHi (s : State) : (markDropped s).nowHi = s.nowHi := rfl
@[simp] theorem markDropped_remain (s : State) : (markDropped s).remain = s.remain := rfl
@[simp] theorem markDropped_offs (s : State) : (markDropped s).offs = s.offs := rfl
@[simp] theorem markDropped_pval (s : State) : (markDropped s).pval = s.pval := rfl
@[simp] theorem markDropped_codeNum (s : State) : (markDropped s).codeNum = s.codeNum := rfl
@[simp] theorem markDropped_candLen (s : State) : (markDropped s).candLen = s.candLen := rfl
@[simp] theorem markDropped_cand (s : State) : (markDropped s).cand = s.cand := rfl
@[simp] theorem markDropped_code (s : State) : (markDropped s).code = s.code := rfl
@[simp] theorem markDropped_h (s : State) : (markDropped s).h = s.h := rfl
@[simp] theorem markDropped_fsm (s : State) : (markDropped s).fsm = s.fsm := rfl
@[simp] theorem markDropped_cmd (s : State) : (markDropped s).cmd = s.cmd := rfl
@[simp] theorem markDropped_abortReq (s : State) : (markDropped s).abortReq = s.abortReq := rfl
@[simp] theorem markDropped_wctr (s : State) : (markDropped s).wctr = s.wctr := rfl
@[simp] theorem markDropped_vidx (s : State) : (markDropped s).vidx = s.vidx := rfl
@[simp] theorem markDropped_vbase (s : State) : (markDropped s).vbase = s.vbase := rfl
@[simp] theorem markDropped_tcRem (s : State) : (markDropped s).tcRem = s.tcRem := rfl
@[simp] theorem markDropped_resp (s : State) : (markDropped s).resp = s.resp := rfl
@[simp] theorem markDropped_req (s : State) : (markDropped s).req = s.req := rfl
@[simp] theorem markDropped_turns (s : State) : (markDropped s).turns = s.turns := rfl
@[simp] theorem markDropped_hostRead (s : State) : (markDropped s).hostRead = s.hostRead := rfl
@[simp] theorem markDropped_draws (s : State) : (markDropped s).draws = s.draws := rfl

@[simp] theorem requestAbort_params (s : State) : (requestAbort s).params = s.params := rfl
@[simp] theorem requestAbort_done (s : State) : (requestAbort s).done = s.done := rfl
@[simp] theorem requestAbort_valid (s : State) : (requestAbort s).valid = s.valid := rfl
@[simp] theorem requestAbort_matchIdx (s : State) : (requestAbort s).matchIdx = s.matchIdx := rfl
@[simp] theorem requestAbort_kovf (s : State) : (requestAbort s).kovf = s.kovf := rfl
@[simp] theorem requestAbort_ovr (s : State) : (requestAbort s).ovr = s.ovr := rfl
@[simp] theorem requestAbort_err (s : State) : (requestAbort s).err = s.err := rfl
@[simp] theorem requestAbort_ie (s : State) : (requestAbort s).ie = s.ie := rfl
@[simp] theorem requestAbort_key (s : State) : (requestAbort s).key = s.key := rfl
@[simp] theorem requestAbort_keyLen (s : State) : (requestAbort s).keyLen = s.keyLen := rfl
@[simp] theorem requestAbort_acc (s : State) : (requestAbort s).acc = s.acc := rfl
@[simp] theorem requestAbort_bitcnt (s : State) : (requestAbort s).bitcnt = s.bitcnt := rfl
@[simp] theorem requestAbort_digits (s : State) : (requestAbort s).digits = s.digits := rfl
@[simp] theorem requestAbort_ctrLo (s : State) : (requestAbort s).ctrLo = s.ctrLo := rfl
@[simp] theorem requestAbort_ctrHi (s : State) : (requestAbort s).ctrHi = s.ctrHi := rfl
@[simp] theorem requestAbort_nowLo (s : State) : (requestAbort s).nowLo = s.nowLo := rfl
@[simp] theorem requestAbort_nowHi (s : State) : (requestAbort s).nowHi = s.nowHi := rfl
@[simp] theorem requestAbort_remain (s : State) : (requestAbort s).remain = s.remain := rfl
@[simp] theorem requestAbort_offs (s : State) : (requestAbort s).offs = s.offs := rfl
@[simp] theorem requestAbort_pval (s : State) : (requestAbort s).pval = s.pval := rfl
@[simp] theorem requestAbort_codeNum (s : State) : (requestAbort s).codeNum = s.codeNum := rfl
@[simp] theorem requestAbort_candLen (s : State) : (requestAbort s).candLen = s.candLen := rfl
@[simp] theorem requestAbort_cand (s : State) : (requestAbort s).cand = s.cand := rfl
@[simp] theorem requestAbort_code (s : State) : (requestAbort s).code = s.code := rfl
@[simp] theorem requestAbort_h (s : State) : (requestAbort s).h = s.h := rfl
@[simp] theorem requestAbort_fsm (s : State) : (requestAbort s).fsm = s.fsm := rfl
@[simp] theorem requestAbort_cmd (s : State) : (requestAbort s).cmd = s.cmd := rfl
@[simp] theorem requestAbort_abortReq (s : State) : (requestAbort s).abortReq = true := rfl
@[simp] theorem requestAbort_wctr (s : State) : (requestAbort s).wctr = s.wctr := rfl
@[simp] theorem requestAbort_vidx (s : State) : (requestAbort s).vidx = s.vidx := rfl
@[simp] theorem requestAbort_vbase (s : State) : (requestAbort s).vbase = s.vbase := rfl
@[simp] theorem requestAbort_tcRem (s : State) : (requestAbort s).tcRem = s.tcRem := rfl
@[simp] theorem requestAbort_resp (s : State) : (requestAbort s).resp = s.resp := rfl
@[simp] theorem requestAbort_req (s : State) : (requestAbort s).req = s.req := rfl
@[simp] theorem requestAbort_turns (s : State) : (requestAbort s).turns = s.turns := rfl
@[simp] theorem requestAbort_hostRead (s : State) : (requestAbort s).hostRead = s.hostRead := rfl
@[simp] theorem requestAbort_draws (s : State) : (requestAbort s).draws = s.draws := rfl

@[simp] theorem hmacAnswer_params (r : HmacResp) (s : State) : (hmacAnswer r s).params = s.params := rfl
@[simp] theorem hmacAnswer_done (r : HmacResp) (s : State) : (hmacAnswer r s).done = s.done := rfl
@[simp] theorem hmacAnswer_valid (r : HmacResp) (s : State) : (hmacAnswer r s).valid = s.valid := rfl
@[simp] theorem hmacAnswer_matchIdx (r : HmacResp) (s : State) : (hmacAnswer r s).matchIdx = s.matchIdx := rfl
@[simp] theorem hmacAnswer_kovf (r : HmacResp) (s : State) : (hmacAnswer r s).kovf = s.kovf := rfl
@[simp] theorem hmacAnswer_ovr (r : HmacResp) (s : State) : (hmacAnswer r s).ovr = s.ovr := rfl
@[simp] theorem hmacAnswer_err (r : HmacResp) (s : State) : (hmacAnswer r s).err = s.err := rfl
@[simp] theorem hmacAnswer_ie (r : HmacResp) (s : State) : (hmacAnswer r s).ie = s.ie := rfl
@[simp] theorem hmacAnswer_key (r : HmacResp) (s : State) : (hmacAnswer r s).key = s.key := rfl
@[simp] theorem hmacAnswer_keyLen (r : HmacResp) (s : State) : (hmacAnswer r s).keyLen = s.keyLen := rfl
@[simp] theorem hmacAnswer_acc (r : HmacResp) (s : State) : (hmacAnswer r s).acc = s.acc := rfl
@[simp] theorem hmacAnswer_bitcnt (r : HmacResp) (s : State) : (hmacAnswer r s).bitcnt = s.bitcnt := rfl
@[simp] theorem hmacAnswer_digits (r : HmacResp) (s : State) : (hmacAnswer r s).digits = s.digits := rfl
@[simp] theorem hmacAnswer_ctrLo (r : HmacResp) (s : State) : (hmacAnswer r s).ctrLo = s.ctrLo := rfl
@[simp] theorem hmacAnswer_ctrHi (r : HmacResp) (s : State) : (hmacAnswer r s).ctrHi = s.ctrHi := rfl
@[simp] theorem hmacAnswer_nowLo (r : HmacResp) (s : State) : (hmacAnswer r s).nowLo = s.nowLo := rfl
@[simp] theorem hmacAnswer_nowHi (r : HmacResp) (s : State) : (hmacAnswer r s).nowHi = s.nowHi := rfl
@[simp] theorem hmacAnswer_remain (r : HmacResp) (s : State) : (hmacAnswer r s).remain = s.remain := rfl
@[simp] theorem hmacAnswer_offs (r : HmacResp) (s : State) : (hmacAnswer r s).offs = s.offs := rfl
@[simp] theorem hmacAnswer_pval (r : HmacResp) (s : State) : (hmacAnswer r s).pval = s.pval := rfl
@[simp] theorem hmacAnswer_codeNum (r : HmacResp) (s : State) : (hmacAnswer r s).codeNum = s.codeNum := rfl
@[simp] theorem hmacAnswer_candLen (r : HmacResp) (s : State) : (hmacAnswer r s).candLen = s.candLen := rfl
@[simp] theorem hmacAnswer_cand (r : HmacResp) (s : State) : (hmacAnswer r s).cand = s.cand := rfl
@[simp] theorem hmacAnswer_code (r : HmacResp) (s : State) : (hmacAnswer r s).code = s.code := rfl
@[simp] theorem hmacAnswer_h (r : HmacResp) (s : State) : (hmacAnswer r s).h = s.h := rfl
@[simp] theorem hmacAnswer_fsm (r : HmacResp) (s : State) : (hmacAnswer r s).fsm = .resp := rfl
@[simp] theorem hmacAnswer_cmd (r : HmacResp) (s : State) : (hmacAnswer r s).cmd = s.cmd := rfl
@[simp] theorem hmacAnswer_abortReq (r : HmacResp) (s : State) : (hmacAnswer r s).abortReq = s.abortReq := rfl
@[simp] theorem hmacAnswer_wctr (r : HmacResp) (s : State) : (hmacAnswer r s).wctr = s.wctr := rfl
@[simp] theorem hmacAnswer_vidx (r : HmacResp) (s : State) : (hmacAnswer r s).vidx = s.vidx := rfl
@[simp] theorem hmacAnswer_vbase (r : HmacResp) (s : State) : (hmacAnswer r s).vbase = s.vbase := rfl
@[simp] theorem hmacAnswer_tcRem (r : HmacResp) (s : State) : (hmacAnswer r s).tcRem = s.tcRem := rfl
@[simp] theorem hmacAnswer_resp (r : HmacResp) (s : State) : (hmacAnswer r s).resp = some r := rfl
@[simp] theorem hmacAnswer_req (r : HmacResp) (s : State) : (hmacAnswer r s).req = none := rfl
@[simp] theorem hmacAnswer_turns (r : HmacResp) (s : State) : (hmacAnswer r s).turns = s.turns := rfl
@[simp] theorem hmacAnswer_hostRead (r : HmacResp) (s : State) : (hmacAnswer r s).hostRead = s.hostRead := rfl
@[simp] theorem hmacAnswer_draws (r : HmacResp) (s : State) : (hmacAnswer r s).draws = s.draws := rfl

@[simp] theorem setWctr_params (c : DWord) (s : State) : (setWctr c s).params = s.params := rfl
@[simp] theorem setWctr_done (c : DWord) (s : State) : (setWctr c s).done = s.done := rfl
@[simp] theorem setWctr_valid (c : DWord) (s : State) : (setWctr c s).valid = s.valid := rfl
@[simp] theorem setWctr_matchIdx (c : DWord) (s : State) : (setWctr c s).matchIdx = s.matchIdx := rfl
@[simp] theorem setWctr_kovf (c : DWord) (s : State) : (setWctr c s).kovf = s.kovf := rfl
@[simp] theorem setWctr_ovr (c : DWord) (s : State) : (setWctr c s).ovr = s.ovr := rfl
@[simp] theorem setWctr_err (c : DWord) (s : State) : (setWctr c s).err = s.err := rfl
@[simp] theorem setWctr_ie (c : DWord) (s : State) : (setWctr c s).ie = s.ie := rfl
@[simp] theorem setWctr_key (c : DWord) (s : State) : (setWctr c s).key = s.key := rfl
@[simp] theorem setWctr_keyLen (c : DWord) (s : State) : (setWctr c s).keyLen = s.keyLen := rfl
@[simp] theorem setWctr_acc (c : DWord) (s : State) : (setWctr c s).acc = s.acc := rfl
@[simp] theorem setWctr_bitcnt (c : DWord) (s : State) : (setWctr c s).bitcnt = s.bitcnt := rfl
@[simp] theorem setWctr_digits (c : DWord) (s : State) : (setWctr c s).digits = s.digits := rfl
@[simp] theorem setWctr_ctrLo (c : DWord) (s : State) : (setWctr c s).ctrLo = s.ctrLo := rfl
@[simp] theorem setWctr_ctrHi (c : DWord) (s : State) : (setWctr c s).ctrHi = s.ctrHi := rfl
@[simp] theorem setWctr_nowLo (c : DWord) (s : State) : (setWctr c s).nowLo = s.nowLo := rfl
@[simp] theorem setWctr_nowHi (c : DWord) (s : State) : (setWctr c s).nowHi = s.nowHi := rfl
@[simp] theorem setWctr_remain (c : DWord) (s : State) : (setWctr c s).remain = s.remain := rfl
@[simp] theorem setWctr_offs (c : DWord) (s : State) : (setWctr c s).offs = s.offs := rfl
@[simp] theorem setWctr_pval (c : DWord) (s : State) : (setWctr c s).pval = s.pval := rfl
@[simp] theorem setWctr_codeNum (c : DWord) (s : State) : (setWctr c s).codeNum = s.codeNum := rfl
@[simp] theorem setWctr_candLen (c : DWord) (s : State) : (setWctr c s).candLen = s.candLen := rfl
@[simp] theorem setWctr_cand (c : DWord) (s : State) : (setWctr c s).cand = s.cand := rfl
@[simp] theorem setWctr_code (c : DWord) (s : State) : (setWctr c s).code = s.code := rfl
@[simp] theorem setWctr_h (c : DWord) (s : State) : (setWctr c s).h = s.h := rfl
@[simp] theorem setWctr_fsm (c : DWord) (s : State) : (setWctr c s).fsm = s.fsm := rfl
@[simp] theorem setWctr_cmd (c : DWord) (s : State) : (setWctr c s).cmd = s.cmd := rfl
@[simp] theorem setWctr_abortReq (c : DWord) (s : State) : (setWctr c s).abortReq = s.abortReq := rfl
@[simp] theorem setWctr_wctr (c : DWord) (s : State) : (setWctr c s).wctr = c := rfl
@[simp] theorem setWctr_vidx (c : DWord) (s : State) : (setWctr c s).vidx = s.vidx := rfl
@[simp] theorem setWctr_vbase (c : DWord) (s : State) : (setWctr c s).vbase = s.vbase := rfl
@[simp] theorem setWctr_tcRem (c : DWord) (s : State) : (setWctr c s).tcRem = s.tcRem := rfl
@[simp] theorem setWctr_resp (c : DWord) (s : State) : (setWctr c s).resp = s.resp := rfl
@[simp] theorem setWctr_req (c : DWord) (s : State) : (setWctr c s).req = s.req := rfl
@[simp] theorem setWctr_turns (c : DWord) (s : State) : (setWctr c s).turns = s.turns := rfl
@[simp] theorem setWctr_hostRead (c : DWord) (s : State) : (setWctr c s).hostRead = s.hostRead := rfl
@[simp] theorem setWctr_draws (c : DWord) (s : State) : (setWctr c s).draws = s.draws := rfl

@[simp] theorem setTcRem_params (n : Word) (s : State) : (setTcRem n s).params = s.params := rfl
@[simp] theorem setTcRem_done (n : Word) (s : State) : (setTcRem n s).done = s.done := rfl
@[simp] theorem setTcRem_valid (n : Word) (s : State) : (setTcRem n s).valid = s.valid := rfl
@[simp] theorem setTcRem_matchIdx (n : Word) (s : State) : (setTcRem n s).matchIdx = s.matchIdx := rfl
@[simp] theorem setTcRem_kovf (n : Word) (s : State) : (setTcRem n s).kovf = s.kovf := rfl
@[simp] theorem setTcRem_ovr (n : Word) (s : State) : (setTcRem n s).ovr = s.ovr := rfl
@[simp] theorem setTcRem_err (n : Word) (s : State) : (setTcRem n s).err = s.err := rfl
@[simp] theorem setTcRem_ie (n : Word) (s : State) : (setTcRem n s).ie = s.ie := rfl
@[simp] theorem setTcRem_key (n : Word) (s : State) : (setTcRem n s).key = s.key := rfl
@[simp] theorem setTcRem_keyLen (n : Word) (s : State) : (setTcRem n s).keyLen = s.keyLen := rfl
@[simp] theorem setTcRem_acc (n : Word) (s : State) : (setTcRem n s).acc = s.acc := rfl
@[simp] theorem setTcRem_bitcnt (n : Word) (s : State) : (setTcRem n s).bitcnt = s.bitcnt := rfl
@[simp] theorem setTcRem_digits (n : Word) (s : State) : (setTcRem n s).digits = s.digits := rfl
@[simp] theorem setTcRem_ctrLo (n : Word) (s : State) : (setTcRem n s).ctrLo = s.ctrLo := rfl
@[simp] theorem setTcRem_ctrHi (n : Word) (s : State) : (setTcRem n s).ctrHi = s.ctrHi := rfl
@[simp] theorem setTcRem_nowLo (n : Word) (s : State) : (setTcRem n s).nowLo = s.nowLo := rfl
@[simp] theorem setTcRem_nowHi (n : Word) (s : State) : (setTcRem n s).nowHi = s.nowHi := rfl
@[simp] theorem setTcRem_remain (n : Word) (s : State) : (setTcRem n s).remain = s.remain := rfl
@[simp] theorem setTcRem_offs (n : Word) (s : State) : (setTcRem n s).offs = s.offs := rfl
@[simp] theorem setTcRem_pval (n : Word) (s : State) : (setTcRem n s).pval = s.pval := rfl
@[simp] theorem setTcRem_codeNum (n : Word) (s : State) : (setTcRem n s).codeNum = s.codeNum := rfl
@[simp] theorem setTcRem_candLen (n : Word) (s : State) : (setTcRem n s).candLen = s.candLen := rfl
@[simp] theorem setTcRem_cand (n : Word) (s : State) : (setTcRem n s).cand = s.cand := rfl
@[simp] theorem setTcRem_code (n : Word) (s : State) : (setTcRem n s).code = s.code := rfl
@[simp] theorem setTcRem_h (n : Word) (s : State) : (setTcRem n s).h = s.h := rfl
@[simp] theorem setTcRem_fsm (n : Word) (s : State) : (setTcRem n s).fsm = s.fsm := rfl
@[simp] theorem setTcRem_cmd (n : Word) (s : State) : (setTcRem n s).cmd = s.cmd := rfl
@[simp] theorem setTcRem_abortReq (n : Word) (s : State) : (setTcRem n s).abortReq = s.abortReq := rfl
@[simp] theorem setTcRem_wctr (n : Word) (s : State) : (setTcRem n s).wctr = s.wctr := rfl
@[simp] theorem setTcRem_vidx (n : Word) (s : State) : (setTcRem n s).vidx = s.vidx := rfl
@[simp] theorem setTcRem_vbase (n : Word) (s : State) : (setTcRem n s).vbase = s.vbase := rfl
@[simp] theorem setTcRem_tcRem (n : Word) (s : State) : (setTcRem n s).tcRem = n := rfl
@[simp] theorem setTcRem_resp (n : Word) (s : State) : (setTcRem n s).resp = s.resp := rfl
@[simp] theorem setTcRem_req (n : Word) (s : State) : (setTcRem n s).req = s.req := rfl
@[simp] theorem setTcRem_turns (n : Word) (s : State) : (setTcRem n s).turns = s.turns := rfl
@[simp] theorem setTcRem_hostRead (n : Word) (s : State) : (setTcRem n s).hostRead = s.hostRead := rfl
@[simp] theorem setTcRem_draws (n : Word) (s : State) : (setTcRem n s).draws = s.draws := rfl

@[simp] theorem setVbase_params (c : DWord) (s : State) : (setVbase c s).params = s.params := rfl
@[simp] theorem setVbase_done (c : DWord) (s : State) : (setVbase c s).done = s.done := rfl
@[simp] theorem setVbase_valid (c : DWord) (s : State) : (setVbase c s).valid = s.valid := rfl
@[simp] theorem setVbase_matchIdx (c : DWord) (s : State) : (setVbase c s).matchIdx = s.matchIdx := rfl
@[simp] theorem setVbase_kovf (c : DWord) (s : State) : (setVbase c s).kovf = s.kovf := rfl
@[simp] theorem setVbase_ovr (c : DWord) (s : State) : (setVbase c s).ovr = s.ovr := rfl
@[simp] theorem setVbase_err (c : DWord) (s : State) : (setVbase c s).err = s.err := rfl
@[simp] theorem setVbase_ie (c : DWord) (s : State) : (setVbase c s).ie = s.ie := rfl
@[simp] theorem setVbase_key (c : DWord) (s : State) : (setVbase c s).key = s.key := rfl
@[simp] theorem setVbase_keyLen (c : DWord) (s : State) : (setVbase c s).keyLen = s.keyLen := rfl
@[simp] theorem setVbase_acc (c : DWord) (s : State) : (setVbase c s).acc = s.acc := rfl
@[simp] theorem setVbase_bitcnt (c : DWord) (s : State) : (setVbase c s).bitcnt = s.bitcnt := rfl
@[simp] theorem setVbase_digits (c : DWord) (s : State) : (setVbase c s).digits = s.digits := rfl
@[simp] theorem setVbase_ctrLo (c : DWord) (s : State) : (setVbase c s).ctrLo = s.ctrLo := rfl
@[simp] theorem setVbase_ctrHi (c : DWord) (s : State) : (setVbase c s).ctrHi = s.ctrHi := rfl
@[simp] theorem setVbase_nowLo (c : DWord) (s : State) : (setVbase c s).nowLo = s.nowLo := rfl
@[simp] theorem setVbase_nowHi (c : DWord) (s : State) : (setVbase c s).nowHi = s.nowHi := rfl
@[simp] theorem setVbase_remain (c : DWord) (s : State) : (setVbase c s).remain = s.remain := rfl
@[simp] theorem setVbase_offs (c : DWord) (s : State) : (setVbase c s).offs = s.offs := rfl
@[simp] theorem setVbase_pval (c : DWord) (s : State) : (setVbase c s).pval = s.pval := rfl
@[simp] theorem setVbase_codeNum (c : DWord) (s : State) : (setVbase c s).codeNum = s.codeNum := rfl
@[simp] theorem setVbase_candLen (c : DWord) (s : State) : (setVbase c s).candLen = s.candLen := rfl
@[simp] theorem setVbase_cand (c : DWord) (s : State) : (setVbase c s).cand = s.cand := rfl
@[simp] theorem setVbase_code (c : DWord) (s : State) : (setVbase c s).code = s.code := rfl
@[simp] theorem setVbase_h (c : DWord) (s : State) : (setVbase c s).h = s.h := rfl
@[simp] theorem setVbase_fsm (c : DWord) (s : State) : (setVbase c s).fsm = s.fsm := rfl
@[simp] theorem setVbase_cmd (c : DWord) (s : State) : (setVbase c s).cmd = s.cmd := rfl
@[simp] theorem setVbase_abortReq (c : DWord) (s : State) : (setVbase c s).abortReq = s.abortReq := rfl
@[simp] theorem setVbase_wctr (c : DWord) (s : State) : (setVbase c s).wctr = s.wctr := rfl
@[simp] theorem setVbase_vidx (c : DWord) (s : State) : (setVbase c s).vidx = s.vidx := rfl
@[simp] theorem setVbase_vbase (c : DWord) (s : State) : (setVbase c s).vbase = c := rfl
@[simp] theorem setVbase_tcRem (c : DWord) (s : State) : (setVbase c s).tcRem = s.tcRem := rfl
@[simp] theorem setVbase_resp (c : DWord) (s : State) : (setVbase c s).resp = s.resp := rfl
@[simp] theorem setVbase_req (c : DWord) (s : State) : (setVbase c s).req = s.req := rfl
@[simp] theorem setVbase_turns (c : DWord) (s : State) : (setVbase c s).turns = s.turns := rfl
@[simp] theorem setVbase_hostRead (c : DWord) (s : State) : (setVbase c s).hostRead = s.hostRead := rfl
@[simp] theorem setVbase_draws (c : DWord) (s : State) : (setVbase c s).draws = s.draws := rfl

@[simp] theorem setVidx_params (i : Fin 3) (s : State) : (setVidx i s).params = s.params := rfl
@[simp] theorem setVidx_done (i : Fin 3) (s : State) : (setVidx i s).done = s.done := rfl
@[simp] theorem setVidx_valid (i : Fin 3) (s : State) : (setVidx i s).valid = s.valid := rfl
@[simp] theorem setVidx_matchIdx (i : Fin 3) (s : State) : (setVidx i s).matchIdx = s.matchIdx := rfl
@[simp] theorem setVidx_kovf (i : Fin 3) (s : State) : (setVidx i s).kovf = s.kovf := rfl
@[simp] theorem setVidx_ovr (i : Fin 3) (s : State) : (setVidx i s).ovr = s.ovr := rfl
@[simp] theorem setVidx_err (i : Fin 3) (s : State) : (setVidx i s).err = s.err := rfl
@[simp] theorem setVidx_ie (i : Fin 3) (s : State) : (setVidx i s).ie = s.ie := rfl
@[simp] theorem setVidx_key (i : Fin 3) (s : State) : (setVidx i s).key = s.key := rfl
@[simp] theorem setVidx_keyLen (i : Fin 3) (s : State) : (setVidx i s).keyLen = s.keyLen := rfl
@[simp] theorem setVidx_acc (i : Fin 3) (s : State) : (setVidx i s).acc = s.acc := rfl
@[simp] theorem setVidx_bitcnt (i : Fin 3) (s : State) : (setVidx i s).bitcnt = s.bitcnt := rfl
@[simp] theorem setVidx_digits (i : Fin 3) (s : State) : (setVidx i s).digits = s.digits := rfl
@[simp] theorem setVidx_ctrLo (i : Fin 3) (s : State) : (setVidx i s).ctrLo = s.ctrLo := rfl
@[simp] theorem setVidx_ctrHi (i : Fin 3) (s : State) : (setVidx i s).ctrHi = s.ctrHi := rfl
@[simp] theorem setVidx_nowLo (i : Fin 3) (s : State) : (setVidx i s).nowLo = s.nowLo := rfl
@[simp] theorem setVidx_nowHi (i : Fin 3) (s : State) : (setVidx i s).nowHi = s.nowHi := rfl
@[simp] theorem setVidx_remain (i : Fin 3) (s : State) : (setVidx i s).remain = s.remain := rfl
@[simp] theorem setVidx_offs (i : Fin 3) (s : State) : (setVidx i s).offs = s.offs := rfl
@[simp] theorem setVidx_pval (i : Fin 3) (s : State) : (setVidx i s).pval = s.pval := rfl
@[simp] theorem setVidx_codeNum (i : Fin 3) (s : State) : (setVidx i s).codeNum = s.codeNum := rfl
@[simp] theorem setVidx_candLen (i : Fin 3) (s : State) : (setVidx i s).candLen = s.candLen := rfl
@[simp] theorem setVidx_cand (i : Fin 3) (s : State) : (setVidx i s).cand = s.cand := rfl
@[simp] theorem setVidx_code (i : Fin 3) (s : State) : (setVidx i s).code = s.code := rfl
@[simp] theorem setVidx_h (i : Fin 3) (s : State) : (setVidx i s).h = s.h := rfl
@[simp] theorem setVidx_fsm (i : Fin 3) (s : State) : (setVidx i s).fsm = s.fsm := rfl
@[simp] theorem setVidx_cmd (i : Fin 3) (s : State) : (setVidx i s).cmd = s.cmd := rfl
@[simp] theorem setVidx_abortReq (i : Fin 3) (s : State) : (setVidx i s).abortReq = s.abortReq := rfl
@[simp] theorem setVidx_wctr (i : Fin 3) (s : State) : (setVidx i s).wctr = s.wctr := rfl
@[simp] theorem setVidx_vidx (i : Fin 3) (s : State) : (setVidx i s).vidx = i := rfl
@[simp] theorem setVidx_vbase (i : Fin 3) (s : State) : (setVidx i s).vbase = s.vbase := rfl
@[simp] theorem setVidx_tcRem (i : Fin 3) (s : State) : (setVidx i s).tcRem = s.tcRem := rfl
@[simp] theorem setVidx_resp (i : Fin 3) (s : State) : (setVidx i s).resp = s.resp := rfl
@[simp] theorem setVidx_req (i : Fin 3) (s : State) : (setVidx i s).req = s.req := rfl
@[simp] theorem setVidx_turns (i : Fin 3) (s : State) : (setVidx i s).turns = s.turns := rfl
@[simp] theorem setVidx_hostRead (i : Fin 3) (s : State) : (setVidx i s).hostRead = s.hostRead := rfl
@[simp] theorem setVidx_draws (i : Fin 3) (s : State) : (setVidx i s).draws = s.draws := rfl

@[simp] theorem dropResp_params (s : State) : (dropResp s).params = s.params := rfl
@[simp] theorem dropResp_done (s : State) : (dropResp s).done = s.done := rfl
@[simp] theorem dropResp_valid (s : State) : (dropResp s).valid = s.valid := rfl
@[simp] theorem dropResp_matchIdx (s : State) : (dropResp s).matchIdx = s.matchIdx := rfl
@[simp] theorem dropResp_kovf (s : State) : (dropResp s).kovf = s.kovf := rfl
@[simp] theorem dropResp_ovr (s : State) : (dropResp s).ovr = s.ovr := rfl
@[simp] theorem dropResp_err (s : State) : (dropResp s).err = s.err := rfl
@[simp] theorem dropResp_ie (s : State) : (dropResp s).ie = s.ie := rfl
@[simp] theorem dropResp_key (s : State) : (dropResp s).key = s.key := rfl
@[simp] theorem dropResp_keyLen (s : State) : (dropResp s).keyLen = s.keyLen := rfl
@[simp] theorem dropResp_acc (s : State) : (dropResp s).acc = s.acc := rfl
@[simp] theorem dropResp_bitcnt (s : State) : (dropResp s).bitcnt = s.bitcnt := rfl
@[simp] theorem dropResp_digits (s : State) : (dropResp s).digits = s.digits := rfl
@[simp] theorem dropResp_ctrLo (s : State) : (dropResp s).ctrLo = s.ctrLo := rfl
@[simp] theorem dropResp_ctrHi (s : State) : (dropResp s).ctrHi = s.ctrHi := rfl
@[simp] theorem dropResp_nowLo (s : State) : (dropResp s).nowLo = s.nowLo := rfl
@[simp] theorem dropResp_nowHi (s : State) : (dropResp s).nowHi = s.nowHi := rfl
@[simp] theorem dropResp_remain (s : State) : (dropResp s).remain = s.remain := rfl
@[simp] theorem dropResp_offs (s : State) : (dropResp s).offs = s.offs := rfl
@[simp] theorem dropResp_pval (s : State) : (dropResp s).pval = s.pval := rfl
@[simp] theorem dropResp_codeNum (s : State) : (dropResp s).codeNum = s.codeNum := rfl
@[simp] theorem dropResp_candLen (s : State) : (dropResp s).candLen = s.candLen := rfl
@[simp] theorem dropResp_cand (s : State) : (dropResp s).cand = s.cand := rfl
@[simp] theorem dropResp_code (s : State) : (dropResp s).code = s.code := rfl
@[simp] theorem dropResp_h (s : State) : (dropResp s).h = s.h := rfl
@[simp] theorem dropResp_fsm (s : State) : (dropResp s).fsm = s.fsm := rfl
@[simp] theorem dropResp_cmd (s : State) : (dropResp s).cmd = s.cmd := rfl
@[simp] theorem dropResp_abortReq (s : State) : (dropResp s).abortReq = s.abortReq := rfl
@[simp] theorem dropResp_wctr (s : State) : (dropResp s).wctr = s.wctr := rfl
@[simp] theorem dropResp_vidx (s : State) : (dropResp s).vidx = s.vidx := rfl
@[simp] theorem dropResp_vbase (s : State) : (dropResp s).vbase = s.vbase := rfl
@[simp] theorem dropResp_tcRem (s : State) : (dropResp s).tcRem = s.tcRem := rfl
@[simp] theorem dropResp_resp (s : State) : (dropResp s).resp = none := rfl
@[simp] theorem dropResp_req (s : State) : (dropResp s).req = s.req := rfl
@[simp] theorem dropResp_turns (s : State) : (dropResp s).turns = s.turns := rfl
@[simp] theorem dropResp_hostRead (s : State) : (dropResp s).hostRead = s.hostRead := rfl
@[simp] theorem dropResp_draws (s : State) : (dropResp s).draws = s.draws := rfl

@[simp] theorem setKovf_params (s : State) : (setKovf s).params = s.params := rfl
@[simp] theorem setKovf_done (s : State) : (setKovf s).done = s.done := rfl
@[simp] theorem setKovf_valid (s : State) : (setKovf s).valid = s.valid := rfl
@[simp] theorem setKovf_matchIdx (s : State) : (setKovf s).matchIdx = s.matchIdx := rfl
@[simp] theorem setKovf_kovf (s : State) : (setKovf s).kovf = true := rfl
@[simp] theorem setKovf_ovr (s : State) : (setKovf s).ovr = s.ovr := rfl
@[simp] theorem setKovf_err (s : State) : (setKovf s).err = s.err := rfl
@[simp] theorem setKovf_ie (s : State) : (setKovf s).ie = s.ie := rfl
@[simp] theorem setKovf_key (s : State) : (setKovf s).key = s.key := rfl
@[simp] theorem setKovf_keyLen (s : State) : (setKovf s).keyLen = s.keyLen := rfl
@[simp] theorem setKovf_acc (s : State) : (setKovf s).acc = s.acc := rfl
@[simp] theorem setKovf_bitcnt (s : State) : (setKovf s).bitcnt = s.bitcnt := rfl
@[simp] theorem setKovf_digits (s : State) : (setKovf s).digits = s.digits := rfl
@[simp] theorem setKovf_ctrLo (s : State) : (setKovf s).ctrLo = s.ctrLo := rfl
@[simp] theorem setKovf_ctrHi (s : State) : (setKovf s).ctrHi = s.ctrHi := rfl
@[simp] theorem setKovf_nowLo (s : State) : (setKovf s).nowLo = s.nowLo := rfl
@[simp] theorem setKovf_nowHi (s : State) : (setKovf s).nowHi = s.nowHi := rfl
@[simp] theorem setKovf_remain (s : State) : (setKovf s).remain = s.remain := rfl
@[simp] theorem setKovf_offs (s : State) : (setKovf s).offs = s.offs := rfl
@[simp] theorem setKovf_pval (s : State) : (setKovf s).pval = s.pval := rfl
@[simp] theorem setKovf_codeNum (s : State) : (setKovf s).codeNum = s.codeNum := rfl
@[simp] theorem setKovf_candLen (s : State) : (setKovf s).candLen = s.candLen := rfl
@[simp] theorem setKovf_cand (s : State) : (setKovf s).cand = s.cand := rfl
@[simp] theorem setKovf_code (s : State) : (setKovf s).code = s.code := rfl
@[simp] theorem setKovf_h (s : State) : (setKovf s).h = s.h := rfl
@[simp] theorem setKovf_fsm (s : State) : (setKovf s).fsm = s.fsm := rfl
@[simp] theorem setKovf_cmd (s : State) : (setKovf s).cmd = s.cmd := rfl
@[simp] theorem setKovf_abortReq (s : State) : (setKovf s).abortReq = s.abortReq := rfl
@[simp] theorem setKovf_wctr (s : State) : (setKovf s).wctr = s.wctr := rfl
@[simp] theorem setKovf_vidx (s : State) : (setKovf s).vidx = s.vidx := rfl
@[simp] theorem setKovf_vbase (s : State) : (setKovf s).vbase = s.vbase := rfl
@[simp] theorem setKovf_tcRem (s : State) : (setKovf s).tcRem = s.tcRem := rfl
@[simp] theorem setKovf_resp (s : State) : (setKovf s).resp = s.resp := rfl
@[simp] theorem setKovf_req (s : State) : (setKovf s).req = s.req := rfl
@[simp] theorem setKovf_turns (s : State) : (setKovf s).turns = s.turns := rfl
@[simp] theorem setKovf_hostRead (s : State) : (setKovf s).hostRead = s.hostRead := rfl
@[simp] theorem setKovf_draws (s : State) : (setKovf s).draws = s.draws := rfl

@[simp] theorem setIe_params (v : Word) (s : State) : (setIe v s).params = s.params := rfl
@[simp] theorem setIe_done (v : Word) (s : State) : (setIe v s).done = s.done := rfl
@[simp] theorem setIe_valid (v : Word) (s : State) : (setIe v s).valid = s.valid := rfl
@[simp] theorem setIe_matchIdx (v : Word) (s : State) : (setIe v s).matchIdx = s.matchIdx := rfl
@[simp] theorem setIe_kovf (v : Word) (s : State) : (setIe v s).kovf = s.kovf := rfl
@[simp] theorem setIe_ovr (v : Word) (s : State) : (setIe v s).ovr = s.ovr := rfl
@[simp] theorem setIe_err (v : Word) (s : State) : (setIe v s).err = s.err := rfl
@[simp] theorem setIe_ie (v : Word) (s : State) : (setIe v s).ie = v.getLsbD 0 := rfl
@[simp] theorem setIe_key (v : Word) (s : State) : (setIe v s).key = s.key := rfl
@[simp] theorem setIe_keyLen (v : Word) (s : State) : (setIe v s).keyLen = s.keyLen := rfl
@[simp] theorem setIe_acc (v : Word) (s : State) : (setIe v s).acc = s.acc := rfl
@[simp] theorem setIe_bitcnt (v : Word) (s : State) : (setIe v s).bitcnt = s.bitcnt := rfl
@[simp] theorem setIe_digits (v : Word) (s : State) : (setIe v s).digits = s.digits := rfl
@[simp] theorem setIe_ctrLo (v : Word) (s : State) : (setIe v s).ctrLo = s.ctrLo := rfl
@[simp] theorem setIe_ctrHi (v : Word) (s : State) : (setIe v s).ctrHi = s.ctrHi := rfl
@[simp] theorem setIe_nowLo (v : Word) (s : State) : (setIe v s).nowLo = s.nowLo := rfl
@[simp] theorem setIe_nowHi (v : Word) (s : State) : (setIe v s).nowHi = s.nowHi := rfl
@[simp] theorem setIe_remain (v : Word) (s : State) : (setIe v s).remain = s.remain := rfl
@[simp] theorem setIe_offs (v : Word) (s : State) : (setIe v s).offs = s.offs := rfl
@[simp] theorem setIe_pval (v : Word) (s : State) : (setIe v s).pval = s.pval := rfl
@[simp] theorem setIe_codeNum (v : Word) (s : State) : (setIe v s).codeNum = s.codeNum := rfl
@[simp] theorem setIe_candLen (v : Word) (s : State) : (setIe v s).candLen = s.candLen := rfl
@[simp] theorem setIe_cand (v : Word) (s : State) : (setIe v s).cand = s.cand := rfl
@[simp] theorem setIe_code (v : Word) (s : State) : (setIe v s).code = s.code := rfl
@[simp] theorem setIe_h (v : Word) (s : State) : (setIe v s).h = s.h := rfl
@[simp] theorem setIe_fsm (v : Word) (s : State) : (setIe v s).fsm = s.fsm := rfl
@[simp] theorem setIe_cmd (v : Word) (s : State) : (setIe v s).cmd = s.cmd := rfl
@[simp] theorem setIe_abortReq (v : Word) (s : State) : (setIe v s).abortReq = s.abortReq := rfl
@[simp] theorem setIe_wctr (v : Word) (s : State) : (setIe v s).wctr = s.wctr := rfl
@[simp] theorem setIe_vidx (v : Word) (s : State) : (setIe v s).vidx = s.vidx := rfl
@[simp] theorem setIe_vbase (v : Word) (s : State) : (setIe v s).vbase = s.vbase := rfl
@[simp] theorem setIe_tcRem (v : Word) (s : State) : (setIe v s).tcRem = s.tcRem := rfl
@[simp] theorem setIe_resp (v : Word) (s : State) : (setIe v s).resp = s.resp := rfl
@[simp] theorem setIe_req (v : Word) (s : State) : (setIe v s).req = s.req := rfl
@[simp] theorem setIe_turns (v : Word) (s : State) : (setIe v s).turns = s.turns := rfl
@[simp] theorem setIe_hostRead (v : Word) (s : State) : (setIe v s).hostRead = s.hostRead := rfl
@[simp] theorem setIe_draws (v : Word) (s : State) : (setIe v s).draws = s.draws := rfl

@[simp] theorem answerHost_params (v : Word) (s : State) : (answerHost v s).params = s.params := rfl
@[simp] theorem answerHost_done (v : Word) (s : State) : (answerHost v s).done = s.done := rfl
@[simp] theorem answerHost_valid (v : Word) (s : State) : (answerHost v s).valid = s.valid := rfl
@[simp] theorem answerHost_matchIdx (v : Word) (s : State) : (answerHost v s).matchIdx = s.matchIdx := rfl
@[simp] theorem answerHost_kovf (v : Word) (s : State) : (answerHost v s).kovf = s.kovf := rfl
@[simp] theorem answerHost_ovr (v : Word) (s : State) : (answerHost v s).ovr = s.ovr := rfl
@[simp] theorem answerHost_err (v : Word) (s : State) : (answerHost v s).err = s.err := rfl
@[simp] theorem answerHost_ie (v : Word) (s : State) : (answerHost v s).ie = s.ie := rfl
@[simp] theorem answerHost_key (v : Word) (s : State) : (answerHost v s).key = s.key := rfl
@[simp] theorem answerHost_keyLen (v : Word) (s : State) : (answerHost v s).keyLen = s.keyLen := rfl
@[simp] theorem answerHost_acc (v : Word) (s : State) : (answerHost v s).acc = s.acc := rfl
@[simp] theorem answerHost_bitcnt (v : Word) (s : State) : (answerHost v s).bitcnt = s.bitcnt := rfl
@[simp] theorem answerHost_digits (v : Word) (s : State) : (answerHost v s).digits = s.digits := rfl
@[simp] theorem answerHost_ctrLo (v : Word) (s : State) : (answerHost v s).ctrLo = s.ctrLo := rfl
@[simp] theorem answerHost_ctrHi (v : Word) (s : State) : (answerHost v s).ctrHi = s.ctrHi := rfl
@[simp] theorem answerHost_nowLo (v : Word) (s : State) : (answerHost v s).nowLo = s.nowLo := rfl
@[simp] theorem answerHost_nowHi (v : Word) (s : State) : (answerHost v s).nowHi = s.nowHi := rfl
@[simp] theorem answerHost_remain (v : Word) (s : State) : (answerHost v s).remain = s.remain := rfl
@[simp] theorem answerHost_offs (v : Word) (s : State) : (answerHost v s).offs = s.offs := rfl
@[simp] theorem answerHost_pval (v : Word) (s : State) : (answerHost v s).pval = s.pval := rfl
@[simp] theorem answerHost_codeNum (v : Word) (s : State) : (answerHost v s).codeNum = s.codeNum := rfl
@[simp] theorem answerHost_candLen (v : Word) (s : State) : (answerHost v s).candLen = s.candLen := rfl
@[simp] theorem answerHost_cand (v : Word) (s : State) : (answerHost v s).cand = s.cand := rfl
@[simp] theorem answerHost_code (v : Word) (s : State) : (answerHost v s).code = s.code := rfl
@[simp] theorem answerHost_h (v : Word) (s : State) : (answerHost v s).h = s.h := rfl
@[simp] theorem answerHost_fsm (v : Word) (s : State) : (answerHost v s).fsm = s.fsm := rfl
@[simp] theorem answerHost_cmd (v : Word) (s : State) : (answerHost v s).cmd = s.cmd := rfl
@[simp] theorem answerHost_abortReq (v : Word) (s : State) : (answerHost v s).abortReq = s.abortReq := rfl
@[simp] theorem answerHost_wctr (v : Word) (s : State) : (answerHost v s).wctr = s.wctr := rfl
@[simp] theorem answerHost_vidx (v : Word) (s : State) : (answerHost v s).vidx = s.vidx := rfl
@[simp] theorem answerHost_vbase (v : Word) (s : State) : (answerHost v s).vbase = s.vbase := rfl
@[simp] theorem answerHost_tcRem (v : Word) (s : State) : (answerHost v s).tcRem = s.tcRem := rfl
@[simp] theorem answerHost_resp (v : Word) (s : State) : (answerHost v s).resp = s.resp := rfl
@[simp] theorem answerHost_req (v : Word) (s : State) : (answerHost v s).req = s.req := rfl
@[simp] theorem answerHost_turns (v : Word) (s : State) : (answerHost v s).turns = s.turns := rfl
@[simp] theorem answerHost_hostRead (v : Word) (s : State) : (answerHost v s).hostRead = some v := rfl
@[simp] theorem answerHost_draws (v : Word) (s : State) : (answerHost v s).draws = s.draws := rfl

@[simp] theorem afterTurn_params (rest : List Turn) (s : State) : (afterTurn rest s).params = s.params := rfl
@[simp] theorem afterTurn_done (rest : List Turn) (s : State) : (afterTurn rest s).done = s.done := rfl
@[simp] theorem afterTurn_valid (rest : List Turn) (s : State) : (afterTurn rest s).valid = s.valid := rfl
@[simp] theorem afterTurn_matchIdx (rest : List Turn) (s : State) : (afterTurn rest s).matchIdx = s.matchIdx := rfl
@[simp] theorem afterTurn_kovf (rest : List Turn) (s : State) : (afterTurn rest s).kovf = s.kovf := rfl
@[simp] theorem afterTurn_ovr (rest : List Turn) (s : State) : (afterTurn rest s).ovr = s.ovr := rfl
@[simp] theorem afterTurn_err (rest : List Turn) (s : State) : (afterTurn rest s).err = s.err := rfl
@[simp] theorem afterTurn_ie (rest : List Turn) (s : State) : (afterTurn rest s).ie = s.ie := rfl
@[simp] theorem afterTurn_key (rest : List Turn) (s : State) : (afterTurn rest s).key = s.key := rfl
@[simp] theorem afterTurn_keyLen (rest : List Turn) (s : State) : (afterTurn rest s).keyLen = s.keyLen := rfl
@[simp] theorem afterTurn_acc (rest : List Turn) (s : State) : (afterTurn rest s).acc = s.acc := rfl
@[simp] theorem afterTurn_bitcnt (rest : List Turn) (s : State) : (afterTurn rest s).bitcnt = s.bitcnt := rfl
@[simp] theorem afterTurn_digits (rest : List Turn) (s : State) : (afterTurn rest s).digits = s.digits := rfl
@[simp] theorem afterTurn_ctrLo (rest : List Turn) (s : State) : (afterTurn rest s).ctrLo = s.ctrLo := rfl
@[simp] theorem afterTurn_ctrHi (rest : List Turn) (s : State) : (afterTurn rest s).ctrHi = s.ctrHi := rfl
@[simp] theorem afterTurn_nowLo (rest : List Turn) (s : State) : (afterTurn rest s).nowLo = s.nowLo := rfl
@[simp] theorem afterTurn_nowHi (rest : List Turn) (s : State) : (afterTurn rest s).nowHi = s.nowHi := rfl
@[simp] theorem afterTurn_remain (rest : List Turn) (s : State) : (afterTurn rest s).remain = s.remain := rfl
@[simp] theorem afterTurn_offs (rest : List Turn) (s : State) : (afterTurn rest s).offs = s.offs := rfl
@[simp] theorem afterTurn_pval (rest : List Turn) (s : State) : (afterTurn rest s).pval = s.pval := rfl
@[simp] theorem afterTurn_codeNum (rest : List Turn) (s : State) : (afterTurn rest s).codeNum = s.codeNum := rfl
@[simp] theorem afterTurn_candLen (rest : List Turn) (s : State) : (afterTurn rest s).candLen = s.candLen := rfl
@[simp] theorem afterTurn_cand (rest : List Turn) (s : State) : (afterTurn rest s).cand = s.cand := rfl
@[simp] theorem afterTurn_code (rest : List Turn) (s : State) : (afterTurn rest s).code = s.code := rfl
@[simp] theorem afterTurn_h (rest : List Turn) (s : State) : (afterTurn rest s).h = s.h := rfl
@[simp] theorem afterTurn_fsm (rest : List Turn) (s : State) : (afterTurn rest s).fsm = s.fsm := rfl
@[simp] theorem afterTurn_cmd (rest : List Turn) (s : State) : (afterTurn rest s).cmd = s.cmd := rfl
@[simp] theorem afterTurn_abortReq (rest : List Turn) (s : State) : (afterTurn rest s).abortReq = s.abortReq := rfl
@[simp] theorem afterTurn_wctr (rest : List Turn) (s : State) : (afterTurn rest s).wctr = s.wctr := rfl
@[simp] theorem afterTurn_vidx (rest : List Turn) (s : State) : (afterTurn rest s).vidx = s.vidx := rfl
@[simp] theorem afterTurn_vbase (rest : List Turn) (s : State) : (afterTurn rest s).vbase = s.vbase := rfl
@[simp] theorem afterTurn_tcRem (rest : List Turn) (s : State) : (afterTurn rest s).tcRem = s.tcRem := rfl
@[simp] theorem afterTurn_resp (rest : List Turn) (s : State) : (afterTurn rest s).resp = s.resp := rfl
@[simp] theorem afterTurn_req (rest : List Turn) (s : State) : (afterTurn rest s).req = s.req := rfl
@[simp] theorem afterTurn_turns (rest : List Turn) (s : State) : (afterTurn rest s).turns = rest := rfl
@[simp] theorem afterTurn_hostRead (rest : List Turn) (s : State) : (afterTurn rest s).hostRead = s.hostRead := rfl
@[simp] theorem afterTurn_draws (rest : List Turn) (s : State) : (afterTurn rest s).draws = s.draws := rfl

@[simp] theorem useDraw_params (s : State) : (useDraw s).params = s.params := rfl
@[simp] theorem useDraw_done (s : State) : (useDraw s).done = s.done := rfl
@[simp] theorem useDraw_valid (s : State) : (useDraw s).valid = s.valid := rfl
@[simp] theorem useDraw_matchIdx (s : State) : (useDraw s).matchIdx = s.matchIdx := rfl
@[simp] theorem useDraw_kovf (s : State) : (useDraw s).kovf = s.kovf := rfl
@[simp] theorem useDraw_ovr (s : State) : (useDraw s).ovr = s.ovr := rfl
@[simp] theorem useDraw_err (s : State) : (useDraw s).err = s.err := rfl
@[simp] theorem useDraw_ie (s : State) : (useDraw s).ie = s.ie := rfl
@[simp] theorem useDraw_key (s : State) : (useDraw s).key = s.key := rfl
@[simp] theorem useDraw_keyLen (s : State) : (useDraw s).keyLen = s.keyLen := rfl
@[simp] theorem useDraw_acc (s : State) : (useDraw s).acc = s.acc := rfl
@[simp] theorem useDraw_bitcnt (s : State) : (useDraw s).bitcnt = s.bitcnt := rfl
@[simp] theorem useDraw_digits (s : State) : (useDraw s).digits = s.digits := rfl
@[simp] theorem useDraw_ctrLo (s : State) : (useDraw s).ctrLo = s.ctrLo := rfl
@[simp] theorem useDraw_ctrHi (s : State) : (useDraw s).ctrHi = s.ctrHi := rfl
@[simp] theorem useDraw_nowLo (s : State) : (useDraw s).nowLo = s.nowLo := rfl
@[simp] theorem useDraw_nowHi (s : State) : (useDraw s).nowHi = s.nowHi := rfl
@[simp] theorem useDraw_remain (s : State) : (useDraw s).remain = s.remain := rfl
@[simp] theorem useDraw_offs (s : State) : (useDraw s).offs = s.offs := rfl
@[simp] theorem useDraw_pval (s : State) : (useDraw s).pval = s.pval := rfl
@[simp] theorem useDraw_codeNum (s : State) : (useDraw s).codeNum = s.codeNum := rfl
@[simp] theorem useDraw_candLen (s : State) : (useDraw s).candLen = s.candLen := rfl
@[simp] theorem useDraw_cand (s : State) : (useDraw s).cand = s.cand := rfl
@[simp] theorem useDraw_code (s : State) : (useDraw s).code = s.code := rfl
@[simp] theorem useDraw_h (s : State) : (useDraw s).h = s.h := rfl
@[simp] theorem useDraw_fsm (s : State) : (useDraw s).fsm = s.fsm := rfl
@[simp] theorem useDraw_cmd (s : State) : (useDraw s).cmd = s.cmd := rfl
@[simp] theorem useDraw_abortReq (s : State) : (useDraw s).abortReq = s.abortReq := rfl
@[simp] theorem useDraw_wctr (s : State) : (useDraw s).wctr = s.wctr := rfl
@[simp] theorem useDraw_vidx (s : State) : (useDraw s).vidx = s.vidx := rfl
@[simp] theorem useDraw_vbase (s : State) : (useDraw s).vbase = s.vbase := rfl
@[simp] theorem useDraw_tcRem (s : State) : (useDraw s).tcRem = s.tcRem := rfl
@[simp] theorem useDraw_resp (s : State) : (useDraw s).resp = s.resp := rfl
@[simp] theorem useDraw_req (s : State) : (useDraw s).req = s.req := rfl
@[simp] theorem useDraw_turns (s : State) : (useDraw s).turns = s.turns := rfl
@[simp] theorem useDraw_hostRead (s : State) : (useDraw s).hostRead = s.hostRead := rfl
@[simp] theorem useDraw_draws (s : State) : (useDraw s).draws = s.draws + 1 := rfl

@[simp] theorem finish_params (e : ErrCode) (s : State) : (finish e s).params = s.params := rfl
@[simp] theorem finish_done (e : ErrCode) (s : State) : (finish e s).done = true := rfl
@[simp] theorem finish_valid (e : ErrCode) (s : State) : (finish e s).valid = if clearsVerdict e s then false else s.valid := rfl
@[simp] theorem finish_matchIdx (e : ErrCode) (s : State) : (finish e s).matchIdx = if clearsVerdict e s then 0 else s.matchIdx := rfl
@[simp] theorem finish_kovf (e : ErrCode) (s : State) : (finish e s).kovf = s.kovf := rfl
@[simp] theorem finish_ovr (e : ErrCode) (s : State) : (finish e s).ovr = s.ovr := rfl
@[simp] theorem finish_err (e : ErrCode) (s : State) : (finish e s).err = e := rfl
@[simp] theorem finish_ie (e : ErrCode) (s : State) : (finish e s).ie = s.ie := rfl
@[simp] theorem finish_key (e : ErrCode) (s : State) : (finish e s).key = s.key := rfl
@[simp] theorem finish_keyLen (e : ErrCode) (s : State) : (finish e s).keyLen = s.keyLen := rfl
@[simp] theorem finish_acc (e : ErrCode) (s : State) : (finish e s).acc = s.acc := rfl
@[simp] theorem finish_bitcnt (e : ErrCode) (s : State) : (finish e s).bitcnt = s.bitcnt := rfl
@[simp] theorem finish_digits (e : ErrCode) (s : State) : (finish e s).digits = s.digits := rfl
@[simp] theorem finish_ctrLo (e : ErrCode) (s : State) : (finish e s).ctrLo = s.ctrLo := rfl
@[simp] theorem finish_ctrHi (e : ErrCode) (s : State) : (finish e s).ctrHi = s.ctrHi := rfl
@[simp] theorem finish_nowLo (e : ErrCode) (s : State) : (finish e s).nowLo = s.nowLo := rfl
@[simp] theorem finish_nowHi (e : ErrCode) (s : State) : (finish e s).nowHi = s.nowHi := rfl
@[simp] theorem finish_remain (e : ErrCode) (s : State) : (finish e s).remain = s.remain := rfl
@[simp] theorem finish_offs (e : ErrCode) (s : State) : (finish e s).offs = s.offs := rfl
@[simp] theorem finish_pval (e : ErrCode) (s : State) : (finish e s).pval = s.pval := rfl
@[simp] theorem finish_codeNum (e : ErrCode) (s : State) : (finish e s).codeNum = s.codeNum := rfl
@[simp] theorem finish_candLen (e : ErrCode) (s : State) : (finish e s).candLen = s.candLen := rfl
@[simp] theorem finish_cand (e : ErrCode) (s : State) : (finish e s).cand = s.cand := rfl
@[simp] theorem finish_code (e : ErrCode) (s : State) : (finish e s).code = s.code := rfl
@[simp] theorem finish_h (e : ErrCode) (s : State) : (finish e s).h = s.h := rfl
@[simp] theorem finish_fsm (e : ErrCode) (s : State) : (finish e s).fsm = .idle := rfl
@[simp] theorem finish_cmd (e : ErrCode) (s : State) : (finish e s).cmd = s.cmd := rfl
@[simp] theorem finish_abortReq (e : ErrCode) (s : State) : (finish e s).abortReq = false := rfl
@[simp] theorem finish_wctr (e : ErrCode) (s : State) : (finish e s).wctr = s.wctr := rfl
@[simp] theorem finish_vidx (e : ErrCode) (s : State) : (finish e s).vidx = s.vidx := rfl
@[simp] theorem finish_vbase (e : ErrCode) (s : State) : (finish e s).vbase = s.vbase := rfl
@[simp] theorem finish_tcRem (e : ErrCode) (s : State) : (finish e s).tcRem = s.tcRem := rfl
@[simp] theorem finish_resp (e : ErrCode) (s : State) : (finish e s).resp = none := rfl
@[simp] theorem finish_req (e : ErrCode) (s : State) : (finish e s).req = s.req := rfl
@[simp] theorem finish_turns (e : ErrCode) (s : State) : (finish e s).turns = s.turns := rfl
@[simp] theorem finish_hostRead (e : ErrCode) (s : State) : (finish e s).hostRead = s.hostRead := rfl
@[simp] theorem finish_draws (e : ErrCode) (s : State) : (finish e s).draws = s.draws := rfl

@[simp] theorem accept_params (w : Word) (s : State) : (accept w s).params = s.params := rfl
@[simp] theorem accept_done (w : Word) (s : State) : (accept w s).done = false := rfl
@[simp] theorem accept_valid (w : Word) (s : State) : (accept w s).valid = s.valid := rfl
@[simp] theorem accept_matchIdx (w : Word) (s : State) : (accept w s).matchIdx = s.matchIdx := rfl
@[simp] theorem accept_kovf (w : Word) (s : State) : (accept w s).kovf = s.kovf := rfl
@[simp] theorem accept_ovr (w : Word) (s : State) : (accept w s).ovr = s.ovr := rfl
@[simp] theorem accept_err (w : Word) (s : State) : (accept w s).err = s.err := rfl
@[simp] theorem accept_ie (w : Word) (s : State) : (accept w s).ie = s.ie := rfl
@[simp] theorem accept_key (w : Word) (s : State) : (accept w s).key = s.key := rfl
@[simp] theorem accept_keyLen (w : Word) (s : State) : (accept w s).keyLen = s.keyLen := rfl
@[simp] theorem accept_acc (w : Word) (s : State) : (accept w s).acc = s.acc := rfl
@[simp] theorem accept_bitcnt (w : Word) (s : State) : (accept w s).bitcnt = s.bitcnt := rfl
@[simp] theorem accept_digits (w : Word) (s : State) : (accept w s).digits = s.digits := rfl
@[simp] theorem accept_ctrLo (w : Word) (s : State) : (accept w s).ctrLo = s.ctrLo := rfl
@[simp] theorem accept_ctrHi (w : Word) (s : State) : (accept w s).ctrHi = s.ctrHi := rfl
@[simp] theorem accept_nowLo (w : Word) (s : State) : (accept w s).nowLo = s.nowLo := rfl
@[simp] theorem accept_nowHi (w : Word) (s : State) : (accept w s).nowHi = s.nowHi := rfl
@[simp] theorem accept_remain (w : Word) (s : State) : (accept w s).remain = s.remain := rfl
@[simp] theorem accept_offs (w : Word) (s : State) : (accept w s).offs = s.offs := rfl
@[simp] theorem accept_pval (w : Word) (s : State) : (accept w s).pval = s.pval := rfl
@[simp] theorem accept_codeNum (w : Word) (s : State) : (accept w s).codeNum = s.codeNum := rfl
@[simp] theorem accept_candLen (w : Word) (s : State) : (accept w s).candLen = s.candLen := rfl
@[simp] theorem accept_cand (w : Word) (s : State) : (accept w s).cand = s.cand := rfl
@[simp] theorem accept_code (w : Word) (s : State) : (accept w s).code = s.code := rfl
@[simp] theorem accept_h (w : Word) (s : State) : (accept w s).h = s.h := rfl
@[simp] theorem accept_fsm (w : Word) (s : State) : (accept w s).fsm = .exec := rfl
@[simp] theorem accept_cmd (w : Word) (s : State) : (accept w s).cmd = w := rfl
@[simp] theorem accept_abortReq (w : Word) (s : State) : (accept w s).abortReq = s.abortReq := rfl
@[simp] theorem accept_wctr (w : Word) (s : State) : (accept w s).wctr = s.wctr := rfl
@[simp] theorem accept_vidx (w : Word) (s : State) : (accept w s).vidx = s.vidx := rfl
@[simp] theorem accept_vbase (w : Word) (s : State) : (accept w s).vbase = s.vbase := rfl
@[simp] theorem accept_tcRem (w : Word) (s : State) : (accept w s).tcRem = s.tcRem := rfl
@[simp] theorem accept_resp (w : Word) (s : State) : (accept w s).resp = s.resp := rfl
@[simp] theorem accept_req (w : Word) (s : State) : (accept w s).req = s.req := rfl
@[simp] theorem accept_turns (w : Word) (s : State) : (accept w s).turns = s.turns := rfl
@[simp] theorem accept_hostRead (w : Word) (s : State) : (accept w s).hostRead = s.hostRead := rfl
@[simp] theorem accept_draws (w : Word) (s : State) : (accept w s).draws = s.draws := rfl

@[simp] theorem hmacRequest_params (k : List Byte) (m : Message) (s : State) : (hmacRequest k m s).params = s.params := rfl
@[simp] theorem hmacRequest_done (k : List Byte) (m : Message) (s : State) : (hmacRequest k m s).done = s.done := rfl
@[simp] theorem hmacRequest_valid (k : List Byte) (m : Message) (s : State) : (hmacRequest k m s).valid = s.valid := rfl
@[simp] theorem hmacRequest_matchIdx (k : List Byte) (m : Message) (s : State) : (hmacRequest k m s).matchIdx = s.matchIdx := rfl
@[simp] theorem hmacRequest_kovf (k : List Byte) (m : Message) (s : State) : (hmacRequest k m s).kovf = s.kovf := rfl
@[simp] theorem hmacRequest_ovr (k : List Byte) (m : Message) (s : State) : (hmacRequest k m s).ovr = s.ovr := rfl
@[simp] theorem hmacRequest_err (k : List Byte) (m : Message) (s : State) : (hmacRequest k m s).err = s.err := rfl
@[simp] theorem hmacRequest_ie (k : List Byte) (m : Message) (s : State) : (hmacRequest k m s).ie = s.ie := rfl
@[simp] theorem hmacRequest_key (k : List Byte) (m : Message) (s : State) : (hmacRequest k m s).key = s.key := rfl
@[simp] theorem hmacRequest_keyLen (k : List Byte) (m : Message) (s : State) : (hmacRequest k m s).keyLen = s.keyLen := rfl
@[simp] theorem hmacRequest_acc (k : List Byte) (m : Message) (s : State) : (hmacRequest k m s).acc = s.acc := rfl
@[simp] theorem hmacRequest_bitcnt (k : List Byte) (m : Message) (s : State) : (hmacRequest k m s).bitcnt = s.bitcnt := rfl
@[simp] theorem hmacRequest_digits (k : List Byte) (m : Message) (s : State) : (hmacRequest k m s).digits = s.digits := rfl
@[simp] theorem hmacRequest_ctrLo (k : List Byte) (m : Message) (s : State) : (hmacRequest k m s).ctrLo = s.ctrLo := rfl
@[simp] theorem hmacRequest_ctrHi (k : List Byte) (m : Message) (s : State) : (hmacRequest k m s).ctrHi = s.ctrHi := rfl
@[simp] theorem hmacRequest_nowLo (k : List Byte) (m : Message) (s : State) : (hmacRequest k m s).nowLo = s.nowLo := rfl
@[simp] theorem hmacRequest_nowHi (k : List Byte) (m : Message) (s : State) : (hmacRequest k m s).nowHi = s.nowHi := rfl
@[simp] theorem hmacRequest_remain (k : List Byte) (m : Message) (s : State) : (hmacRequest k m s).remain = s.remain := rfl
@[simp] theorem hmacRequest_offs (k : List Byte) (m : Message) (s : State) : (hmacRequest k m s).offs = s.offs := rfl
@[simp] theorem hmacRequest_pval (k : List Byte) (m : Message) (s : State) : (hmacRequest k m s).pval = s.pval := rfl
@[simp] theorem hmacRequest_codeNum (k : List Byte) (m : Message) (s : State) : (hmacRequest k m s).codeNum = s.codeNum := rfl
@[simp] theorem hmacRequest_candLen (k : List Byte) (m : Message) (s : State) : (hmacRequest k m s).candLen = s.candLen := rfl
@[simp] theorem hmacRequest_cand (k : List Byte) (m : Message) (s : State) : (hmacRequest k m s).cand = s.cand := rfl
@[simp] theorem hmacRequest_code (k : List Byte) (m : Message) (s : State) : (hmacRequest k m s).code = s.code := rfl
@[simp] theorem hmacRequest_h (k : List Byte) (m : Message) (s : State) : (hmacRequest k m s).h = s.h := rfl
@[simp] theorem hmacRequest_fsm (k : List Byte) (m : Message) (s : State) : (hmacRequest k m s).fsm = .wait := rfl
@[simp] theorem hmacRequest_cmd (k : List Byte) (m : Message) (s : State) : (hmacRequest k m s).cmd = s.cmd := rfl
@[simp] theorem hmacRequest_abortReq (k : List Byte) (m : Message) (s : State) : (hmacRequest k m s).abortReq = s.abortReq := rfl
@[simp] theorem hmacRequest_wctr (k : List Byte) (m : Message) (s : State) : (hmacRequest k m s).wctr = s.wctr := rfl
@[simp] theorem hmacRequest_vidx (k : List Byte) (m : Message) (s : State) : (hmacRequest k m s).vidx = s.vidx := rfl
@[simp] theorem hmacRequest_vbase (k : List Byte) (m : Message) (s : State) : (hmacRequest k m s).vbase = s.vbase := rfl
@[simp] theorem hmacRequest_tcRem (k : List Byte) (m : Message) (s : State) : (hmacRequest k m s).tcRem = s.tcRem := rfl
@[simp] theorem hmacRequest_resp (k : List Byte) (m : Message) (s : State) : (hmacRequest k m s).resp = s.resp := rfl
@[simp] theorem hmacRequest_req (k : List Byte) (m : Message) (s : State) : (hmacRequest k m s).req = some { key := k, msg := m } := rfl
@[simp] theorem hmacRequest_turns (k : List Byte) (m : Message) (s : State) : (hmacRequest k m s).turns = s.turns := rfl
@[simp] theorem hmacRequest_hostRead (k : List Byte) (m : Message) (s : State) : (hmacRequest k m s).hostRead = s.hostRead := rfl
@[simp] theorem hmacRequest_draws (k : List Byte) (m : Message) (s : State) : (hmacRequest k m s).draws = s.draws := rfl

@[simp] theorem setCtr_params (c : DWord) (s : State) : (setCtr c s).params = s.params := rfl
@[simp] theorem setCtr_done (c : DWord) (s : State) : (setCtr c s).done = s.done := rfl
@[simp] theorem setCtr_valid (c : DWord) (s : State) : (setCtr c s).valid = s.valid := rfl
@[simp] theorem setCtr_matchIdx (c : DWord) (s : State) : (setCtr c s).matchIdx = s.matchIdx := rfl
@[simp] theorem setCtr_kovf (c : DWord) (s : State) : (setCtr c s).kovf = s.kovf := rfl
@[simp] theorem setCtr_ovr (c : DWord) (s : State) : (setCtr c s).ovr = s.ovr := rfl
@[simp] theorem setCtr_err (c : DWord) (s : State) : (setCtr c s).err = s.err := rfl
@[simp] theorem setCtr_ie (c : DWord) (s : State) : (setCtr c s).ie = s.ie := rfl
@[simp] theorem setCtr_key (c : DWord) (s : State) : (setCtr c s).key = s.key := rfl
@[simp] theorem setCtr_keyLen (c : DWord) (s : State) : (setCtr c s).keyLen = s.keyLen := rfl
@[simp] theorem setCtr_acc (c : DWord) (s : State) : (setCtr c s).acc = s.acc := rfl
@[simp] theorem setCtr_bitcnt (c : DWord) (s : State) : (setCtr c s).bitcnt = s.bitcnt := rfl
@[simp] theorem setCtr_digits (c : DWord) (s : State) : (setCtr c s).digits = s.digits := rfl
@[simp] theorem setCtr_ctrLo (c : DWord) (s : State) : (setCtr c s).ctrLo = lowHalf c := rfl
@[simp] theorem setCtr_ctrHi (c : DWord) (s : State) : (setCtr c s).ctrHi = highHalf c := rfl
@[simp] theorem setCtr_nowLo (c : DWord) (s : State) : (setCtr c s).nowLo = s.nowLo := rfl
@[simp] theorem setCtr_nowHi (c : DWord) (s : State) : (setCtr c s).nowHi = s.nowHi := rfl
@[simp] theorem setCtr_remain (c : DWord) (s : State) : (setCtr c s).remain = s.remain := rfl
@[simp] theorem setCtr_offs (c : DWord) (s : State) : (setCtr c s).offs = s.offs := rfl
@[simp] theorem setCtr_pval (c : DWord) (s : State) : (setCtr c s).pval = s.pval := rfl
@[simp] theorem setCtr_codeNum (c : DWord) (s : State) : (setCtr c s).codeNum = s.codeNum := rfl
@[simp] theorem setCtr_candLen (c : DWord) (s : State) : (setCtr c s).candLen = s.candLen := rfl
@[simp] theorem setCtr_cand (c : DWord) (s : State) : (setCtr c s).cand = s.cand := rfl
@[simp] theorem setCtr_code (c : DWord) (s : State) : (setCtr c s).code = s.code := rfl
@[simp] theorem setCtr_h (c : DWord) (s : State) : (setCtr c s).h = s.h := rfl
@[simp] theorem setCtr_fsm (c : DWord) (s : State) : (setCtr c s).fsm = s.fsm := rfl
@[simp] theorem setCtr_cmd (c : DWord) (s : State) : (setCtr c s).cmd = s.cmd := rfl
@[simp] theorem setCtr_abortReq (c : DWord) (s : State) : (setCtr c s).abortReq = s.abortReq := rfl
@[simp] theorem setCtr_wctr (c : DWord) (s : State) : (setCtr c s).wctr = s.wctr := rfl
@[simp] theorem setCtr_vidx (c : DWord) (s : State) : (setCtr c s).vidx = s.vidx := rfl
@[simp] theorem setCtr_vbase (c : DWord) (s : State) : (setCtr c s).vbase = s.vbase := rfl
@[simp] theorem setCtr_tcRem (c : DWord) (s : State) : (setCtr c s).tcRem = s.tcRem := rfl
@[simp] theorem setCtr_resp (c : DWord) (s : State) : (setCtr c s).resp = s.resp := rfl
@[simp] theorem setCtr_req (c : DWord) (s : State) : (setCtr c s).req = s.req := rfl
@[simp] theorem setCtr_turns (c : DWord) (s : State) : (setCtr c s).turns = s.turns := rfl
@[simp] theorem setCtr_hostRead (c : DWord) (s : State) : (setCtr c s).hostRead = s.hostRead := rfl
@[simp] theorem setCtr_draws (c : DWord) (s : State) : (setCtr c s).draws = s.draws := rfl

@[simp] theorem setPacker_params (a : BitVec 7) (n : BitVec 3) (s : State) : (setPacker a n s).params = s.params := rfl
@[simp] theorem setPacker_done (a : BitVec 7) (n : BitVec 3) (s : State) : (setPacker a n s).done = s.done := rfl
@[simp] theorem setPacker_valid (a : BitVec 7) (n : BitVec 3) (s : State) : (setPacker a n s).valid = s.valid := rfl
@[simp] theorem setPacker_matchIdx (a : BitVec 7) (n : BitVec 3) (s : State) : (setPacker a n s).matchIdx = s.matchIdx := rfl
@[simp] theorem setPacker_kovf (a : BitVec 7) (n : BitVec 3) (s : State) : (setPacker a n s).kovf = s.kovf := rfl
@[simp] theorem setPacker_ovr (a : BitVec 7) (n : BitVec 3) (s : State) : (setPacker a n s).ovr = s.ovr := rfl
@[simp] theorem setPacker_err (a : BitVec 7) (n : BitVec 3) (s : State) : (setPacker a n s).err = s.err := rfl
@[simp] theorem setPacker_ie (a : BitVec 7) (n : BitVec 3) (s : State) : (setPacker a n s).ie = s.ie := rfl
@[simp] theorem setPacker_key (a : BitVec 7) (n : BitVec 3) (s : State) : (setPacker a n s).key = s.key := rfl
@[simp] theorem setPacker_keyLen (a : BitVec 7) (n : BitVec 3) (s : State) : (setPacker a n s).keyLen = s.keyLen := rfl
@[simp] theorem setPacker_acc (a : BitVec 7) (n : BitVec 3) (s : State) : (setPacker a n s).acc = a := rfl
@[simp] theorem setPacker_bitcnt (a : BitVec 7) (n : BitVec 3) (s : State) : (setPacker a n s).bitcnt = n := rfl
@[simp] theorem setPacker_digits (a : BitVec 7) (n : BitVec 3) (s : State) : (setPacker a n s).digits = s.digits := rfl
@[simp] theorem setPacker_ctrLo (a : BitVec 7) (n : BitVec 3) (s : State) : (setPacker a n s).ctrLo = s.ctrLo := rfl
@[simp] theorem setPacker_ctrHi (a : BitVec 7) (n : BitVec 3) (s : State) : (setPacker a n s).ctrHi = s.ctrHi := rfl
@[simp] theorem setPacker_nowLo (a : BitVec 7) (n : BitVec 3) (s : State) : (setPacker a n s).nowLo = s.nowLo := rfl
@[simp] theorem setPacker_nowHi (a : BitVec 7) (n : BitVec 3) (s : State) : (setPacker a n s).nowHi = s.nowHi := rfl
@[simp] theorem setPacker_remain (a : BitVec 7) (n : BitVec 3) (s : State) : (setPacker a n s).remain = s.remain := rfl
@[simp] theorem setPacker_offs (a : BitVec 7) (n : BitVec 3) (s : State) : (setPacker a n s).offs = s.offs := rfl
@[simp] theorem setPacker_pval (a : BitVec 7) (n : BitVec 3) (s : State) : (setPacker a n s).pval = s.pval := rfl
@[simp] theorem setPacker_codeNum (a : BitVec 7) (n : BitVec 3) (s : State) : (setPacker a n s).codeNum = s.codeNum := rfl
@[simp] theorem setPacker_candLen (a : BitVec 7) (n : BitVec 3) (s : State) : (setPacker a n s).candLen = s.candLen := rfl
@[simp] theorem setPacker_cand (a : BitVec 7) (n : BitVec 3) (s : State) : (setPacker a n s).cand = s.cand := rfl
@[simp] theorem setPacker_code (a : BitVec 7) (n : BitVec 3) (s : State) : (setPacker a n s).code = s.code := rfl
@[simp] theorem setPacker_h (a : BitVec 7) (n : BitVec 3) (s : State) : (setPacker a n s).h = s.h := rfl
@[simp] theorem setPacker_fsm (a : BitVec 7) (n : BitVec 3) (s : State) : (setPacker a n s).fsm = s.fsm := rfl
@[simp] theorem setPacker_cmd (a : BitVec 7) (n : BitVec 3) (s : State) : (setPacker a n s).cmd = s.cmd := rfl
@[simp] theorem setPacker_abortReq (a : BitVec 7) (n : BitVec 3) (s : State) : (setPacker a n s).abortReq = s.abortReq := rfl
@[simp] theorem setPacker_wctr (a : BitVec 7) (n : BitVec 3) (s : State) : (setPacker a n s).wctr = s.wctr := rfl
@[simp] theorem setPacker_vidx (a : BitVec 7) (n : BitVec 3) (s : State) : (setPacker a n s).vidx = s.vidx := rfl
@[simp] theorem setPacker_vbase (a : BitVec 7) (n : BitVec 3) (s : State) : (setPacker a n s).vbase = s.vbase := rfl
@[simp] theorem setPacker_tcRem (a : BitVec 7) (n : BitVec 3) (s : State) : (setPacker a n s).tcRem = s.tcRem := rfl
@[simp] theorem setPacker_resp (a : BitVec 7) (n : BitVec 3) (s : State) : (setPacker a n s).resp = s.resp := rfl
@[simp] theorem setPacker_req (a : BitVec 7) (n : BitVec 3) (s : State) : (setPacker a n s).req = s.req := rfl
@[simp] theorem setPacker_turns (a : BitVec 7) (n : BitVec 3) (s : State) : (setPacker a n s).turns = s.turns := rfl
@[simp] theorem setPacker_hostRead (a : BitVec 7) (n : BitVec 3) (s : State) : (setPacker a n s).hostRead = s.hostRead := rfl
@[simp] theorem setPacker_draws (a : BitVec 7) (n : BitVec 3) (s : State) : (setPacker a n s).draws = s.draws := rfl

@[simp] theorem storeKeyByte_params (b : Byte) (s : State) : (storeKeyByte b s).params = s.params := rfl
@[simp] theorem storeKeyByte_done (b : Byte) (s : State) : (storeKeyByte b s).done = s.done := rfl
@[simp] theorem storeKeyByte_valid (b : Byte) (s : State) : (storeKeyByte b s).valid = s.valid := rfl
@[simp] theorem storeKeyByte_matchIdx (b : Byte) (s : State) : (storeKeyByte b s).matchIdx = s.matchIdx := rfl
@[simp] theorem storeKeyByte_kovf (b : Byte) (s : State) : (storeKeyByte b s).kovf = s.kovf := rfl
@[simp] theorem storeKeyByte_ovr (b : Byte) (s : State) : (storeKeyByte b s).ovr = s.ovr := rfl
@[simp] theorem storeKeyByte_err (b : Byte) (s : State) : (storeKeyByte b s).err = s.err := rfl
@[simp] theorem storeKeyByte_ie (b : Byte) (s : State) : (storeKeyByte b s).ie = s.ie := rfl
@[simp] theorem storeKeyByte_key (b : Byte) (s : State) : (storeKeyByte b s).key = s.key.set s.keyLen b := rfl
@[simp] theorem storeKeyByte_keyLen (b : Byte) (s : State) : (storeKeyByte b s).keyLen = s.keyLen + 1 := rfl
@[simp] theorem storeKeyByte_acc (b : Byte) (s : State) : (storeKeyByte b s).acc = s.acc := rfl
@[simp] theorem storeKeyByte_bitcnt (b : Byte) (s : State) : (storeKeyByte b s).bitcnt = s.bitcnt := rfl
@[simp] theorem storeKeyByte_digits (b : Byte) (s : State) : (storeKeyByte b s).digits = s.digits := rfl
@[simp] theorem storeKeyByte_ctrLo (b : Byte) (s : State) : (storeKeyByte b s).ctrLo = s.ctrLo := rfl
@[simp] theorem storeKeyByte_ctrHi (b : Byte) (s : State) : (storeKeyByte b s).ctrHi = s.ctrHi := rfl
@[simp] theorem storeKeyByte_nowLo (b : Byte) (s : State) : (storeKeyByte b s).nowLo = s.nowLo := rfl
@[simp] theorem storeKeyByte_nowHi (b : Byte) (s : State) : (storeKeyByte b s).nowHi = s.nowHi := rfl
@[simp] theorem storeKeyByte_remain (b : Byte) (s : State) : (storeKeyByte b s).remain = s.remain := rfl
@[simp] theorem storeKeyByte_offs (b : Byte) (s : State) : (storeKeyByte b s).offs = s.offs := rfl
@[simp] theorem storeKeyByte_pval (b : Byte) (s : State) : (storeKeyByte b s).pval = s.pval := rfl
@[simp] theorem storeKeyByte_codeNum (b : Byte) (s : State) : (storeKeyByte b s).codeNum = s.codeNum := rfl
@[simp] theorem storeKeyByte_candLen (b : Byte) (s : State) : (storeKeyByte b s).candLen = s.candLen := rfl
@[simp] theorem storeKeyByte_cand (b : Byte) (s : State) : (storeKeyByte b s).cand = s.cand := rfl
@[simp] theorem storeKeyByte_code (b : Byte) (s : State) : (storeKeyByte b s).code = s.code := rfl
@[simp] theorem storeKeyByte_h (b : Byte) (s : State) : (storeKeyByte b s).h = s.h := rfl
@[simp] theorem storeKeyByte_fsm (b : Byte) (s : State) : (storeKeyByte b s).fsm = s.fsm := rfl
@[simp] theorem storeKeyByte_cmd (b : Byte) (s : State) : (storeKeyByte b s).cmd = s.cmd := rfl
@[simp] theorem storeKeyByte_abortReq (b : Byte) (s : State) : (storeKeyByte b s).abortReq = s.abortReq := rfl
@[simp] theorem storeKeyByte_wctr (b : Byte) (s : State) : (storeKeyByte b s).wctr = s.wctr := rfl
@[simp] theorem storeKeyByte_vidx (b : Byte) (s : State) : (storeKeyByte b s).vidx = s.vidx := rfl
@[simp] theorem storeKeyByte_vbase (b : Byte) (s : State) : (storeKeyByte b s).vbase = s.vbase := rfl
@[simp] theorem storeKeyByte_tcRem (b : Byte) (s : State) : (storeKeyByte b s).tcRem = s.tcRem := rfl
@[simp] theorem storeKeyByte_resp (b : Byte) (s : State) : (storeKeyByte b s).resp = s.resp := rfl
@[simp] theorem storeKeyByte_req (b : Byte) (s : State) : (storeKeyByte b s).req = s.req := rfl
@[simp] theorem storeKeyByte_turns (b : Byte) (s : State) : (storeKeyByte b s).turns = s.turns := rfl
@[simp] theorem storeKeyByte_hostRead (b : Byte) (s : State) : (storeKeyByte b s).hostRead = s.hostRead := rfl
@[simp] theorem storeKeyByte_draws (b : Byte) (s : State) : (storeKeyByte b s).draws = s.draws := rfl

@[simp] theorem clearKey_params (s : State) : (clearKey s).params = s.params := rfl
@[simp] theorem clearKey_done (s : State) : (clearKey s).done = s.done := rfl
@[simp] theorem clearKey_valid (s : State) : (clearKey s).valid = s.valid := rfl
@[simp] theorem clearKey_matchIdx (s : State) : (clearKey s).matchIdx = s.matchIdx := rfl
@[simp] theorem clearKey_kovf (s : State) : (clearKey s).kovf = false := rfl
@[simp] theorem clearKey_ovr (s : State) : (clearKey s).ovr = s.ovr := rfl
@[simp] theorem clearKey_err (s : State) : (clearKey s).err = s.err := rfl
@[simp] theorem clearKey_ie (s : State) : (clearKey s).ie = s.ie := rfl
@[simp] theorem clearKey_key (s : State) : (clearKey s).key = List.replicate s.params.keyMax 0 := rfl
@[simp] theorem clearKey_keyLen (s : State) : (clearKey s).keyLen = 0 := rfl
@[simp] theorem clearKey_acc (s : State) : (clearKey s).acc = 0 := rfl
@[simp] theorem clearKey_bitcnt (s : State) : (clearKey s).bitcnt = 0 := rfl
@[simp] theorem clearKey_digits (s : State) : (clearKey s).digits = s.digits := rfl
@[simp] theorem clearKey_ctrLo (s : State) : (clearKey s).ctrLo = s.ctrLo := rfl
@[simp] theorem clearKey_ctrHi (s : State) : (clearKey s).ctrHi = s.ctrHi := rfl
@[simp] theorem clearKey_nowLo (s : State) : (clearKey s).nowLo = s.nowLo := rfl
@[simp] theorem clearKey_nowHi (s : State) : (clearKey s).nowHi = s.nowHi := rfl
@[simp] theorem clearKey_remain (s : State) : (clearKey s).remain = s.remain := rfl
@[simp] theorem clearKey_offs (s : State) : (clearKey s).offs = s.offs := rfl
@[simp] theorem clearKey_pval (s : State) : (clearKey s).pval = s.pval := rfl
@[simp] theorem clearKey_codeNum (s : State) : (clearKey s).codeNum = s.codeNum := rfl
@[simp] theorem clearKey_candLen (s : State) : (clearKey s).candLen = s.candLen := rfl
@[simp] theorem clearKey_cand (s : State) : (clearKey s).cand = s.cand := rfl
@[simp] theorem clearKey_code (s : State) : (clearKey s).code = s.code := rfl
@[simp] theorem clearKey_h (s : State) : (clearKey s).h = s.h := rfl
@[simp] theorem clearKey_fsm (s : State) : (clearKey s).fsm = s.fsm := rfl
@[simp] theorem clearKey_cmd (s : State) : (clearKey s).cmd = s.cmd := rfl
@[simp] theorem clearKey_abortReq (s : State) : (clearKey s).abortReq = s.abortReq := rfl
@[simp] theorem clearKey_wctr (s : State) : (clearKey s).wctr = s.wctr := rfl
@[simp] theorem clearKey_vidx (s : State) : (clearKey s).vidx = s.vidx := rfl
@[simp] theorem clearKey_vbase (s : State) : (clearKey s).vbase = s.vbase := rfl
@[simp] theorem clearKey_tcRem (s : State) : (clearKey s).tcRem = s.tcRem := rfl
@[simp] theorem clearKey_resp (s : State) : (clearKey s).resp = s.resp := rfl
@[simp] theorem clearKey_req (s : State) : (clearKey s).req = s.req := rfl
@[simp] theorem clearKey_turns (s : State) : (clearKey s).turns = s.turns := rfl
@[simp] theorem clearKey_hostRead (s : State) : (clearKey s).hostRead = s.hostRead := rfl
@[simp] theorem clearKey_draws (s : State) : (clearKey s).draws = s.draws := rfl

@[simp] theorem commitCode_params (x : Digest) (d : BitVec 4) (s : State) : (commitCode x d s).params = s.params := rfl
@[simp] theorem commitCode_done (x : Digest) (d : BitVec 4) (s : State) : (commitCode x d s).done = s.done := rfl
@[simp] theorem commitCode_valid (x : Digest) (d : BitVec 4) (s : State) : (commitCode x d s).valid = s.valid := rfl
@[simp] theorem commitCode_matchIdx (x : Digest) (d : BitVec 4) (s : State) : (commitCode x d s).matchIdx = s.matchIdx := rfl
@[simp] theorem commitCode_kovf (x : Digest) (d : BitVec 4) (s : State) : (commitCode x d s).kovf = s.kovf := rfl
@[simp] theorem commitCode_ovr (x : Digest) (d : BitVec 4) (s : State) : (commitCode x d s).ovr = s.ovr := rfl
@[simp] theorem commitCode_err (x : Digest) (d : BitVec 4) (s : State) : (commitCode x d s).err = s.err := rfl
@[simp] theorem commitCode_ie (x : Digest) (d : BitVec 4) (s : State) : (commitCode x d s).ie = s.ie := rfl
@[simp] theorem commitCode_key (x : Digest) (d : BitVec 4) (s : State) : (commitCode x d s).key = s.key := rfl
@[simp] theorem commitCode_keyLen (x : Digest) (d : BitVec 4) (s : State) : (commitCode x d s).keyLen = s.keyLen := rfl
@[simp] theorem commitCode_acc (x : Digest) (d : BitVec 4) (s : State) : (commitCode x d s).acc = s.acc := rfl
@[simp] theorem commitCode_bitcnt (x : Digest) (d : BitVec 4) (s : State) : (commitCode x d s).bitcnt = s.bitcnt := rfl
@[simp] theorem commitCode_digits (x : Digest) (d : BitVec 4) (s : State) : (commitCode x d s).digits = d := rfl
@[simp] theorem commitCode_ctrLo (x : Digest) (d : BitVec 4) (s : State) : (commitCode x d s).ctrLo = s.ctrLo := rfl
@[simp] theorem commitCode_ctrHi (x : Digest) (d : BitVec 4) (s : State) : (commitCode x d s).ctrHi = s.ctrHi := rfl
@[simp] theorem commitCode_nowLo (x : Digest) (d : BitVec 4) (s : State) : (commitCode x d s).nowLo = s.nowLo := rfl
@[simp] theorem commitCode_nowHi (x : Digest) (d : BitVec 4) (s : State) : (commitCode x d s).nowHi = s.nowHi := rfl
@[simp] theorem commitCode_remain (x : Digest) (d : BitVec 4) (s : State) : (commitCode x d s).remain = s.remain := rfl
@[simp] theorem commitCode_offs (x : Digest) (d : BitVec 4) (s : State) : (commitCode x d s).offs = truncOffset x := rfl
@[simp] theorem commitCode_pval (x : Digest) (d : BitVec 4) (s : State) : (commitCode x d s).pval = truncValue x := rfl
@[simp] theorem commitCode_codeNum (x : Digest) (d : BitVec 4) (s : State) : (commitCode x d s).codeNum = BitVec.ofNat 32 (codeNumber x d.toNat) := rfl
@[simp] theorem commitCode_candLen (x : Digest) (d : BitVec 4) (s : State) : (commitCode x d s).candLen = s.candLen := rfl
@[simp] theorem commitCode_cand (x : Digest) (d : BitVec 4) (s : State) : (commitCode x d s).cand = s.cand := rfl
@[simp] theorem commitCode_code (x : Digest) (d : BitVec 4) (s : State) : (commitCode x d s).code = codeBuffer (codeString x d.toNat) := rfl
@[simp] theorem commitCode_h (x : Digest) (d : BitVec 4) (s : State) : (commitCode x d s).h = s.h := rfl
@[simp] theorem commitCode_fsm (x : Digest) (d : BitVec 4) (s : State) : (commitCode x d s).fsm = s.fsm := rfl
@[simp] theorem commitCode_cmd (x : Digest) (d : BitVec 4) (s : State) : (commitCode x d s).cmd = s.cmd := rfl
@[simp] theorem commitCode_abortReq (x : Digest) (d : BitVec 4) (s : State) : (commitCode x d s).abortReq = s.abortReq := rfl
@[simp] theorem commitCode_wctr (x : Digest) (d : BitVec 4) (s : State) : (commitCode x d s).wctr = s.wctr := rfl
@[simp] theorem commitCode_vidx (x : Digest) (d : BitVec 4) (s : State) : (commitCode x d s).vidx = s.vidx := rfl
@[simp] theorem commitCode_vbase (x : Digest) (d : BitVec 4) (s : State) : (commitCode x d s).vbase = s.vbase := rfl
@[simp] theorem commitCode_tcRem (x : Digest) (d : BitVec 4) (s : State) : (commitCode x d s).tcRem = s.tcRem := rfl
@[simp] theorem commitCode_resp (x : Digest) (d : BitVec 4) (s : State) : (commitCode x d s).resp = s.resp := rfl
@[simp] theorem commitCode_req (x : Digest) (d : BitVec 4) (s : State) : (commitCode x d s).req = s.req := rfl
@[simp] theorem commitCode_turns (x : Digest) (d : BitVec 4) (s : State) : (commitCode x d s).turns = s.turns := rfl
@[simp] theorem commitCode_hostRead (x : Digest) (d : BitVec 4) (s : State) : (commitCode x d s).hostRead = s.hostRead := rfl
@[simp] theorem commitCode_draws (x : Digest) (d : BitVec 4) (s : State) : (commitCode x d s).draws = s.draws := rfl

@[simp] theorem setH_params (x : Digest) (s : State) : (setH x s).params = s.params := rfl
@[simp] theorem setH_done (x : Digest) (s : State) : (setH x s).done = s.done := rfl
@[simp] theorem setH_valid (x : Digest) (s : State) : (setH x s).valid = s.valid := rfl
@[simp] theorem setH_matchIdx (x : Digest) (s : State) : (setH x s).matchIdx = s.matchIdx := rfl
@[simp] theorem setH_kovf (x : Digest) (s : State) : (setH x s).kovf = s.kovf := rfl
@[simp] theorem setH_ovr (x : Digest) (s : State) : (setH x s).ovr = s.ovr := rfl
@[simp] theorem setH_err (x : Digest) (s : State) : (setH x s).err = s.err := rfl
@[simp] theorem setH_ie (x : Digest) (s : State) : (setH x s).ie = s.ie := rfl
@[simp] theorem setH_key (x : Digest) (s : State) : (setH x s).key = s.key := rfl
@[simp] theorem setH_keyLen (x : Digest) (s : State) : (setH x s).keyLen = s.keyLen := rfl
@[simp] theorem setH_acc (x : Digest) (s : State) : (setH x s).acc = s.acc := rfl
@[simp] theorem setH_bitcnt (x : Digest) (s : State) : (setH x s).bitcnt = s.bitcnt := rfl
@[simp] theorem setH_digits (x : Digest) (s : State) : (setH x s).digits = s.digits := rfl
@[simp] theorem setH_ctrLo (x : Digest) (s : State) : (setH x s).ctrLo = s.ctrLo := rfl
@[simp] theorem setH_ctrHi (x : Digest) (s : State) : (setH x s).ctrHi = s.ctrHi := rfl
@[simp] theorem setH_nowLo (x : Digest) (s : State) : (setH x s).nowLo = s.nowLo := rfl
@[simp] theorem setH_nowHi (x : Digest) (s : State) : (setH x s).nowHi = s.nowHi := rfl
@[simp] theorem setH_remain (x : Digest) (s : State) : (setH x s).remain = s.remain := rfl
@[simp] theorem setH_offs (x : Digest) (s : State) : (setH x s).offs = s.offs := rfl
@[simp] theorem setH_pval (x : Digest) (s : State) : (setH x s).pval = s.pval := rfl
@[simp] theorem setH_codeNum (x : Digest) (s : State) : (setH x s).codeNum = s.codeNum := rfl
@[simp] theorem setH_candLen (x : Digest) (s : State) : (setH x s).candLen = s.candLen := rfl
@[simp] theorem setH_cand (x : Digest) (s : State) : (setH x s).cand = s.cand := rfl
@[simp] theorem setH_code (x : Digest) (s : State) : (setH x s).code = s.code := rfl
@[simp] theorem setH_h (x : Digest) (s : State) : (setH x s).h = x := rfl
@[simp] theorem setH_fsm (x : Digest) (s : State) : (setH x s).fsm = s.fsm := rfl
@[simp] theorem setH_cmd (x : Digest) (s : State) : (setH x s).cmd = s.cmd := rfl
@[simp] theorem setH_abortReq (x : Digest) (s : State) : (setH x s).abortReq = s.abortReq := rfl
@[simp] theorem setH_wctr (x : Digest) (s : State) : (setH x s).wctr = s.wctr := rfl
@[simp] theorem setH_vidx (x : Digest) (s : State) : (setH x s).vidx = s.vidx := rfl
@[simp] theorem setH_vbase (x : Digest) (s : State) : (setH x s).vbase = s.vbase := rfl
@[simp] theorem setH_tcRem (x : Digest) (s : State) : (setH x s).tcRem = s.tcRem := rfl
@[simp] theorem setH_resp (x : Digest) (s : State) : (setH x s).resp = s.resp := rfl
@[simp] theorem setH_req (x : Digest) (s : State) : (setH x s).req = s.req := rfl
@[simp] theorem setH_turns (x : Digest) (s : State) : (setH x s).turns = s.turns := rfl
@[simp] theorem setH_hostRead (x : Digest) (s : State) : (setH x s).hostRead = s.hostRead := rfl
@[simp] theorem setH_draws (x : Digest) (s : State) : (setH x s).draws = s.draws := rfl

@[simp] theorem setRemain_params (n : Word) (s : State) : (setRemain n s).params = s.params := rfl
@[simp] theorem setRemain_done (n : Word) (s : State) : (setRemain n s).done = s.done := rfl
@[simp] theorem setRemain_valid (n : Word) (s : State) : (setRemain n s).valid = s.valid := rfl
@[simp] theorem setRemain_matchIdx (n : Word) (s : State) : (setRemain n s).matchIdx = s.matchIdx := rfl
@[simp] theorem setRemain_kovf (n : Word) (s : State) : (setRemain n s).kovf = s.kovf := rfl
@[simp] theorem setRemain_ovr (n : Word) (s : State) : (setRemain n s).ovr = s.ovr := rfl
@[simp] theorem setRemain_err (n : Word) (s : State) : (setRemain n s).err = s.err := rfl
@[simp] theorem setRemain_ie (n : Word) (s : State) : (setRemain n s).ie = s.ie := rfl
@[simp] theorem setRemain_key (n : Word) (s : State) : (setRemain n s).key = s.key := rfl
@[simp] theorem setRemain_keyLen (n : Word) (s : State) : (setRemain n s).keyLen = s.keyLen := rfl
@[simp] theorem setRemain_acc (n : Word) (s : State) : (setRemain n s).acc = s.acc := rfl
@[simp] theorem setRemain_bitcnt (n : Word) (s : State) : (setRemain n s).bitcnt = s.bitcnt := rfl
@[simp] theorem setRemain_digits (n : Word) (s : State) : (setRemain n s).digits = s.digits := rfl
@[simp] theorem setRemain_ctrLo (n : Word) (s : State) : (setRemain n s).ctrLo = s.ctrLo := rfl
@[simp] theorem setRemain_ctrHi (n : Word) (s : State) : (setRemain n s).ctrHi = s.ctrHi := rfl
@[simp] theorem setRemain_nowLo (n : Word) (s : State) : (setRemain n s).nowLo = s.nowLo := rfl
@[simp] theorem setRemain_nowHi (n : Word) (s : State) : (setRemain n s).nowHi = s.nowHi := rfl
@[simp] theorem setRemain_remain (n : Word) (s : State) : (setRemain n s).remain = n := rfl
@[simp] theorem setRemain_offs (n : Word) (s : State) : (setRemain n s).offs = s.offs := rfl
@[simp] theorem setRemain_pval (n : Word) (s : State) : (setRemain n s).pval = s.pval := rfl
@[simp] theorem setRemain_codeNum (n : Word) (s : State) : (setRemain n s).codeNum = s.codeNum := rfl
@[simp] theorem setRemain_candLen (n : Word) (s : State) : (setRemain n s).candLen = s.candLen := rfl
@[simp] theorem setRemain_cand (n : Word) (s : State) : (setRemain n s).cand = s.cand := rfl
@[simp] theorem setRemain_code (n : Word) (s : State) : (setRemain n s).code = s.code := rfl
@[simp] theorem setRemain_h (n : Word) (s : State) : (setRemain n s).h = s.h := rfl
@[simp] theorem setRemain_fsm (n : Word) (s : State) : (setRemain n s).fsm = s.fsm := rfl
@[simp] theorem setRemain_cmd (n : Word) (s : State) : (setRemain n s).cmd = s.cmd := rfl
@[simp] theorem setRemain_abortReq (n : Word) (s : State) : (setRemain n s).abortReq = s.abortReq := rfl
@[simp] theorem setRemain_wctr (n : Word) (s : State) : (setRemain n s).wctr = s.wctr := rfl
@[simp] theorem setRemain_vidx (n : Word) (s : State) : (setRemain n s).vidx = s.vidx := rfl
@[simp] theorem setRemain_vbase (n : Word) (s : State) : (setRemain n s).vbase = s.vbase := rfl
@[simp] theorem setRemain_tcRem (n : Word) (s : State) : (setRemain n s).tcRem = s.tcRem := rfl
@[simp] theorem setRemain_resp (n : Word) (s : State) : (setRemain n s).resp = s.resp := rfl
@[simp] theorem setRemain_req (n : Word) (s : State) : (setRemain n s).req = s.req := rfl
@[simp] theorem setRemain_turns (n : Word) (s : State) : (setRemain n s).turns = s.turns := rfl
@[simp] theorem setRemain_hostRead (n : Word) (s : State) : (setRemain n s).hostRead = s.hostRead := rfl
@[simp] theorem setRemain_draws (n : Word) (s : State) : (setRemain n s).draws = s.draws := rfl

@[simp] theorem setVerdict_params (v : Bool) (m : BitVec 2) (s : State) : (setVerdict v m s).params = s.params := rfl
@[simp] theorem setVerdict_done (v : Bool) (m : BitVec 2) (s : State) : (setVerdict v m s).done = s.done := rfl
@[simp] theorem setVerdict_valid (v : Bool) (m : BitVec 2) (s : State) : (setVerdict v m s).valid = v := rfl
@[simp] theorem setVerdict_matchIdx (v : Bool) (m : BitVec 2) (s : State) : (setVerdict v m s).matchIdx = m := rfl
@[simp] theorem setVerdict_kovf (v : Bool) (m : BitVec 2) (s : State) : (setVerdict v m s).kovf = s.kovf := rfl
@[simp] theorem setVerdict_ovr (v : Bool) (m : BitVec 2) (s : State) : (setVerdict v m s).ovr = s.ovr := rfl
@[simp] theorem setVerdict_err (v : Bool) (m : BitVec 2) (s : State) : (setVerdict v m s).err = s.err := rfl
@[simp] theorem setVerdict_ie (v : Bool) (m : BitVec 2) (s : State) : (setVerdict v m s).ie = s.ie := rfl
@[simp] theorem setVerdict_key (v : Bool) (m : BitVec 2) (s : State) : (setVerdict v m s).key = s.key := rfl
@[simp] theorem setVerdict_keyLen (v : Bool) (m : BitVec 2) (s : State) : (setVerdict v m s).keyLen = s.keyLen := rfl
@[simp] theorem setVerdict_acc (v : Bool) (m : BitVec 2) (s : State) : (setVerdict v m s).acc = s.acc := rfl
@[simp] theorem setVerdict_bitcnt (v : Bool) (m : BitVec 2) (s : State) : (setVerdict v m s).bitcnt = s.bitcnt := rfl
@[simp] theorem setVerdict_digits (v : Bool) (m : BitVec 2) (s : State) : (setVerdict v m s).digits = s.digits := rfl
@[simp] theorem setVerdict_ctrLo (v : Bool) (m : BitVec 2) (s : State) : (setVerdict v m s).ctrLo = s.ctrLo := rfl
@[simp] theorem setVerdict_ctrHi (v : Bool) (m : BitVec 2) (s : State) : (setVerdict v m s).ctrHi = s.ctrHi := rfl
@[simp] theorem setVerdict_nowLo (v : Bool) (m : BitVec 2) (s : State) : (setVerdict v m s).nowLo = s.nowLo := rfl
@[simp] theorem setVerdict_nowHi (v : Bool) (m : BitVec 2) (s : State) : (setVerdict v m s).nowHi = s.nowHi := rfl
@[simp] theorem setVerdict_remain (v : Bool) (m : BitVec 2) (s : State) : (setVerdict v m s).remain = s.remain := rfl
@[simp] theorem setVerdict_offs (v : Bool) (m : BitVec 2) (s : State) : (setVerdict v m s).offs = s.offs := rfl
@[simp] theorem setVerdict_pval (v : Bool) (m : BitVec 2) (s : State) : (setVerdict v m s).pval = s.pval := rfl
@[simp] theorem setVerdict_codeNum (v : Bool) (m : BitVec 2) (s : State) : (setVerdict v m s).codeNum = s.codeNum := rfl
@[simp] theorem setVerdict_candLen (v : Bool) (m : BitVec 2) (s : State) : (setVerdict v m s).candLen = s.candLen := rfl
@[simp] theorem setVerdict_cand (v : Bool) (m : BitVec 2) (s : State) : (setVerdict v m s).cand = s.cand := rfl
@[simp] theorem setVerdict_code (v : Bool) (m : BitVec 2) (s : State) : (setVerdict v m s).code = s.code := rfl
@[simp] theorem setVerdict_h (v : Bool) (m : BitVec 2) (s : State) : (setVerdict v m s).h = s.h := rfl
@[simp] theorem setVerdict_fsm (v : Bool) (m : BitVec 2) (s : State) : (setVerdict v m s).fsm = s.fsm := rfl
@[simp] theorem setVerdict_cmd (v : Bool) (m : BitVec 2) (s : State) : (setVerdict v m s).cmd = s.cmd := rfl
@[simp] theorem setVerdict_abortReq (v : Bool) (m : BitVec 2) (s : State) : (setVerdict v m s).abortReq = s.abortReq := rfl
@[simp] theorem setVerdict_wctr (v : Bool) (m : BitVec 2) (s : State) : (setVerdict v m s).wctr = s.wctr := rfl
@[simp] theorem setVerdict_vidx (v : Bool) (m : BitVec 2) (s : State) : (setVerdict v m s).vidx = s.vidx := rfl
@[simp] theorem setVerdict_vbase (v : Bool) (m : BitVec 2) (s : State) : (setVerdict v m s).vbase = s.vbase := rfl
@[simp] theorem setVerdict_tcRem (v : Bool) (m : BitVec 2) (s : State) : (setVerdict v m s).tcRem = s.tcRem := rfl
@[simp] theorem setVerdict_resp (v : Bool) (m : BitVec 2) (s : State) : (setVerdict v m s).resp = s.resp := rfl
@[simp] theorem setVerdict_req (v : Bool) (m : BitVec 2) (s : State) : (setVerdict v m s).req = s.req := rfl
@[simp] theorem setVerdict_turns (v : Bool) (m : BitVec 2) (s : State) : (setVerdict v m s).turns = s.turns := rfl
@[simp] theorem setVerdict_hostRead (v : Bool) (m : BitVec 2) (s : State) : (setVerdict v m s).hostRead = s.hostRead := rfl
@[simp] theorem setVerdict_draws (v : Bool) (m : BitVec 2) (s : State) : (setVerdict v m s).draws = s.draws := rfl

@[simp] theorem tryEntry_params (i : Fin 3) (s : State) : (tryEntry i s).params = s.params := rfl
@[simp] theorem tryEntry_done (i : Fin 3) (s : State) : (tryEntry i s).done = s.done := rfl
@[simp] theorem tryEntry_valid (i : Fin 3) (s : State) : (tryEntry i s).valid = s.valid := rfl
@[simp] theorem tryEntry_matchIdx (i : Fin 3) (s : State) : (tryEntry i s).matchIdx = s.matchIdx := rfl
@[simp] theorem tryEntry_kovf (i : Fin 3) (s : State) : (tryEntry i s).kovf = s.kovf := rfl
@[simp] theorem tryEntry_ovr (i : Fin 3) (s : State) : (tryEntry i s).ovr = s.ovr := rfl
@[simp] theorem tryEntry_err (i : Fin 3) (s : State) : (tryEntry i s).err = s.err := rfl
@[simp] theorem tryEntry_ie (i : Fin 3) (s : State) : (tryEntry i s).ie = s.ie := rfl
@[simp] theorem tryEntry_key (i : Fin 3) (s : State) : (tryEntry i s).key = s.key := rfl
@[simp] theorem tryEntry_keyLen (i : Fin 3) (s : State) : (tryEntry i s).keyLen = s.keyLen := rfl
@[simp] theorem tryEntry_acc (i : Fin 3) (s : State) : (tryEntry i s).acc = s.acc := rfl
@[simp] theorem tryEntry_bitcnt (i : Fin 3) (s : State) : (tryEntry i s).bitcnt = s.bitcnt := rfl
@[simp] theorem tryEntry_digits (i : Fin 3) (s : State) : (tryEntry i s).digits = s.digits := rfl
@[simp] theorem tryEntry_ctrLo (i : Fin 3) (s : State) : (tryEntry i s).ctrLo = s.ctrLo := rfl
@[simp] theorem tryEntry_ctrHi (i : Fin 3) (s : State) : (tryEntry i s).ctrHi = s.ctrHi := rfl
@[simp] theorem tryEntry_nowLo (i : Fin 3) (s : State) : (tryEntry i s).nowLo = s.nowLo := rfl
@[simp] theorem tryEntry_nowHi (i : Fin 3) (s : State) : (tryEntry i s).nowHi = s.nowHi := rfl
@[simp] theorem tryEntry_remain (i : Fin 3) (s : State) : (tryEntry i s).remain = s.remain := rfl
@[simp] theorem tryEntry_offs (i : Fin 3) (s : State) : (tryEntry i s).offs = s.offs := rfl
@[simp] theorem tryEntry_pval (i : Fin 3) (s : State) : (tryEntry i s).pval = s.pval := rfl
@[simp] theorem tryEntry_codeNum (i : Fin 3) (s : State) : (tryEntry i s).codeNum = s.codeNum := rfl
@[simp] theorem tryEntry_candLen (i : Fin 3) (s : State) : (tryEntry i s).candLen = s.candLen := rfl
@[simp] theorem tryEntry_cand (i : Fin 3) (s : State) : (tryEntry i s).cand = s.cand := rfl
@[simp] theorem tryEntry_code (i : Fin 3) (s : State) : (tryEntry i s).code = s.code := rfl
@[simp] theorem tryEntry_h (i : Fin 3) (s : State) : (tryEntry i s).h = s.h := rfl
@[simp] theorem tryEntry_fsm (i : Fin 3) (s : State) : (tryEntry i s).fsm = .wait := rfl
@[simp] theorem tryEntry_cmd (i : Fin 3) (s : State) : (tryEntry i s).cmd = s.cmd := rfl
@[simp] theorem tryEntry_abortReq (i : Fin 3) (s : State) : (tryEntry i s).abortReq = s.abortReq := rfl
@[simp] theorem tryEntry_wctr (i : Fin 3) (s : State) : (tryEntry i s).wctr = windowCounter s.vbase i := rfl
@[simp] theorem tryEntry_vidx (i : Fin 3) (s : State) : (tryEntry i s).vidx = i := rfl
@[simp] theorem tryEntry_vbase (i : Fin 3) (s : State) : (tryEntry i s).vbase = s.vbase := rfl
@[simp] theorem tryEntry_tcRem (i : Fin 3) (s : State) : (tryEntry i s).tcRem = s.tcRem := rfl
@[simp] theorem tryEntry_resp (i : Fin 3) (s : State) : (tryEntry i s).resp = s.resp := rfl
@[simp] theorem tryEntry_req (i : Fin 3) (s : State) : (tryEntry i s).req = some { key := keyBytes s, msg := be64 (windowCounter s.vbase i) } := rfl
@[simp] theorem tryEntry_turns (i : Fin 3) (s : State) : (tryEntry i s).turns = s.turns := rfl
@[simp] theorem tryEntry_hostRead (i : Fin 3) (s : State) : (tryEntry i s).hostRead = s.hostRead := rfl
@[simp] theorem tryEntry_draws (i : Fin 3) (s : State) : (tryEntry i s).draws = s.draws := rfl

@[simp] theorem clearStatus_params (v : Word) (s : State) : (clearStatus v s).params = s.params := rfl
@[simp] theorem clearStatus_done (v : Word) (s : State) : (clearStatus v s).done = (s.done && !v.getLsbD 1) := rfl
@[simp] theorem clearStatus_valid (v : Word) (s : State) : (clearStatus v s).valid = s.valid := rfl
@[simp] theorem clearStatus_matchIdx (v : Word) (s : State) : (clearStatus v s).matchIdx = s.matchIdx := rfl
@[simp] theorem clearStatus_kovf (v : Word) (s : State) : (clearStatus v s).kovf = s.kovf := rfl
@[simp] theorem clearStatus_ovr (v : Word) (s : State) : (clearStatus v s).ovr = (s.ovr && !v.getLsbD 6) := rfl
@[simp] theorem clearStatus_err (v : Word) (s : State) : (clearStatus v s).err = s.err := rfl
@[simp] theorem clearStatus_ie (v : Word) (s : State) : (clearStatus v s).ie = s.ie := rfl
@[simp] theorem clearStatus_key (v : Word) (s : State) : (clearStatus v s).key = s.key := rfl
@[simp] theorem clearStatus_keyLen (v : Word) (s : State) : (clearStatus v s).keyLen = s.keyLen := rfl
@[simp] theorem clearStatus_acc (v : Word) (s : State) : (clearStatus v s).acc = s.acc := rfl
@[simp] theorem clearStatus_bitcnt (v : Word) (s : State) : (clearStatus v s).bitcnt = s.bitcnt := rfl
@[simp] theorem clearStatus_digits (v : Word) (s : State) : (clearStatus v s).digits = s.digits := rfl
@[simp] theorem clearStatus_ctrLo (v : Word) (s : State) : (clearStatus v s).ctrLo = s.ctrLo := rfl
@[simp] theorem clearStatus_ctrHi (v : Word) (s : State) : (clearStatus v s).ctrHi = s.ctrHi := rfl
@[simp] theorem clearStatus_nowLo (v : Word) (s : State) : (clearStatus v s).nowLo = s.nowLo := rfl
@[simp] theorem clearStatus_nowHi (v : Word) (s : State) : (clearStatus v s).nowHi = s.nowHi := rfl
@[simp] theorem clearStatus_remain (v : Word) (s : State) : (clearStatus v s).remain = s.remain := rfl
@[simp] theorem clearStatus_offs (v : Word) (s : State) : (clearStatus v s).offs = s.offs := rfl
@[simp] theorem clearStatus_pval (v : Word) (s : State) : (clearStatus v s).pval = s.pval := rfl
@[simp] theorem clearStatus_codeNum (v : Word) (s : State) : (clearStatus v s).codeNum = s.codeNum := rfl
@[simp] theorem clearStatus_candLen (v : Word) (s : State) : (clearStatus v s).candLen = s.candLen := rfl
@[simp] theorem clearStatus_cand (v : Word) (s : State) : (clearStatus v s).cand = s.cand := rfl
@[simp] theorem clearStatus_code (v : Word) (s : State) : (clearStatus v s).code = s.code := rfl
@[simp] theorem clearStatus_h (v : Word) (s : State) : (clearStatus v s).h = s.h := rfl
@[simp] theorem clearStatus_fsm (v : Word) (s : State) : (clearStatus v s).fsm = s.fsm := rfl
@[simp] theorem clearStatus_cmd (v : Word) (s : State) : (clearStatus v s).cmd = s.cmd := rfl
@[simp] theorem clearStatus_abortReq (v : Word) (s : State) : (clearStatus v s).abortReq = s.abortReq := rfl
@[simp] theorem clearStatus_wctr (v : Word) (s : State) : (clearStatus v s).wctr = s.wctr := rfl
@[simp] theorem clearStatus_vidx (v : Word) (s : State) : (clearStatus v s).vidx = s.vidx := rfl
@[simp] theorem clearStatus_vbase (v : Word) (s : State) : (clearStatus v s).vbase = s.vbase := rfl
@[simp] theorem clearStatus_tcRem (v : Word) (s : State) : (clearStatus v s).tcRem = s.tcRem := rfl
@[simp] theorem clearStatus_resp (v : Word) (s : State) : (clearStatus v s).resp = s.resp := rfl
@[simp] theorem clearStatus_req (v : Word) (s : State) : (clearStatus v s).req = s.req := rfl
@[simp] theorem clearStatus_turns (v : Word) (s : State) : (clearStatus v s).turns = s.turns := rfl
@[simp] theorem clearStatus_hostRead (v : Word) (s : State) : (clearStatus v s).hostRead = s.hostRead := rfl
@[simp] theorem clearStatus_draws (v : Word) (s : State) : (clearStatus v s).draws = s.draws := rfl

@[simp] theorem latchWord_params (w : Word) (s : State) : (latchWord w s).params = s.params := rfl
@[simp] theorem latchWord_done (w : Word) (s : State) : (latchWord w s).done = false := rfl
@[simp] theorem latchWord_valid (w : Word) (s : State) : (latchWord w s).valid = s.valid := rfl
@[simp] theorem latchWord_matchIdx (w : Word) (s : State) : (latchWord w s).matchIdx = s.matchIdx := rfl
@[simp] theorem latchWord_kovf (w : Word) (s : State) : (latchWord w s).kovf = s.kovf := rfl
@[simp] theorem latchWord_ovr (w : Word) (s : State) : (latchWord w s).ovr = s.ovr := rfl
@[simp] theorem latchWord_err (w : Word) (s : State) : (latchWord w s).err = s.err := rfl
@[simp] theorem latchWord_ie (w : Word) (s : State) : (latchWord w s).ie = s.ie := rfl
@[simp] theorem latchWord_key (w : Word) (s : State) : (latchWord w s).key = s.key := rfl
@[simp] theorem latchWord_keyLen (w : Word) (s : State) : (latchWord w s).keyLen = s.keyLen := rfl
@[simp] theorem latchWord_acc (w : Word) (s : State) : (latchWord w s).acc = s.acc := rfl
@[simp] theorem latchWord_bitcnt (w : Word) (s : State) : (latchWord w s).bitcnt = s.bitcnt := rfl
@[simp] theorem latchWord_digits (w : Word) (s : State) : (latchWord w s).digits = s.digits := rfl
@[simp] theorem latchWord_ctrLo (w : Word) (s : State) : (latchWord w s).ctrLo = s.ctrLo := rfl
@[simp] theorem latchWord_ctrHi (w : Word) (s : State) : (latchWord w s).ctrHi = s.ctrHi := rfl
@[simp] theorem latchWord_nowLo (w : Word) (s : State) : (latchWord w s).nowLo = s.nowLo := rfl
@[simp] theorem latchWord_nowHi (w : Word) (s : State) : (latchWord w s).nowHi = s.nowHi := rfl
@[simp] theorem latchWord_remain (w : Word) (s : State) : (latchWord w s).remain = s.remain := rfl
@[simp] theorem latchWord_offs (w : Word) (s : State) : (latchWord w s).offs = s.offs := rfl
@[simp] theorem latchWord_pval (w : Word) (s : State) : (latchWord w s).pval = s.pval := rfl
@[simp] theorem latchWord_codeNum (w : Word) (s : State) : (latchWord w s).codeNum = s.codeNum := rfl
@[simp] theorem latchWord_candLen (w : Word) (s : State) : (latchWord w s).candLen = s.candLen := rfl
@[simp] theorem latchWord_cand (w : Word) (s : State) : (latchWord w s).cand = s.cand := rfl
@[simp] theorem latchWord_code (w : Word) (s : State) : (latchWord w s).code = s.code := rfl
@[simp] theorem latchWord_h (w : Word) (s : State) : (latchWord w s).h = s.h := rfl
@[simp] theorem latchWord_fsm (w : Word) (s : State) : (latchWord w s).fsm = .exec := rfl
@[simp] theorem latchWord_cmd (w : Word) (s : State) : (latchWord w s).cmd = w := rfl
@[simp] theorem latchWord_abortReq (w : Word) (s : State) : (latchWord w s).abortReq = false := rfl
@[simp] theorem latchWord_wctr (w : Word) (s : State) : (latchWord w s).wctr = s.wctr := rfl
@[simp] theorem latchWord_vidx (w : Word) (s : State) : (latchWord w s).vidx = s.vidx := rfl
@[simp] theorem latchWord_vbase (w : Word) (s : State) : (latchWord w s).vbase = s.vbase := rfl
@[simp] theorem latchWord_tcRem (w : Word) (s : State) : (latchWord w s).tcRem = s.tcRem := rfl
@[simp] theorem latchWord_resp (w : Word) (s : State) : (latchWord w s).resp = none := rfl
@[simp] theorem latchWord_req (w : Word) (s : State) : (latchWord w s).req = none := rfl
@[simp] theorem latchWord_turns (w : Word) (s : State) : (latchWord w s).turns = .core :: s.turns := rfl
@[simp] theorem latchWord_hostRead (w : Word) (s : State) : (latchWord w s).hostRead = s.hostRead := rfl
@[simp] theorem latchWord_draws (w : Word) (s : State) : (latchWord w s).draws = s.draws := rfl

@[simp] theorem resetEvent_params (s : State) : (resetEvent s).params = s.params := rfl
@[simp] theorem resetEvent_done (s : State) : (resetEvent s).done = false := rfl
@[simp] theorem resetEvent_valid (s : State) : (resetEvent s).valid = false := rfl
@[simp] theorem resetEvent_matchIdx (s : State) : (resetEvent s).matchIdx = 0 := rfl
@[simp] theorem resetEvent_kovf (s : State) : (resetEvent s).kovf = false := rfl
@[simp] theorem resetEvent_ovr (s : State) : (resetEvent s).ovr = false := rfl
@[simp] theorem resetEvent_err (s : State) : (resetEvent s).err = .none := rfl
@[simp] theorem resetEvent_ie (s : State) : (resetEvent s).ie = false := rfl
@[simp] theorem resetEvent_key (s : State) : (resetEvent s).key = List.replicate s.params.keyMax 0 := rfl
@[simp] theorem resetEvent_keyLen (s : State) : (resetEvent s).keyLen = 0 := rfl
@[simp] theorem resetEvent_acc (s : State) : (resetEvent s).acc = 0 := rfl
@[simp] theorem resetEvent_bitcnt (s : State) : (resetEvent s).bitcnt = 0 := rfl
@[simp] theorem resetEvent_digits (s : State) : (resetEvent s).digits = 0 := rfl
@[simp] theorem resetEvent_ctrLo (s : State) : (resetEvent s).ctrLo = 0 := rfl
@[simp] theorem resetEvent_ctrHi (s : State) : (resetEvent s).ctrHi = 0 := rfl
@[simp] theorem resetEvent_nowLo (s : State) : (resetEvent s).nowLo = 0 := rfl
@[simp] theorem resetEvent_nowHi (s : State) : (resetEvent s).nowHi = 0 := rfl
@[simp] theorem resetEvent_remain (s : State) : (resetEvent s).remain = 0 := rfl
@[simp] theorem resetEvent_offs (s : State) : (resetEvent s).offs = 0 := rfl
@[simp] theorem resetEvent_pval (s : State) : (resetEvent s).pval = 0 := rfl
@[simp] theorem resetEvent_codeNum (s : State) : (resetEvent s).codeNum = 0 := rfl
@[simp] theorem resetEvent_candLen (s : State) : (resetEvent s).candLen = 0 := rfl
@[simp] theorem resetEvent_cand (s : State) : (resetEvent s).cand = Vector.replicate 16 0 := rfl
@[simp] theorem resetEvent_code (s : State) : (resetEvent s).code = Vector.replicate 16 0 := rfl
@[simp] theorem resetEvent_h (s : State) : (resetEvent s).h = Vector.replicate 20 0 := rfl
@[simp] theorem resetEvent_fsm (s : State) : (resetEvent s).fsm = .idle := rfl
@[simp] theorem resetEvent_cmd (s : State) : (resetEvent s).cmd = 0 := rfl
@[simp] theorem resetEvent_abortReq (s : State) : (resetEvent s).abortReq = false := rfl
@[simp] theorem resetEvent_wctr (s : State) : (resetEvent s).wctr = 0 := rfl
@[simp] theorem resetEvent_vidx (s : State) : (resetEvent s).vidx = 0 := rfl
@[simp] theorem resetEvent_vbase (s : State) : (resetEvent s).vbase = 0 := rfl
@[simp] theorem resetEvent_tcRem (s : State) : (resetEvent s).tcRem = 0 := rfl
@[simp] theorem resetEvent_resp (s : State) : (resetEvent s).resp = none := rfl
@[simp] theorem resetEvent_req (s : State) : (resetEvent s).req = none := rfl
@[simp] theorem resetEvent_turns (s : State) : (resetEvent s).turns = s.turns := rfl
@[simp] theorem resetEvent_hostRead (s : State) : (resetEvent s).hostRead = s.hostRead := rfl
@[simp] theorem resetEvent_draws (s : State) : (resetEvent s).draws = s.draws := rfl

end Sys2Proof.Machine
end

