-- ==== Sys2Proof/Laws/Ops.lean ====
section
/-! SUPPORT. One lemma per shared operation that says everything it can do. -/

namespace Sys2Proof.Machine

@[simp] theorem clearsVerdict_none (s : State) : clearsVerdict .none s = false := by
  simp [clearsVerdict]

/-- commit always completes, with finish(NONE). -/
@[simp] theorem commit_eq_next {s t : State} : commit s = .next t ↔ finish .none s = t := by
  simp [commit]

/-- raise always completes, with finish(E). -/
@[simp] theorem raise_eq_next {e : ErrCode} {s t : State} : raise e s = .next t ↔ finish e s = t := by
  simp [raise]

/-- overflow always completes: KOVF is set and the code is KEY_OVERFLOW. -/
@[simp] theorem overflow_eq_next {s t : State} :
    overflow s = .next t ↔ finish .keyOverflow (setKovf s) = t := by
  simp [overflow]

@[simp] theorem next_eq_commit {s t : State} : .next t = commit s ↔ t = finish .none s := by
  simp [commit]
@[simp] theorem next_eq_raise {e : ErrCode} {s t : State} : .next t = raise e s ↔ t = finish e s := by
  simp [raise]
@[simp] theorem next_eq_overflow {s t : State} :
    .next t = overflow s ↔ t = finish .keyOverflow (setKovf s) := by
  simp [overflow]

@[simp] theorem commit_ne_fault {s : State} {f : Fault} : commit s ≠ .fault f := by simp [commit]
@[simp] theorem raise_ne_fault {e : ErrCode} {s : State} {f : Fault} : raise e s ≠ .fault f := by
  simp [raise]
@[simp] theorem overflow_ne_fault {s : State} {f : Fault} : overflow s ≠ .fault f := by simp [overflow]
@[simp] theorem commit_ne_refused {s : State} {r : Refusal} : commit s ≠ .refused r := by
  simp [commit]
@[simp] theorem raise_ne_refused {e : ErrCode} {s : State} {r : Refusal} : raise e s ≠ .refused r := by
  simp [raise]
@[simp] theorem overflow_ne_refused {s : State} {r : Refusal} : overflow s ≠ .refused r := by
  simp [overflow]

/-- A response step goes on with the digest, or ends with CRYPTO_ERROR. -/
theorem withDigest_next {s t : State} {k : Digest → StepResult} (h : withDigest s k = .next t) :
    (∃ x, s.resp = some (.digest x) ∧ k x = .next t) ∨
      (s.resp = some .cryptoError ∧ t = finish .cryptoError s) := by
  unfold withDigest at h
  split at h
  · exact .inl ⟨_, by assumption, h⟩
  · exact .inr ⟨by assumption, by simpa using h.symm⟩
  · cases h

theorem withDigest_digest {s : State} {k : Digest → StepResult} {x : Digest}
    (h : s.resp = some (.digest x)) : withDigest s k = k x := by simp [withDigest, h]

theorem withDigest_cryptoError {s : State} {k : Digest → StepResult}
    (h : s.resp = some .cryptoError) : withDigest s k = .next (finish .cryptoError s) := by
  simp [withDigest, h, raise]

/-- The hmac agent's turn without a request changes nothing. -/
theorem hmacStep_none {d : HmacDraw} {s : State} (h : s.req = none) : hmacStep d s = s := by
  simp [hmacStep, h]

/-- The hmac agent's turn with a request moves it to a response. -/
theorem hmacStep_some {d : HmacDraw} {s : State} {r : HmacReq} (h : s.req = some r) :
    hmacStep d s = hmacAnswer (hmacResponse r d) s := by
  simp [hmacStep, h]

/-- Byte i of a buffer after word k is written. -/
theorem getElem_putWord {n : Nat} (v : Vector Byte n) (k : Nat) (w : Word) (i : Nat) (hi : i < n) :
    (putWord v k w)[i] = if i / 4 = k then byteOfWord w (i % 4) else v[i] := by
  simp [putWord]

/-- Byte i of BE64. -/
theorem getElem_be64 (c : DWord) (i : Nat) (hi : i < 8) :
    (be64 c)[i] = c.extractLsb' (56 - 8 * i) 8 := by
  simp [be64]

/-- The bytes of a packed word are the bytes it was packed from. -/
theorem byteOfWord_packWord (b0 b1 b2 b3 : Byte) :
    byteOfWord (packWord b0 b1 b2 b3) 0 = b0 ∧ byteOfWord (packWord b0 b1 b2 b3) 1 = b1 ∧
      byteOfWord (packWord b0 b1 b2 b3) 2 = b2 ∧ byteOfWord (packWord b0 b1 b2 b3) 3 = b3 := by
  refine ⟨?_, ?_, ?_, ?_⟩ <;> apply BitVec.eq_of_getLsbD_eq <;> intro i hi <;>
    simp only [byteOfWord, packWord, BitVec.getLsbD_append, BitVec.getLsbD_extractLsb'] <;>
    simp [hi, show ¬ 8 + i < 8 by omega, show ¬ 16 + i < 8 by omega, show ¬ 24 + i < 8 by omega,
      show ¬ 16 + i - 8 < 8 by omega, show ¬ 24 + i - 8 < 8 by omega,
      show ¬ 24 + i - 8 - 8 < 8 by omega, show 16 + i - 8 - 8 = i by omega,
      show 24 + i - 8 - 8 - 8 = i by omega]

/-- A word is its four bytes. -/
theorem packWord_byteOfWord (w : Word) :
    packWord (byteOfWord w 0) (byteOfWord w 1) (byteOfWord w 2) (byteOfWord w 3) = w := by
  apply BitVec.eq_of_getLsbD_eq
  intro i hi
  simp only [packWord, byteOfWord, BitVec.getLsbD_append, BitVec.getLsbD_extractLsb']
  by_cases h1 : i < 8
  · simp [h1]
  · by_cases h2 : i < 16
    · have : i - 8 < 8 := by omega
      simp [h1, this, show 8 + (i - 8) = i by omega]
    · by_cases h3 : i < 24
      · have a : ¬ i - 8 < 8 := by omega
        have b : i - 8 - 8 < 8 := by omega
        simp [h1, a, b, show 16 + (i - 8 - 8) = i by omega]
      · have a : ¬ i - 8 < 8 := by omega
        have b : ¬ i - 8 - 8 < 8 := by omega
        have c : i - 8 - 8 - 8 < 8 := by omega
        simp [h1, a, b, c, show 24 + (i - 8 - 8 - 8) = i by omega]

/-- A 64-bit value is its two halves. -/
theorem highHalf_append_lowHalf (c : DWord) : highHalf c ++ lowHalf c = c := by
  apply BitVec.eq_of_getLsbD_eq
  intro i hi
  simp only [highHalf, lowHalf, BitVec.getLsbD_append, BitVec.getLsbD_extractLsb']
  by_cases h : i < 32
  · simp [h]
  · have : i - 32 < 32 := by omega
    simp [h, this, show 32 + (i - 32) = i by omega]

/-- CTR after it is set. -/
@[simp] theorem ctr_setCtr (c : DWord) (s : State) : ctr (setCtr c s) = c := by
  simp [ctr, highHalf_append_lowHalf]

end Sys2Proof.Machine
end

