-- ==== Sys2Proof/Laws/Exec.lean ====
section
/-! SUPPORT. One inversion lemma per command: every way its core step can answer a next state. -/

namespace Sys2Proof.Machine

theorem execNop_next {s t : State} (h : execNop s = .next t) : t = finish .none s := by
  simpa [execNop] using h.symm

theorem execAbort_next {s t : State} (h : execAbort s = .next t) : t = finish .none s := by
  simpa [execAbort] using h.symm

theorem execKeyclr_next {s t : State} (h : execKeyclr s = .next t) :
    t = finish .none (clearKey s) := by
  simpa [execKeyclr] using h.symm

/-- B32PUSH: refused, discarded, packed without a byte, overflowed, or a byte stored. -/
theorem execB32push_next {ch : Byte} {s t : State} (h : execB32push ch s = .next t) :
    (s.kovf = true ∧ t = finish .keyOverflow s) ∨
    (s.kovf = false ∧ b32Index ch = none ∧ t = finish .none s) ∨
    ∃ v, s.kovf = false ∧ b32Index ch = some v ∧
      (((pack s.acc s.bitcnt v).emitted = none ∧
          t = finish .none (setPacker (pack s.acc s.bitcnt v).acc (pack s.acc s.bitcnt v).bitcnt s)) ∨
        ∃ e, (pack s.acc s.bitcnt v).emitted = some e ∧
          ((s.keyLen = s.params.keyMax ∧ t = finish .keyOverflow (setKovf s)) ∨
            (s.keyLen ≠ s.params.keyMax ∧
              t = finish .none (storeKeyByte e
                (setPacker (pack s.acc s.bitcnt v).acc (pack s.acc s.bitcnt v).bitcnt s))))) := by
  unfold execB32push at h
  split at h
  · exact .inl ⟨by assumption, by simpa using h.symm⟩
  · rename_i hk
    have hk : s.kovf = false := by simpa using hk
    split at h
    · exact .inr (.inl ⟨hk, by assumption, by simpa using h.symm⟩)
    · rename_i v hv
      refine .inr (.inr ⟨v, hk, hv, ?_⟩)
      simp only at h
      split at h
      · exact .inl ⟨by assumption, by simpa using h.symm⟩
      · rename_i e he
        refine .inr ⟨e, he, ?_⟩
        split at h
        · rename_i hf
          exact .inl ⟨by simpa [keyFull] using hf, by simpa using h.symm⟩
        · rename_i hf
          exact .inr ⟨by simpa [keyFull] using hf, by simpa using h.symm⟩

/-- KEYPUSH: refused, overflowed, or a byte stored. -/
theorem execKeypush_next {b : Byte} {s t : State} (h : execKeypush b s = .next t) :
    (s.kovf = true ∧ t = finish .keyOverflow s) ∨
    (s.kovf = false ∧ s.keyLen = s.params.keyMax ∧ t = finish .keyOverflow (setKovf s)) ∨
    (s.kovf = false ∧ s.keyLen ≠ s.params.keyMax ∧
      t = finish .none (storeKeyByte b (setPacker 0 0 s))) := by
  unfold execKeypush at h
  split at h
  · exact .inl ⟨by assumption, by simpa using h.symm⟩
  · rename_i hk
    have hk : s.kovf = false := by simpa using hk
    split at h
    · rename_i hf
      exact .inr (.inl ⟨hk, by simpa [keyFull] using hf, by simpa using h.symm⟩)
    · rename_i hf
      exact .inr (.inr ⟨hk, by simpa [keyFull] using hf, by simpa using h.symm⟩)

theorem execTctr_next {s t : State} (h : execTctr s = .next t) :
    t = finish .none (setRemain (nowRemaining s) (setCtr (nowCounter s) s)) := by
  simpa [execTctr] using h.symm

theorem execTrunc_next {d : BitVec 4} {s t : State} (h : execTrunc d s = .next t) :
    (d = 0 ∧ t = finish .illegalCmd s) ∨ (d ≠ 0 ∧ t = finish .none (commitCode s.h d s)) := by
  unfold execTrunc at h
  split at h
  · exact .inl ⟨by assumption, by simpa using h.symm⟩
  · exact .inr ⟨by assumption, by simpa using h.symm⟩

/-- HOTP: the execute step refuses or requests; the response step fails or commits. -/
theorem execHotp_next {d : BitVec 4} {s t : State} (h : execHotp d s = .next t) :
    (s.fsm ≠ .resp ∧
      ((d = 0 ∧ t = finish .illegalCmd s) ∨
        (d ≠ 0 ∧ s.kovf = true ∧ t = finish .keyOverflow s) ∨
        (d ≠ 0 ∧ s.kovf = false ∧
          t = hmacRequest (keyBytes s) (serialize s.ctrHi s.ctrLo) (setWctr (ctr s) s)))) ∨
    (s.fsm = .resp ∧
      ((s.resp = some .cryptoError ∧ t = finish .cryptoError s) ∨
        ∃ x, s.resp = some (.digest x) ∧ t = finish .none (commitCode x d (setH x s)))) := by
  unfold execHotp at h
  split at h
  case h_1 hf =>
    refine .inr ⟨hf, ?_⟩
    rcases withDigest_next h with ⟨x, hx, hc⟩ | hc
    · exact .inr ⟨x, hx, by simpa using hc.symm⟩
    · exact .inl hc
  all_goals
    rename_i hf
    refine .inl ⟨by simp [hf], ?_⟩
    unfold hotpExecute at h
    split at h
    · exact .inl ⟨by assumption, by simpa using h.symm⟩
    · split at h
      · exact .inr (.inl ⟨by assumption, by assumption, by simpa using h.symm⟩)
      · rename_i hk
        exact .inr (.inr ⟨by assumption, by simpa using hk, by simpa using h.symm⟩)

/-- TOTP: the execute step refuses or requests; the response step fails or commits. -/
theorem execTotp_next {d : BitVec 4} {s t : State} (h : execTotp d s = .next t) :
    (s.fsm ≠ .resp ∧
      ((d = 0 ∧ t = finish .illegalCmd s) ∨
        (d ≠ 0 ∧ s.kovf = true ∧ t = finish .keyOverflow s) ∨
        (d ≠ 0 ∧ s.kovf = false ∧ s.keyLen = 0 ∧ t = finish .invalidSecret s) ∨
        (d ≠ 0 ∧ s.kovf = false ∧ s.keyLen ≠ 0 ∧
          t = hmacRequest (keyBytes s) (be64 (nowCounter s))
            (setWctr (nowCounter s) (setTcRem (nowRemaining s) s))))) ∨
    (s.fsm = .resp ∧
      ((s.resp = some .cryptoError ∧ t = finish .cryptoError s) ∨
        ∃ x, s.resp = some (.digest x) ∧
          t = finish .none (commitCode x d (setH x (setRemain s.tcRem (setCtr s.wctr s)))))) := by
  unfold execTotp at h
  split at h
  case h_1 hf =>
    refine .inr ⟨hf, ?_⟩
    rcases withDigest_next h with ⟨x, hx, hc⟩ | hc
    · exact .inr ⟨x, hx, by simpa using hc.symm⟩
    · exact .inl hc
  all_goals
    rename_i hf
    refine .inl ⟨by simp [hf], ?_⟩
    unfold totpExecute at h
    split at h
    · exact .inl ⟨by assumption, by simpa using h.symm⟩
    · split at h
      · exact .inr (.inl ⟨by assumption, by assumption, by simpa using h.symm⟩)
      · rename_i hk
        have hk : s.kovf = false := by simpa using hk
        split at h
        · exact .inr (.inr (.inl ⟨by assumption, hk, by assumption, by simpa using h.symm⟩))
        · exact .inr (.inr (.inr ⟨by assumption, hk, by assumption, by simpa using h.symm⟩))

/-- VERIFY: the execute step refuses or starts the window; the response step fails, gives a verdict, or
tries the next entry. -/
theorem execVerify_next {s t : State} (h : execVerify s = .next t) :
    (s.fsm ≠ .resp ∧
      ((s.kovf = true ∧ t = finish .keyOverflow s) ∨
        (s.kovf = false ∧ s.keyLen = 0 ∧ t = finish .invalidSecret s) ∨
        (s.kovf = false ∧ s.keyLen ≠ 0 ∧
          t = tryEntry (if nowCounter s = 0 then 1 else 0) (setVbase (nowCounter s) s)))) ∨
    (s.fsm = .resp ∧
      ((s.resp = some .cryptoError ∧ t = finish .cryptoError s) ∨
        ∃ x, s.resp = some (.digest x) ∧
          ((candMatches (codeString x 6) s = true ∧
              t = finish .none (setVerdict true (BitVec.ofNat 2 (s.vidx.val + 1)) s)) ∨
            (candMatches (codeString x 6) s = false ∧ s.vidx = 2 ∧
              t = finish .none (setVerdict false 0 s)) ∨
            (candMatches (codeString x 6) s = false ∧ s.vidx ≠ 2 ∧
              t = tryEntry (s.vidx + 1) (dropResp s))))) := by
  unfold execVerify at h
  split at h
  case h_1 hf =>
    refine .inr ⟨hf, ?_⟩
    rcases withDigest_next h with ⟨x, hx, hc⟩ | hc
    · refine .inr ⟨x, hx, ?_⟩
      split at hc
      · exact .inl ⟨by assumption, by simpa using hc.symm⟩
      · rename_i hm
        have hm : candMatches (codeString x 6) s = false := by simpa using hm
        split at hc
        · exact .inr (.inl ⟨hm, by assumption, by simpa using hc.symm⟩)
        · exact .inr (.inr ⟨hm, by assumption, by simpa using hc.symm⟩)
    · exact .inl hc
  all_goals
    rename_i hf
    refine .inl ⟨by simp [hf], ?_⟩
    unfold verifyExecute at h
    split at h
    · exact .inl ⟨by assumption, by simpa using h.symm⟩
    · rename_i hk
      have hk : s.kovf = false := by simpa using hk
      split at h
      · exact .inr (.inl ⟨hk, by assumption, by simpa using h.symm⟩)
      · refine .inr (.inr ⟨hk, by assumption, ?_⟩)
        split at h <;> rename_i hb <;> cases h
        · rw [if_pos hb]
        · rw [if_neg hb]

/-- No command refuses, and one faults only in RESP with no response held. -/
theorem exec_fault {i : Instr} {s : State} {f : Fault} (h : exec i s = .fault f) :
    s.fsm = .resp ∧ s.resp = none := by
  cases i <;>
    simp only [exec, execNop, execAbort, execKeyclr, execB32push, execKeypush, execTctr, execTrunc,
      execHotp, execTotp, execVerify, hotpExecute, hotpRespond, totpExecute, totpRespond,
      verifyExecute, verifyRespond, withDigest] at h <;>
    (repeat' split at h) <;> simp_all

theorem exec_ne_refused {i : Instr} {s : State} {r : Refusal} : exec i s ≠ .refused r := by
  intro h
  cases i <;>
    simp only [exec, execNop, execAbort, execKeyclr, execB32push, execKeypush, execTctr, execTrunc,
      execHotp, execTotp, execVerify, hotpExecute, hotpRespond, totpExecute, totpRespond,
      verifyExecute, verifyRespond, withDigest] at h <;>
    (repeat' split at h) <;> simp_all

end Sys2Proof.Machine
end

