-- ==== Sys2Proof/Laws/PerInstr.lean ====
section
/-! SUPPORT. The family TableRow: the word of a well-formed command agrees with its row of the opcode map
on every fixed bit and is legal (spec/30_encoding.md R85, R86). -/

namespace Sys2Proof.Laws.TableRow

/-- The command's word matches its row of R85. -/
def Statement (i : Instr) : Prop :=
  encode i &&& tableMask i = tableMatch i ∧ (i.WellFormed → legal (encode i) = true)

theorem nop : Statement .nop := by unfold Statement; decide
theorem keyclr : Statement .keyclr := by unfold Statement; decide
theorem b32push (ch : Byte) : Statement (.b32push ch) := by unfold Statement; revert ch; decide
theorem keypush (b : Byte) : Statement (.keypush b) := by unfold Statement; revert b; decide
theorem tctr : Statement .tctr := by unfold Statement; decide
theorem trunc (d : BitVec 4) : Statement (.trunc d) := by unfold Statement; revert d; decide
theorem hotp (d : BitVec 4) : Statement (.hotp d) := by unfold Statement; revert d; decide
theorem totp (d : BitVec 4) : Statement (.totp d) := by unfold Statement; revert d; decide
theorem verify : Statement .verify := by unfold Statement; decide
theorem abort : Statement .abort := by unfold Statement; decide

end Sys2Proof.Laws.TableRow
end

