-- ==== Sys2Proof/Laws/Step.lean ====
section
/-! SUPPORT. What one step can do: one inversion lemma per agent, and one for the machine. -/

namespace Sys2Proof.Machine

open Sys2Proof.Safety

/-- The decoder's answer on an accepted word names OP and DIG of the word. -/
theorem decode_ok_fields {w : Word} {i : Instr} (h : decode w = .ok i) :
    opField w = opField (encode i) ∧ (takesDigits i = true → digField w = digField (encode i)) := by
  have key : ∀ n, (opField w).toNat = n → opField w = BitVec.ofNat 4 n := by
    intro n hn; rw [← hn]; simp
  unfold decode decodePlain decodeData decodeDigits at h
  split at h
  · cases h
  · split at h <;> rename_i hop <;> (repeat' split at h) <;> cases h <;>
      simp [encode, takesDigits, key _ hop]

/-- A response step is exec of the command the latched word decodes to. -/
theorem respondLatched_eq {s : State} {i : Instr} (h : decode s.cmd = .ok i)
    (hr : sendsRequest i = true) : respondLatched s = exec i s := by
  obtain ⟨ho, hd⟩ := decode_ok_fields h
  cases i <;> simp_all [sendsRequest, takesDigits, respondLatched, encode]

/-- The core's step: none, an abort, the decoded command, ILLEGAL_CMD, or a response step. -/
theorem coreStep_next {s t : State} (h : coreStep s = .next t) :
    ((s.fsm = .idle ∨ s.fsm = .wait) ∧ t = s) ∨
    ((s.fsm = .exec ∨ s.fsm = .resp) ∧ s.abortReq = true ∧ t = finish .aborted s) ∨
    (s.fsm = .exec ∧ s.abortReq = false ∧ (∃ e, decode s.cmd = .error e) ∧ t = finish .illegalCmd s) ∨
    (s.fsm = .exec ∧ s.abortReq = false ∧ ∃ i, decode s.cmd = .ok i ∧ exec i s = .next t) ∨
    (s.fsm = .resp ∧ s.abortReq = false ∧ ∃ i, opField s.cmd = opField (encode i) ∧
      (takesDigits i = true → digField s.cmd = digField (encode i)) ∧ sendsRequest i = true ∧
      exec i s = .next t) := by
  unfold coreStep at h
  split at h
  case h_1 hf => exact .inl ⟨.inl hf, by cases h; rfl⟩
  case h_2 hf => exact .inl ⟨.inr hf, by cases h; rfl⟩
  case h_3 hf =>
    split at h
    · rename_i ha
      exact .inr (.inl ⟨.inl hf, ha, by simpa using h.symm⟩)
    · rename_i ha
      have ha : s.abortReq = false := by simpa using ha
      unfold executeLatched at h
      split at h
      · exact .inr (.inr (.inr (.inl ⟨hf, ha, _, by assumption, h⟩)))
      · exact .inr (.inr (.inl ⟨hf, ha, ⟨_, by assumption⟩, by simpa using h.symm⟩))
  case h_4 hf =>
    split at h
    · rename_i ha
      exact .inr (.inl ⟨.inr hf, ha, by simpa using h.symm⟩)
    · rename_i ha
      have ha : s.abortReq = false := by simpa using ha
      have key : ∀ n, (opField s.cmd).toNat = n → opField s.cmd = BitVec.ofNat 4 n := by
        intro n hn; rw [← hn]; simp
      unfold respondLatched at h
      split at h
      case h_1 ho =>
        exact .inr (.inr (.inr (.inr ⟨hf, ha, .hotp (digField s.cmd),
          by simpa [encode] using key _ ho,
          by simp [encode], rfl, h⟩)))
      case h_2 ho =>
        exact .inr (.inr (.inr (.inr ⟨hf, ha, .totp (digField s.cmd),
          by simpa [encode] using key _ ho,
          by simp [encode], rfl, h⟩)))
      case h_3 ho =>
        exact .inr (.inr (.inr (.inr ⟨hf, ha, .verify,
          by simpa [encode] using key _ ho, by simp [takesDigits], rfl, h⟩)))
      case h_4 => cases h

/-- The host's step: a read, a write, or the reset event. -/
theorem hostStep_next {op : HostOp} {s t : State} (h : hostStep op s = .next t) :
    (∃ width off, op = .rd width off ∧ admitted width off = true ∧
      t = answerHost (readReg (regAt off) s) s) ∨
    (∃ width off v, op = .wr width off v ∧ admitted width off = true ∧
      t = writeReg (regAt off) v s) ∨
    (op = .rst ∧ t = resetEvent s) := by
  cases op with
  | rd width off =>
    simp only [hostStep] at h
    split at h
    · exact .inl ⟨width, off, rfl, by assumption, by simpa using h.symm⟩
    · cases h
  | wr width off v =>
    simp only [hostStep] at h
    split at h
    · exact .inr (.inl ⟨width, off, v, rfl, by assumption, by simpa using h.symm⟩)
    · cases h
  | rst => exact .inr (.inr ⟨rfl, by simpa [hostStep] using h.symm⟩)

/-- Everything a host write can do to the state. -/
theorem writeReg_cases (r : Reg) (v : Word) (s : State) :
    writeReg r v s = s ∨
    (r = .cmd ∧ s.fsm = .idle ∧ writeReg r v s = accept v s) ∨
    (r = .cmd ∧ s.fsm ≠ .idle ∧ v = 0x00000009 ∧ writeReg r v s = requestAbort s) ∨
    (s.fsm ≠ .idle ∧ writeReg r v s = markDropped s) ∨
    (r = .status ∧ writeReg r v s = clearStatus v s) ∨
    (r = .irqEn ∧ writeReg r v s = setIe v s) ∨
    (s.fsm = .idle ∧
      (writeReg r v s = { s with ctrLo := v } ∨ writeReg r v s = { s with ctrHi := v } ∨
        writeReg r v s = { s with nowLo := v } ∨ writeReg r v s = { s with nowHi := v } ∨
        writeReg r v s = { s with candLen := v } ∨
        (∃ k, writeReg r v s = { s with cand := putWord s.cand k v }) ∨
        ∃ k, writeReg r v s = { s with h := putWord s.h k v })) := by
  by_cases hb : s.fsm = .idle
  · cases r <;> simp [writeReg, writeInput, busy, hb]
    · right; right; right; right; right; right; left; exact ⟨_, rfl⟩
    · right; right; right; right; right; right; right; exact ⟨_, rfl⟩
  · cases r <;> simp [writeReg, writeInput, busy, hb]
    by_cases hv : v = 9#32 <;> simp [hv, cmdWhileBusy]

/-- Everything a step of the machine can do. -/
theorem step_next {s t : State} (h : step s = .next t) :
    (∃ op rest, s.turns = .host op :: rest ∧ hostStep op (afterTurn rest s) = .next t) ∨
    (∃ rest, s.turns = .core :: rest ∧ coreStep (afterTurn rest s) = .next t) ∨
    (∃ draw rest, s.turns = .hmac draw :: rest ∧ t = hmacStep draw (afterTurn rest s)) ∨
    (s.turns = [] ∧ coreEnabled s = true ∧ coreStep s = .next t) ∨
    (s.turns = [] ∧ coreEnabled s = false ∧ s.req.isSome = true ∧
      t = hmacStep (Config.hmacDraw s.draws) (useDraw s)) ∨
    (s.turns = [] ∧ coreEnabled s = false ∧ s.req = none ∧ t = s) := by
  unfold step scheduledStep at h
  split at h
  · rename_i hn
    unfold unscheduledStep at h
    split at h
    · exact .inr (.inr (.inr (.inl ⟨hn, by assumption, h⟩)))
    · rename_i hc
      have hc : coreEnabled s = false := by simpa using hc
      split at h
      · exact .inr (.inr (.inr (.inr (.inl ⟨hn, hc, by assumption, by simpa using h.symm⟩))))
      · rename_i hr
        exact .inr (.inr (.inr (.inr (.inr ⟨hn, hc, by simpa using hr, by simpa using h.symm⟩))))
  · rename_i turn rest hn
    cases turn with
    | host op => exact .inl ⟨op, rest, hn, h⟩
    | core => exact .inr (.inl ⟨rest, hn, h⟩)
    | hmac draw => exact .inr (.inr (.inl ⟨draw, rest, hn, by simpa [takeTurn, afterTurn] using h.symm⟩))

end Sys2Proof.Machine
end

