-- ==== Sys2Proof/Tests/Slice0.lean ====
section
/-! SUPPORT. The model's own tests: ill-formed terms refused, words of every command decoded, single steps
with the values of spec/95_test_vectors.md and of the rules' examples, and for every statement with
hypotheses a witness that meets them all. -/

namespace Sys2Proof.Tests

open Sys2Proof.Machine Sys2Proof.Safety

/-! ## Well-formedness and the decoder -/

theorem test_trunc_zero_digits_ill_formed : ¬ (Instr.trunc 0).WellFormed := by decide
theorem test_hotp_zero_digits_ill_formed : ¬ (Instr.hotp 0).WellFormed := by decide
theorem test_totp_zero_digits_ill_formed : ¬ (Instr.totp 0).WellFormed := by decide
theorem test_digits_one_and_fifteen_well_formed :
    (Instr.trunc 1).WellFormed ∧ (Instr.hotp 15).WellFormed ∧ (Instr.totp 15).WellFormed := by decide

/- Words bit by bit, RSV DATA DIG OP (spec/30_encoding.md R80, R85). -/
theorem test_decode_nop : decode 0b0000000000000000_00000000_0000_0000 = .ok .nop := by decide
theorem test_decode_keyclr : decode 0b0000000000000000_00000000_0000_0001 = .ok .keyclr := by decide
theorem test_decode_b32push :
    decode 0b0000000000000000_01001101_0000_0010 = .ok (.b32push 0x4D) := by decide
theorem test_decode_keypush :
    decode 0b0000000000000000_10000001_0000_0011 = .ok (.keypush 0x81) := by decide
theorem test_decode_tctr : decode 0b0000000000000000_00000000_0000_0100 = .ok .tctr := by decide
theorem test_decode_trunc :
    decode 0b0000000000000000_00000000_0110_0101 = .ok (.trunc 6) := by decide
theorem test_decode_hotp :
    decode 0b0000000000000000_00000000_1111_0110 = .ok (.hotp 15) := by decide
theorem test_decode_totp :
    decode 0b0000000000000000_00000000_1000_0111 = .ok (.totp 8) := by decide
theorem test_decode_verify : decode 0b0000000000000000_00000000_0000_1000 = .ok .verify := by decide
theorem test_decode_abort : decode 0b0000000000000000_00000000_0000_1001 = .ok .abort := by decide

/- The words of spec/30_encoding.md R92. -/
theorem test_encode_words :
    encode .nop = 0x00000000 ∧ encode .keyclr = 0x00000001 ∧ encode (.b32push 0x4D) = 0x00004D02 ∧
      encode (.keypush 0xFF) = 0x0000FF03 ∧ encode .tctr = 0x00000004 ∧
      encode (.trunc 15) = 0x000000F5 ∧ encode (.hotp 6) = 0x00000066 ∧
      encode (.totp 8) = 0x00000087 ∧ encode .verify = 0x00000008 ∧
      encode .abort = 0x00000009 := by decide

/- The illegal words of spec/95_test_vectors.md L2.8. -/
theorem test_illegal_words :
    ([0x00000010, 0x00000100, 0x00010000, 0x80000004, 0x0000000A, 0x0000000F, 0x00000005, 0x00000006,
      0x00000007, 0x00004D12, 0x00000019, 0x00000108] : List Word).all
      (fun w => !legal w && !(decode w).isOk) = true := by decide

theorem test_table_word : decodeTableWord 32 0x00000035 = some (.trunc 3) ∧
    decodeTableWord 32 0x00000005 = none := by decide

/-! ## Single steps -/

/-- Does one step answer a next state that passes the check? -/
def after (s : State) (check : State → Bool) : Bool :=
  match step s with
  | .next t => check t
  | .fault _ => false
  | .refused _ => false

/-- The key "12345678901234567890". -/
def rfcKey : List Byte :=
  [0x31, 0x32, 0x33, 0x34, 0x35, 0x36, 0x37, 0x38, 0x39, 0x30,
    0x31, 0x32, 0x33, 0x34, 0x35, 0x36, 0x37, 0x38, 0x39, 0x30]

/-- The reset block with that key loaded. -/
def keyed : State := { State.reset with key := rfcKey ++ List.replicate 44 0, keyLen := 20 }

/-- The word is accepted and the core moves next. -/
def running (w : Word) (s : State) : State := { s with cmd := w, fsm := .exec, turns := [.core] }

/-- The word sent a request, its answer is held and the core moves next. -/
def answered (w : Word) (r : HmacResp) (s : State) : State :=
  { s with cmd := w, fsm := .resp, resp := some r, turns := [.core] }

/-- The host moves next. -/
def hostMoves (op : HostOp) (s : State) : State := { s with turns := [.host op] }

/-- A digest from five words, as H0 to H4 read. -/
def digestOf (a b c d e : Word) : Digest := chainBytes ⟨a, b, c, d, e⟩

/-- The digests of counters 0 and 1 under the RFC key (spec/95_test_vectors.md L1.1). -/
def digest0 : Digest := digestOf 0xcc93cf18 0x508d9493 0x4c64b65d 0x8ba7667f 0xb7cde4b0
def digest1 : Digest := digestOf 0x75a48a19 0xd4cbe100 0x644e8ac1 0x397eea74 0x7a2d33ab

/- R185 and R186: DONE = 1, ERR = 0. -/
theorem test_nop : after (running 0x0 keyed) (fun t => readOffset 0x008 t == 0x2) = true := by decide
theorem test_abort_from_idle :
    after (running 0x9 keyed) (fun t => readOffset 0x008 t == 0x2) = true := by decide
/- R87: STATUS reads 0x00000302 after an illegal word, and a bad VERIFY word clears VALID and MATCH. -/
theorem test_illegal_nop :
    after (running 0x10 keyed) (fun t => readOffset 0x008 t == 0x302) = true := by decide
theorem test_illegal_verify_clears_verdict :
    after (running 0x108 { keyed with valid := true, matchIdx := 1 })
      (fun t => readOffset 0x008 t == 0x302) = true := by decide

/- R103's example. -/
theorem test_keyclr :
    after (running 0x1 { keyed with bitcnt := 1, acc := 1, kovf := true })
      (fun t => readOffset 0x010 t == 0 && readOffset 0x014 t == 0 && readOffset 0x100 t == 0 &&
        readOffset 0x008 t == 0x2) = true := by decide
/- R104's example, both characters. -/
theorem test_b32push_pends :
    after (running 0x00004D02 State.reset)
      (fun t => t.acc == 0x0C && t.bitcnt == 5 && t.keyLen == 0) = true := by decide
theorem test_b32push_emits :
    after (running 0x00005A02 { State.reset with acc := 0x0C, bitcnt := 5 })
      (fun t => t.acc == 1 && t.bitcnt == 2 && t.keyLen == 1 && readOffset 0x100 t == 0x66000000)
        = true := by decide
/- R105: the twentieth byte of the RFC key; and a push into a full buffer. -/
theorem test_keypush :
    after (running 0x00003003 { keyed with
        key := rfcKey.take 19 ++ List.replicate 45 0, keyLen := 19, acc := 1, bitcnt := 2 })
      (fun t => t.keyLen == 20 && readOffset 0x110 t == 0x37383930 && readOffset 0x014 t == 0)
        = true := by decide
theorem test_keypush_overflow :
    after (running 0x00003003 { keyed with keyLen := 64, acc := 1, bitcnt := 2 })
      (fun t => readOffset 0x008 t == 0x422 && t.keyLen == 64 && t.acc == 1) = true := by decide
/- R153's example; R150's example NOW = 2^64 - 1, with remaining 30 - (18446744073709551 mod 30) = 9. -/
theorem test_tctr :
    after (running 0x4 { keyed with nowLo := 0x0000E678 })
      (fun t => t.ctrLo == 1 && t.ctrHi == 0 && t.remain == 1) = true := by decide
theorem test_tctr_last_instant :
    after (running 0x4 { keyed with nowLo := 0xFFFFFFFF, nowHi := 0xFFFFFFFF })
      (fun t => t.ctrHi == 0x00022F3D && t.ctrLo == 0x9397B043 && t.remain == 9) = true := by decide
/- R134's example, and R131's digest of twenty 0xFF bytes with d = 15. -/
theorem test_trunc :
    after (running 0x65 { State.reset with
        h := digestOf 0x1F869869 0x0E02CA16 0x618550EF 0x7F19DA8E 0x945B555A })
      (fun t => t.offs == 10 && t.pval == 0x50EF7F19 && t.codeNum == 872921 && t.digits == 6 &&
        readOffset 0x054 t == 0x38373239 && readOffset 0x058 t == 0x32310000) = true := by decide
theorem test_trunc_fifteen_digits :
    after (running 0xF5 { State.reset with h := Vector.replicate 20 0xFF })
      (fun t => t.offs == 15 && t.codeNum == 2147483647 && readOffset 0x054 t == 0x30303030 &&
        readOffset 0x060 t == 0x36343700) = true := by decide
/- R130's request for counter 0x023523EC, and R135's first example. -/
theorem test_hotp_requests :
    after (running 0x66 { keyed with ctrLo := 0x023523EC })
      (fun t => t.fsm == .wait &&
        t.req == some ⟨rfcKey, #v[0, 0, 0, 0, 0x02, 0x35, 0x23, 0xEC]⟩) = true := by decide
theorem test_hotp_commits :
    after (answered 0x66 (.digest digest0) keyed)
      (fun t => t.h == digest0 && t.offs == 0 && t.pval == 1284755224 &&
        readOffset 0x054 t == 0x37353532 && readOffset 0x058 t == 0x32340000) = true := by decide
/- R154's examples: an empty key, and the code of NOW = 59000 with 8 digits. -/
theorem test_totp_empty_key :
    after (running 0x67 State.reset) (fun t => readOffset 0x008 t == 0x102 && t.req == none)
      = true := by decide
theorem test_totp_commits :
    after (answered 0x87 (.digest digest1) { keyed with wctr := 1, tcRem := 1 })
      (fun t => t.ctrLo == 1 && t.remain == 1 && t.offs == 11 && t.pval == 0x41397EEA &&
        readOffset 0x054 t == 0x39343238 && readOffset 0x058 t == 0x37303832) = true := by decide
/- R165: base = 0 starts at entry 1; R167's first example. -/
theorem test_verify_base_zero :
    after (running 0x8 keyed)
      (fun t => t.vidx == 1 && t.req == some ⟨rfcKey, Vector.replicate 8 0⟩) = true := by decide
theorem test_verify_matches :
    after (answered 0x8 (.digest digest1) { keyed with
        vbase := 2, candLen := 6,
        cand := #v[0x32, 0x38, 0x37, 0x30, 0x38, 0x32, 0, 0, 0, 0, 0, 0, 0, 0, 0, 0] })
      (fun t => readOffset 0x008 t == 0xE) = true := by decide
/- R181, R183: an ABORT whose word is written again before its core step ends with ABORTED (assumption 19). -/
theorem test_abort_written_twice :
    after (running 0x9 { keyed with abortReq := true }) (fun t => readOffset 0x008 t == 0x502)
      = true := by decide
/- R187: an aborted command discards its answer. -/
theorem test_abort_while_busy :
    after (answered 0x66 (.digest digest0) { keyed with abortReq := true })
      (fun t => readOffset 0x008 t == 0x502 && t.h == Vector.replicate 20 0 && t.resp == none)
        = true := by decide

/- The digest of counter 0 and the two readings of an empty key (spec/95_test_vectors.md L1.1, L2.4). -/
theorem test_hmac_counter_0 : hmacSha1 rfcKey (be64 0) = digest0 := by decide +kernel
theorem test_hmac_empty_key : hmacSha1 [] (be64 0) =
    digestOf 0xDAB69AD9 0x8E28764F 0x977EE248 0x7E4F3F68 0x73B2A297 := by decide +kernel

/- R139: the ten codes of the document. -/
theorem test_hotp_codes_0_to_4 :
    ([0, 1, 2, 3, 4].map (fun c : Nat => codeNumber (hmacSha1 rfcKey (be64 (BitVec.ofNat 64 c))) 6))
      = [755224, 287082, 359152, 969429, 338314] := by decide +kernel
theorem test_hotp_codes_5_to_9 :
    ([5, 6, 7, 8, 9].map (fun c : Nat => codeNumber (hmacSha1 rfcKey (be64 (BitVec.ofNat 64 c))) 6))
      = [254676, 287922, 162583, 399871, 520489] := by decide +kernel

/-! ## Witnesses: for every statement with hypotheses, states and operands that meet them all -/

/-- A command is running and the host moves next. -/
def busyHost (op : HostOp) : State := { running 0x66 keyed with turns := [.host op] }

/-- The candidate "287082", with the answer for the window entry `vidx` held. -/
def verifying (vidx : Fin 3) : State :=
  { answered 0x8 (.digest digest1) keyed with
    vidx := vidx, vbase := 2, candLen := 6,
    cand := #v[0x32, 0x38, 0x37, 0x30, 0x38, 0x32, 0, 0, 0, 0, 0, 0, 0, 0, 0, 0] }

theorem witness_DecodeEncodeRoundTrip :
    (Instr.trunc 1).WellFormed ∧ (Instr.totp 15).WellFormed ∧ (Instr.b32push 0xFF).WellFormed := by
  decide

theorem witness_LegalWordsSpellOneCommand :
    Spells 0x35 (.trunc 3) ∧ Spells 0x35 (.trunc 5) ∧ Spells 0xFF02 (.b32push 0) := by decide

theorem witness_StepRunsDecodedCommand :
    ((running 0x4 keyed).fsm = .exec ∧ (running 0x4 keyed).abortReq = false ∧
      decode (running 0x4 keyed).cmd = .ok .tctr ∧ (running 0x4 keyed).turns = .core :: []) ∧
    ((answered 0x66 .cryptoError keyed).fsm = .resp ∧ sendsRequest (.hotp 6) = true ∧
      decode (answered 0x66 .cryptoError keyed).cmd = .ok (.hotp 6) ∧
      { answered 0x66 .cryptoError keyed with turns := [] }.turns = []) := by decide

theorem witness_IllegalWordOnlyFinishes :
    ∀ w : Word, w = 0x10 ∨ w = 0x18 → (running w keyed).fsm = .exec ∧
      (running w keyed).abortReq = false ∧ legal (running w keyed).cmd = false ∧
      (running w keyed).turns = .core :: [] := by
  rintro w (rfl | rfl) <;> decide

theorem witness_AbortRequestEndsCommand :
    ((running 0x8 keyed).fsm = .exec ∧ { running 0x8 keyed with abortReq := true }.abortReq = true ∧
      (running 0x8 keyed).turns = .core :: []) ∧
    ((answered 0x66 .cryptoError keyed).fsm = .resp ∧
      { answered 0x66 .cryptoError keyed with abortReq := true }.abortReq = true ∧
      (answered 0x66 .cryptoError keyed).turns = .core :: []) := by decide

theorem witness_TurnWithoutStepPasses :
    ({ keyed with turns := [.core] }.fsm = .idle ∧ { keyed with turns := [.core] }.turns = .core :: []) ∧
    ({ keyed with fsm := .wait, turns := [.core] }.fsm = .wait) ∧
    (keyed.req = none ∧
      { keyed with turns := [.hmac .digest] }.turns = .hmac .digest :: []) := by decide

theorem witness_IdleBlockAcceptsCommand :
    (hostMoves (.wr 4 0x004 0xFFFFFFFF) keyed).fsm = .idle ∧
      (hostMoves (.wr 4 0x004 0xFFFFFFFF) keyed).turns = .host (.wr 4 0x004 0xFFFFFFFF) :: [] := by decide

theorem witness_BusyCommandWrite :
    ∀ w : Word, w = 0x00000009 ∨ w = 0x00000019 → (busyHost (.wr 4 0x004 w)).fsm ≠ .idle ∧
      (busyHost (.wr 4 0x004 w)).turns = .host (.wr 4 0x004 w) :: [] := by
  rintro w (rfl | rfl) <;> decide

/- Input registers at both ends of their ranges and the offsets beside them. -/
theorem witness_HostWritesObeyBusy :
    (∀ off ∈ [0x020, 0x02C, 0x040, 0x050, 0x064, 0x074],
      off % 4 = 0 ∧ off ≤ 0xFFC ∧ inputOffset off = true ∧ (busyHost (.wr 4 off 1)).fsm ≠ .idle ∧
        (busyHost (.wr 4 off 1)).turns = .host (.wr 4 off 1) :: []) ∧
    (∀ off ∈ [0x008, 0x00C],
      off % 4 = 0 ∧ off ≤ 0xFFC ∧
        (hostMoves (.wr 4 off 1) keyed).turns = .host (.wr 4 off 1) :: []) ∧
    (∀ off ∈ [0x000, 0x01C, 0x030, 0x03C, 0x054, 0x060, 0x078, 0x100, 0xFFC],
      off % 4 = 0 ∧ off ≤ 0xFFC ∧ inputOffset off = false ∧ off ≠ 0x004 ∧ off ≠ 0x008 ∧ off ≠ 0x00C ∧
        (hostMoves (.wr 4 off 1) keyed).turns = .host (.wr 4 off 1) :: []) := by decide

theorem witness_IdleInputWriteReadsBack :
    ∀ off ∈ [0x020, 0x02C, 0x040, 0x050, 0x064, 0x074],
      (hostMoves (.wr 4 off 7) keyed).fsm = .idle ∧ off % 4 = 0 ∧ inputOffset off = true ∧
        (hostMoves (.wr 4 off 7) keyed).turns = .host (.wr 4 off 7) :: [] := by decide

theorem witness_StatusRegister :
    (hostMoves (.wr 4 0x008 0x42) keyed).turns = .host (.wr 4 0x008 0x42) :: [] ∧
      (busyHost (.wr 4 0x008 0x42)).turns = .host (.wr 4 0x008 0x42) :: [] := by decide

theorem witness_InterruptEnable :
    (hostMoves (.wr 4 0x00C 1) keyed).turns = .host (.wr 4 0x00C 1) :: [] ∧
      (busyHost (.wr 4 0x00C 0xFFFFFFFE)).turns = .host (.wr 4 0x00C 0xFFFFFFFE) :: [] := by decide

theorem witness_InadmissibleAccessFaults :
    (8 ≠ 4 ∧ (hostMoves (.rd 8 0) keyed).turns = .host (.rd 8 0) :: []) ∧
      (2 % 4 ≠ 0 ∧ (hostMoves (.wr 4 2 0) keyed).turns = .host (.wr 4 2 0) :: []) ∧
      (0xFFF < 0x1000 ∧ (hostMoves (.rd 4 0x1000) keyed).turns = .host (.rd 4 0x1000) :: []) := by
  decide

theorem witness_ReadsChangeNothing :
    ∀ off ∈ [0x000, 0x004, 0xFFC], off % 4 = 0 ∧ off ≤ 0xFFC ∧
      (hostMoves (.rd 4 off) keyed).turns = .host (.rd 4 off) :: [] := by decide

theorem witness_RegisterMapReads :
    keyed.keyLen ≤ 256 ∧ { keyed with keyLen := 256 }.keyLen ≤ 256 := by decide

theorem witness_ResetLoadsEveryValue : (busyHost .rst).turns = .host .rst :: [] := by decide

/- A step of each agent: for StepRegisterIsConstant. -/
theorem witness_StepRegisterIsConstant :
    after (running 0x4 keyed) (fun _ => true) = true ∧ after (busyHost .rst) (fun _ => true) = true ∧
      after { keyed with fsm := .wait, req := some ⟨[0x31], be64 0⟩, turns := [.hmac .cryptoError] }
        (fun _ => true) = true := by decide

theorem witness_NopAndAbortDoNothing :
    (Instr.nop = .nop ∨ Instr.nop = .abort) ∧ (Instr.abort = .nop ∨ Instr.abort = .abort) := by decide

theorem witness_PackAppendsIndex :
    (0 : BitVec 7).toNat < 2 ^ (0 : BitVec 3).toNat ∧ (3 : BitVec 7).toNat < 2 ^ (2 : BitVec 3).toNat ∧
      (7 : BitVec 7).toNat < 2 ^ (3 : BitVec 3).toNat ∧
      (127 : BitVec 7).toNat < 2 ^ (7 : BitVec 3).toNat := by decide

theorem witness_B32pushDiscards :
    keyed.kovf = false ∧ b32Index 0x3D = none ∧ b32Index 0x40 = none ∧ b32Index 0x5B = none ∧
      b32Index 0x38 = none := by decide

theorem witness_B32pushPacks :
    (keyed.kovf = false ∧ b32Index 0x41 = some 0 ∧ (pack keyed.acc keyed.bitcnt 0).emitted = none) ∧
      ({ keyed with acc := 1, bitcnt := 5 }.kovf = false ∧ b32Index 0x37 = some 31 ∧
        (pack 1 5 31).emitted = some 0x0F ∧ keyed.keyLen ≠ keyed.params.keyMax) := by decide

theorem witness_FullBufferOverflows :
    let full : State := { keyed with keyLen := 64, acc := 1, bitcnt := 5 }
    full.kovf = false ∧ full.keyLen = full.params.keyMax ∧
      ({ full with cmd := 0x0103 }.cmd = encode (.keypush 1)) ∧
      ({ full with cmd := 0x3702 }.cmd = encode (.b32push 0x37)) ∧ b32Index 0x37 = some 31 ∧
      (pack full.acc full.bitcnt 31).emitted = some 0x0F := by decide

theorem witness_KeypushAppends : keyed.kovf = false ∧ keyed.keyLen ≠ keyed.params.keyMax ∧
    keyed.keyLen < keyed.key.length := by decide

theorem witness_KovfRefusesKeyCommands :
    ∀ i ∈ [Instr.b32push 0x41, .keypush 0, .hotp 1, .totp 15, .verify],
      let s : State := { running (encode i) keyed with kovf := true, keyLen := 64 }
      s.kovf = true ∧ s.cmd = encode i ∧ i.WellFormed ∧ s.fsm ≠ .resp ∧
        (sendsRequest i = true ∨ takesDigits i = false) := by decide

theorem witness_PushedStringDecodes :
    exec .keyclr keyed = .next (finish .none (clearKey keyed)) ∧
      (pushAll [0x4D, 0x5A, 0x58, 0x3D] (finish .none (clearKey keyed))).isSome = true :=
  ⟨rfl, by decide⟩

theorem witness_TimeCounterFits :
    keyed.params.Legal ∧ { keyMax := 1, stepS := 1 : Params }.Legal ∧
      { keyMax := 256, stepS := 2, keyReadback := false : Params }.Legal ∧
      { stepS := 0xFFFFFFFF : Params }.Legal := by decide

theorem witness_InferredCounterBound : 2 ^ 64 - 1 < 2 ^ 64 ∧ 1 ≤ 1 := by decide

theorem witness_RemainingClosedForm : 1 ≤ 1 ∧ 1 ≤ 30 := by decide

theorem witness_TctrWritesCounter : keyed.params.Legal := by decide

theorem witness_RenderSpellsNumber : 0 < 10 ^ 0 ∧ 999999 < 10 ^ 6 ∧ 0 < 10 ^ 15 := by decide

theorem witness_TruncCommitsCode : (1 : BitVec 4) ≠ 0 ∧ (15 : BitVec 4) ≠ 0 := by decide

theorem witness_HotpRequestsDigest :
    (6 : BitVec 4) ≠ 0 ∧ (running 0x66 keyed).fsm ≠ .resp ∧ (running 0x66 keyed).kovf = false ∧
      (running 0x66 State.reset).fsm ≠ .resp ∧ (running 0x66 State.reset).kovf = false := by decide

theorem witness_HotpCommitsCode :
    (answered 0x66 (.digest digest0) keyed).fsm = .resp ∧
      (answered 0x66 (.digest digest0) keyed).resp = some (.digest digest0) := by decide

theorem witness_TotpRequestsDigest :
    (8 : BitVec 4) ≠ 0 ∧ (running 0x87 keyed).fsm ≠ .resp ∧ (running 0x87 keyed).kovf = false ∧
      (running 0x87 keyed).keyLen ≠ 0 ∧ (running 0x87 keyed).params.Legal := by decide

theorem witness_TotpCommitsCode :
    (answered 0x87 (.digest digest1) keyed).fsm = .resp ∧
      (answered 0x87 (.digest digest1) keyed).resp = some (.digest digest1) := by decide

/- Both clauses: base = 0 and base = 1. -/
theorem witness_VerifyStartsWindow :
    (running 0x8 keyed).fsm ≠ .resp ∧ (running 0x8 keyed).kovf = false ∧
      (running 0x8 keyed).keyLen ≠ 0 ∧ (running 0x8 keyed).params.Legal ∧
      (nowCounter keyed).toNat = 0 ∧ (nowCounter { keyed with nowLo := 30000 }).toNat = 1 := by decide

theorem witness_MatchComparesSixBytes : (codeString digest1 6).length = 6 := by decide

/- The three clauses: a match, the last entry without one, another entry without one. -/
theorem witness_VerifyTriesEntries :
    ((verifying 0).fsm = .resp ∧ (verifying 0).resp = some (.digest digest1) ∧
      IsCandidate (verifying 0) (codeString digest1 6)) ∧
    ({ verifying 2 with candLen := 7 }.fsm = .resp ∧
      { verifying 2 with candLen := 7 }.resp = some (.digest digest1) ∧
      ¬ IsCandidate { verifying 2 with candLen := 7 } (codeString digest1 6)) ∧
    ({ verifying 1 with candLen := 0 }.resp = some (.digest digest1) ∧
      ¬ IsCandidate { verifying 1 with candLen := 0 } (codeString digest1 6) ∧
      { verifying 1 with candLen := 0 }.vidx ≠ 2) := by decide

theorem witness_EmptySecretRefused :
    ∀ i ∈ [Instr.totp 6, .verify],
      let s : State := running (encode i) State.reset
      s.keyLen = 0 ∧ s.kovf = false ∧ s.fsm ≠ .resp ∧ s.cmd = encode i ∧ i.WellFormed := by decide

theorem witness_CryptoErrorCommitsNothing :
    ∀ i ∈ [Instr.hotp 6, .totp 6, .verify],
      let s : State := answered (encode i) .cryptoError keyed
      s.fsm = .resp ∧ s.resp = some .cryptoError ∧ s.cmd = encode i ∧ sendsRequest i = true := by decide

/- A key and an empty key, and both draws. -/
theorem witness_HmacAgentAnswers :
    ∀ k ∈ [rfcKey, []], ∀ draw ∈ [HmacDraw.digest, .cryptoError],
      let s : State :=
        { keyed with fsm := .wait, req := some ⟨k, be64 0⟩, turns := [.hmac draw] }
      s.req = some ⟨k, be64 0⟩ ∧ s.turns = .hmac draw :: [] := by decide

theorem witness_HotpComputesCode :
    let s : State := { running 0x66 keyed with turns := [.core, .hmac .digest, .core] }
    (6 : BitVec 4) ≠ 0 ∧ s.fsm = .exec ∧ s.abortReq = false ∧ s.cmd = encode (.hotp 6) ∧
      s.kovf = false ∧ s.key.take s.keyLen ≠ [] ∧ s.turns = [.core, .hmac .digest, .core] := by decide

theorem witness_TotpIsTctrThenHotp :
    (15 : BitVec 4) ≠ 0 ∧ keyed.fsm = .idle ∧ keyed.abortReq = false ∧ keyed.kovf = false ∧
      keyed.key.take keyed.keyLen ≠ [] := by decide

/- base = 0 (NOW = 0) and base = 2 (NOW = 60000). -/
theorem witness_VerifyDecidesWindow :
    ∀ now ∈ ([(0, 0), (60000, 2)] : List (Word × Nat)),
      let s : State :=
        { running 0x8 keyed with
          nowLo := now.1
          turns := [.core, .hmac .digest, .core, .hmac .digest, .core, .hmac .digest, .core] }
      s.fsm = .exec ∧ s.abortReq = false ∧ s.cmd = encode .verify ∧ s.kovf = false ∧
        s.key.take s.keyLen ≠ [] ∧ s.params.Legal ∧
        now.2 = (Machine.now s).toNat / 1000 / s.params.stepS.toNat ∧
        s.turns = [.core, .hmac .digest, .core, .hmac .digest, .core, .hmac .digest, .core] := by decide

theorem witness_OnlyListedRegistersChange :
    (∃ t, exec .tctr keyed = .next t) ∧ mayWrite .tctr .status = false ∧ Reg.codeNum ≠ .status ∧
      mayWrite .tctr .codeNum = false := ⟨⟨_, rfl⟩, by decide⟩

/-- The invariants hold of the reset block with a key. -/
theorem inv_keyed : Safety.Inv keyed := by
  have tail : ∀ i : Fin 64, 20 ≤ i.val → keyed.key.getD i.val 0 = 0 := by decide
  exact
    { paramsLegal := by decide
      reqWait := by decide
      respResp := by decide
      abortBusy := by decide
      keySize := by decide
      keyLenMax := by decide
      keyTail := fun i h1 h2 => tail ⟨i, h2⟩ h1
      accPending := by decide
      kovfFull := by decide
      codeNumber := fun h => absurd rfl h
      noCode := by decide
      codeChars := by decide
      codeTail := by decide
      verdict := by decide
      remainRange := .inl rfl
      inFlightCmd := fun h => absurd h (by decide)
      inFlightRemain := fun h => absurd h (by decide) }

/-- They hold too when a command has been accepted, whatever the schedule. -/
theorem inv_running (w : Word) (ts : List Turn) :
    Safety.Inv { running w keyed with turns := ts } :=
  { inv_keyed with
    reqWait := by simp [running, keyed, State.reset, State.resetFor]
    respResp := by simp [running, keyed, State.reset, State.resetFor]
    abortBusy := fun _ => by simp [running]
    inFlightCmd := fun h => absurd h (by simp [running, InFlight])
    inFlightRemain := fun h => absurd h (by simp [running, InFlight]) }

theorem witness_StepKeepsInvariants :
    Safety.Inv (running 0x4 keyed) ∧ after (running 0x4 keyed) (fun _ => true) = true :=
  ⟨inv_running 0x4 [.core], by decide⟩

theorem witness_OnlyBusErrorsStop :
    Safety.Inv (busyHost (.wr 2 0 0)) ∧
      step (busyHost (.wr 2 0 0)) = .fault (.busError .write 2 0) :=
  ⟨inv_running 0x66 [.host (.wr 2 0 0)], rfl⟩

theorem witness_OnlyKeyclrClearsKovf :
    after (running 0x1 { keyed with kovf := true }) (fun t => !t.kovf) = true ∧
      (running 0x1 { keyed with kovf := true }).kovf = true ∧
      after (hostMoves .rst { keyed with kovf := true }) (fun t => !t.kovf) = true := by decide

theorem witness_OnlyVerifyWritesVerdict :
    after (verifying 0) (fun t => t.valid && !(verifying 0).valid) = true ∧
      after (hostMoves .rst { keyed with valid := true, matchIdx := 1 }) (fun t => !t.valid) = true := by
  decide

theorem witness_InputsFixedWhileBusy :
    (running 0x66 keyed).fsm ≠ .idle ∧ (running 0x66 keyed).turns = [.core] ∧
      after (running 0x66 keyed) (fun t => t.fsm == .wait) = true ∧
      after (running 0x4 keyed) (fun t => t.fsm == .idle) = true := by decide

theorem witness_CommandsFinish :
    Safety.Inv { running 0x8 keyed with turns := [] } ∧ { running 0x8 keyed with turns := [] }.turns = [] :=
  ⟨inv_running 0x8 [], rfl⟩

end Sys2Proof.Tests
end

section
/-! Decoding facts the invariants rest on: a word the decoder accepts is the word of its command, and that
command is well formed (spec/30_encoding.md R86, R89). -/

namespace Sys2Proof

/-- The decoder never answers a command without a legal word (R86). -/
theorem decode_ok_wellFormed {w : Word} {i : Instr} (h : decode w = .ok i) : i.WellFormed := by
  unfold decode decodePlain decodeData decodeDigits at h
  split at h
  · cases h
  · split at h <;> (repeat' split at h) <;> cases h <;>
      simp_all [Instr.WellFormed, Instr.wellFormed]

/-- A word the decoder accepts is the word of the command it answers (R89). -/
theorem encode_of_decode_ok {w : Word} {i : Instr} (h : decode w = .ok i) : encode i = w := by
  have opValue : ∀ n, (opField w).toNat = n → opField w = BitVec.ofNat 4 n := by
    intro n hn; rw [← hn]; simp
  unfold decode decodePlain decodeData decodeDigits at h
  split at h
  · cases h
  · rename_i hrsv
    have hw := assemble_fields (not_not.mp hrsv)
    split at h <;> rename_i hop <;> (repeat' split at h) <;> cases h <;>
      simp_all [opValue _ hop, encode]

/-- VERIFY is the only command with OP = 0x8 (R85). -/
theorem opField_encode_eq_verify {i : Instr} : opField (encode i) = 0x8 ↔ i = .verify := by
  cases i <;> simp [encode]

end Sys2Proof
end

section
/-! What finish, a command, a host access and a step leave unchanged. -/

namespace Sys2Proof.Machine

open Sys2Proof.Safety

/-- finish ends the command and writes nothing but STATUS, fsm, abort_req and resp (spec/45_control.md
R184). -/
theorem finish_frame (e : ErrCode) (s : State) :
    Ended e (finish e s) ∧ SameInputs s (finish e s) ∧ SameKey s (finish e s) ∧
      SameTime s (finish e s) ∧ SameDigest s (finish e s) ∧ SameCode s (finish e s) ∧
      SameHidden s (finish e s) ∧ (finish e s).req = s.req := by
  and_intros <;> rfl

/-- Only a word with OP = 0x8 has a verdict to clear (R184). -/
theorem clearsVerdict_of_ne {e : ErrCode} {s : State} (h : opField s.cmd ≠ 0x8) :
    clearsVerdict e s = false := by
  rw [clearsVerdict, beq_false_of_ne h, Bool.false_and]

/-- finish writes VALID and MATCH only for a word with OP = 0x8 (R184). -/
theorem finish_sameVerdict {e : ErrCode} {s : State} (h : opField s.cmd ≠ 0x8) :
    SameVerdict s (finish e s) := by
  simp [SameVerdict, clearsVerdict_of_ne h]

/-- For a word with OP = 0x8 an error clears VALID and MATCH (R184). -/
theorem finish_clearsVerdict {e : ErrCode} {s : State} (h : opField s.cmd = 0x8) (he : e ≠ .none) :
    (finish e s).valid = false ∧ (finish e s).matchIdx = 0 := by
  simp [clearsVerdict, h, he]

/-- What the core step of a command leaves unchanged: the inputs always; each group of registers unless
R50's table lists it for the command; and all of them while the command still runs (spec/10_state.md R50,
spec/41_hmac_port.md R127). -/
structure ExecFrame (i : Instr) (s t : State) : Prop where
  inputs : SameInputs s t
  key : mayWrite i .keyLen = false → SameKey s t
  time : mayWrite i .remain = false → SameTime s t
  digest : mayWrite i (.h 0) = false → SameDigest s t
  code : mayWrite i .digits = false → SameCode s t
  verdict : opField s.cmd ≠ 0x8 → i ≠ .verify → SameVerdict s t
  running : t.fsm ≠ .idle →
    SameKey s t ∧ SameTime s t ∧ SameDigest s t ∧ SameCode s t ∧ SameVerdict s t

/-- Every outcome of a command is a finish or a request over its writes, which the update lemmas of State
read off group by group. -/
theorem exec_frame {i : Instr} {s t : State} (h : exec i s = .next t) : ExecFrame i s t := by
  cases i
  case' nop => obtain rfl := execNop_next h
  case' abort => obtain rfl := execAbort_next h
  case' keyclr => obtain rfl := execKeyclr_next h
  case' tctr => obtain rfl := execTctr_next h
  case' b32push =>
    obtain ⟨-, rfl⟩ | ⟨-, -, rfl⟩ | ⟨v, -, -, ⟨-, rfl⟩ | ⟨e, -, ⟨-, rfl⟩ | ⟨-, rfl⟩⟩⟩ :=
      execB32push_next h
  case' keypush => obtain ⟨-, rfl⟩ | ⟨-, -, rfl⟩ | ⟨-, -, rfl⟩ := execKeypush_next h
  case' trunc => obtain ⟨-, rfl⟩ | ⟨-, rfl⟩ := execTrunc_next h
  case' hotp =>
    obtain ⟨-, ⟨-, rfl⟩ | ⟨-, -, rfl⟩ | ⟨-, -, rfl⟩⟩ | ⟨-, ⟨-, rfl⟩ | ⟨x, -, rfl⟩⟩ :=
      execHotp_next h
  case' totp =>
    obtain ⟨-, ⟨-, rfl⟩ | ⟨-, -, rfl⟩ | ⟨-, -, -, rfl⟩ | ⟨-, -, -, rfl⟩⟩ |
      ⟨-, ⟨-, rfl⟩ | ⟨x, -, rfl⟩⟩ := execTotp_next h
  case' verify =>
    obtain ⟨-, ⟨-, rfl⟩ | ⟨-, -, rfl⟩ | ⟨-, -, rfl⟩⟩ |
      ⟨-, ⟨-, rfl⟩ | ⟨x, -, ⟨-, rfl⟩ | ⟨-, -, rfl⟩ | ⟨-, -, rfl⟩⟩⟩ := execVerify_next h
  all_goals
    constructor <;>
      simp +contextual [SameInputs, SameKey, SameTime, SameDigest, SameCode, SameVerdict, mayWrite,
        clearsVerdict]

/-- A host read or write leaves the parameters, the key, the code, the verdict and the hidden registers
as they are (spec/20_memory.md R63, R64). -/
theorem hostStep_frame {op : HostOp} {s t : State} (h : hostStep op s = .next t) (hop : op ≠ .rst) :
    t.params = s.params ∧ SameKey s t ∧ SameCode s t ∧ SameVerdict s t ∧ SameHidden s t := by
  obtain ⟨w, off, rfl, -, rfl⟩ | ⟨w, off, v, rfl, -, rfl⟩ | ⟨rfl, -⟩ := hostStep_next h
  · and_intros <;> rfl
  · obtain h | ⟨-, -, h⟩ | ⟨-, -, -, h⟩ | ⟨-, h⟩ | ⟨-, h⟩ | ⟨-, h⟩ |
      ⟨-, h | h | h | h | h | ⟨k, h⟩ | ⟨k, h⟩⟩ := writeReg_cases (regAt off) v s <;> rw [h] <;>
      and_intros <;> rfl
  · exact absurd rfl hop

/-- The hmac agent's step writes only req, resp and fsm (spec/41_hmac_port.md R122). -/
theorem hmacStep_frame (d : HmacDraw) (s : State) :
    SameInputs s (hmacStep d s) ∧ SameKey s (hmacStep d s) ∧ SameTime s (hmacStep d s) ∧
      SameDigest s (hmacStep d s) ∧ SameCode s (hmacStep d s) ∧ SameVerdict s (hmacStep d s) ∧
      SameDone s (hmacStep d s) ∧ SameHidden s (hmacStep d s) := by
  cases hr : s.req with
  | none => rw [hmacStep_none hr]; and_intros <;> rfl
  | some r => rw [hmacStep_some hr]; and_intros <;> rfl

/-- A core step with no command to run changes nothing. -/
theorem coreStep_of_not_enabled {s : State} (h : coreEnabled s = false) : coreStep s = .next s := by
  cases hf : s.fsm <;> simp_all [coreEnabled, coreStep]

/-- Which agent a step is of, whatever the schedule says: the host by its turn, the core, or the hmac
agent (spec/45_control.md R190). -/
theorem step_agent {s t : State} (h : step s = .next t) :
    (∃ op rest, s.turns = .host op :: rest ∧ hostStep op (afterTurn rest s) = .next t) ∨
    (∃ rest, coreStep (afterTurn rest s) = .next t) ∨
    ∃ d u, (u = useDraw s ∨ ∃ rest, u = afterTurn rest s) ∧ t = hmacStep d u := by
  obtain h | ⟨rest, -, h⟩ | ⟨d, rest, -, h⟩ | ⟨-, -, h⟩ | ⟨-, -, -, h⟩ | ⟨-, hc, -, rfl⟩ := step_next h
  · exact .inl h
  · exact .inr (.inl ⟨rest, h⟩)
  · exact .inr (.inr ⟨d, _, .inr ⟨rest, rfl⟩, h⟩)
  · exact .inr (.inl ⟨s.turns, h⟩)
  · exact .inr (.inr ⟨_, _, .inl rfl, h⟩)
  · exact .inr (.inl ⟨t.turns, coreStep_of_not_enabled hc⟩)

/-- A core step is a pass, the end of the command with an error, or a command's step (spec/45_control.md
R183). -/
theorem coreStep_outcome {s t : State} (h : coreStep s = .next t) :
    t = s ∨
    (s.fsm = .exec ∨ s.fsm = .resp) ∧
      ((∃ e, t = finish e s) ∨
        ∃ i, opField s.cmd = opField (encode i) ∧ exec i s = .next t ∧
          (s.fsm = .exec ∧ s.cmd = encode i ∨ sendsRequest i = true)) := by
  obtain ⟨-, h⟩ | ⟨hf, -, h⟩ | ⟨hf, -, -, h⟩ | ⟨hf, -, i, hi, h⟩ | ⟨hf, -, i, ho, -, hr, h⟩ :=
    coreStep_next h
  · exact .inl h
  · exact .inr ⟨hf, .inl ⟨_, h⟩⟩
  · exact .inr ⟨.inl hf, .inl ⟨_, h⟩⟩
  · exact .inr ⟨.inl hf, .inr ⟨i, (decode_ok_fields hi).1, h, .inl ⟨hf, (encode_of_decode_ok hi).symm⟩⟩⟩
  · exact .inr ⟨.inr hf, .inr ⟨i, ho, h, .inr hr⟩⟩

/-- A step leaves the key, the code and the verdict alone but for a core step and the reset event. -/
theorem step_core_or_frame {s t : State} (h : step s = .next t) :
    (∃ rest, s.turns = .host .rst :: rest) ∨ (∃ rest, coreStep (afterTurn rest s) = .next t) ∨
      (SameKey s t ∧ SameCode s t ∧ SameVerdict s t) := by
  obtain ⟨op, rest, hop, h⟩ | h | ⟨d, u, hu, rfl⟩ := step_agent h
  · by_cases hrst : op = .rst
    · exact .inl ⟨rest, hrst ▸ hop⟩
    · obtain ⟨-, hkey, hcode, hverdict, -⟩ := hostStep_frame h hrst
      exact .inr (.inr ⟨hkey, hcode, hverdict⟩)
  · exact .inr (.inl h)
  · obtain ⟨-, hkey, -, -, hcode, hverdict, -⟩ := hmacStep_frame d u
    obtain rfl | ⟨rest, rfl⟩ := hu <;> exact .inr (.inr ⟨hkey, hcode, hverdict⟩)

/-- No core step writes what no command writes (spec/10_state.md R50). -/
theorem coreStep_sameInputs {s t : State} (h : coreStep s = .next t) : SameInputs s t := by
  obtain rfl | ⟨-, ⟨e, rfl⟩ | ⟨i, -, h, -⟩⟩ := coreStep_outcome h
  · and_intros <;> rfl
  · exact (finish_frame e s).2.1
  · exact (exec_frame h).inputs

/-- No step of any agent writes a build parameter (spec/00_scope.md R6). -/
theorem step_params {s t : State} (h : step s = .next t) : t.params = s.params := by
  obtain ⟨op, rest, -, h⟩ | ⟨rest, h⟩ | ⟨d, u, hu, rfl⟩ := step_agent h
  · by_cases hop : op = .rst
    · subst hop
      obtain ⟨_, _, h, -⟩ | ⟨_, _, _, h, -⟩ | ⟨-, rfl⟩ := hostStep_next h
      · cases h
      · cases h
      · simp
    · simpa using (hostStep_frame h hop).1
  · simpa using (coreStep_sameInputs h).1
  · rw [(hmacStep_frame d u).1.1]
    obtain rfl | ⟨rest, rfl⟩ := hu <;> simp

end Sys2Proof.Machine
end

section
/-! The values a command commits stay in the ranges of spec/10_state.md R51: the remaining seconds, the
pending Base32 bits, and the code. -/

namespace Sys2Proof.Machine

open Sys2Proof.Safety

/-- The remaining seconds in closed form (spec/43_totp.md R151, R152). -/
theorem remaining_eq {S : Nat} (t : Nat) (hS : 1 ≤ S) : remaining t S = S - t / 1000 % S := by
  have hmod : t / 1000 % S < S := Nat.mod_lt _ hS
  have hdiv : S * (t / 1000 / S) + t / 1000 % S = t / 1000 := Nat.div_add_mod _ _
  have hend : (t / 1000 / S + 1) * S = S * (t / 1000 / S) + S := by ring
  simp only [remaining, timeCounter, hend]
  omega

/-- The remaining seconds are 1 to S (R152). -/
theorem remaining_bounds {S : Nat} (t : Nat) (hS : 1 ≤ S) :
    1 ≤ remaining t S ∧ remaining t S ≤ S := by
  have hmod : t / 1000 % S < S := Nat.mod_lt _ hS
  rw [remaining_eq t hS]
  omega

/-- The remaining seconds of NOW fit their register and are 1 to STEP_S (R152). -/
theorem nowRemaining_bounds {s : State} (h : s.params.Legal) :
    1 ≤ (nowRemaining s).toNat ∧ (nowRemaining s).toNat ≤ s.params.stepS.toNat := by
  obtain ⟨hlo, hhi⟩ := remaining_bounds (now s).toNat h.2.2
  have hfits : (nowRemaining s).toNat = remaining (now s).toNat s.params.stepS.toNat := by
    rw [nowRemaining, BitVec.toNat_ofNat, Nat.mod_eq_of_lt (hhi.trans_lt s.params.stepS.isLt)]
  rw [hfits]
  exact ⟨hlo, hhi⟩

/-- Pack leaves fewer pending bits than a byte, and no other bit set (spec/40_base32.md R101). -/
theorem pack_acc_lt {acc : BitVec 7} {bitcnt : BitVec 3} (v : BitVec 5)
    (h : acc.toNat < 2 ^ bitcnt.toNat) :
    (pack acc bitcnt v).acc.toNat < 2 ^ (pack acc bitcnt v).bitcnt.toNat := by
  have hcnt := bitcnt.isLt
  by_cases hn : 8 ≤ bitcnt.toNat + 5
  · obtain ⟨k, hk⟩ : ∃ k : Fin 5, bitcnt.toNat + 5 - 8 = k.val := ⟨⟨_, by omega⟩, rfl⟩
    have hmask : ∀ k : Fin 5, ((1 <<< k.val : Nat) - 1 : BitVec 12).toNat < 2 ^ k.val := by decide
    have hcount : (BitVec.ofNat 3 k.val).toNat = k.val := by simp; omega
    simp only [pack, if_pos hn, hk, hcount, BitVec.toNat_setWidth, BitVec.toNat_and]
    calc _ ≤ _ := Nat.mod_le _ _
      _ ≤ _ := Nat.and_le_right
      _ < _ := hmask k
  · have hcount : (BitVec.ofNat 3 (bitcnt.toNat + 5)).toNat = bitcnt.toNat + 5 := by simp; omega
    simp only [pack, if_neg hn, hcount, BitVec.toNat_setWidth, BitVec.toNat_or,
      BitVec.toNat_shiftLeft, Nat.shiftLeft_eq]
    refine (Nat.mod_le _ _).trans_lt (Nat.or_lt_two_pow ?_ ?_)
    · refine (Nat.mod_le _ _).trans_lt ?_
      rw [Nat.pow_add]
      exact Nat.mul_lt_mul_of_pos_right ((Nat.mod_le _ _).trans_lt h) (by decide)
    · refine (Nat.mod_le _ _).trans_lt (v.isLt.trans_le ?_)
      exact Nat.pow_le_pow_right (by decide) (by omega)

/-- CODE_NUM holds the code's number: PVAL modulo 10^DIGITS (spec/42_hotp.md R132, R136). -/
theorem codeNumber_fits (x : Digest) (d : Nat) :
    (BitVec.ofNat 32 (codeNumber x d)).toNat = (truncValue x).toNat % 10 ^ d := by
  have hle : (truncValue x).toNat % 10 ^ d ≤ (truncValue x).toNat := Nat.mod_le _ _
  have hlt := (truncValue x).isLt
  rw [BitVec.toNat_ofNat, codeNumber, modDigits]
  omega

/-- A rendered character is an ASCII digit (R133). -/
theorem renderChar_range (n d i : Nat) :
    0x30 ≤ (renderChar n d i).toNat ∧ (renderChar n d i).toNat ≤ 0x39 := by
  have hdigit : n / 10 ^ (d - 1 - i) % 10 < 10 := Nat.mod_lt _ (by decide)
  rw [renderChar, BitVec.toNat_ofNat]
  omega

/-- CODE holds the rendered characters, then zero bytes (R133, R136). -/
theorem getElem_codeBuffer_codeString (x : Digest) (d : Nat) (i : Fin 16) :
    (codeBuffer (codeString x d))[i] =
      if i.val < d then renderChar (codeNumber x d) d i.val else 0 := by
  by_cases hi : i.val < d <;> simp [codeBuffer, codeString, render, hi]

end Sys2Proof.Machine
end

section
/-! The invariants of spec/10_state.md R51, operation by operation: each write of a command keeps them, and
so do finish, the request, the host's accesses and the hmac agent's answer. -/

namespace Sys2Proof.Safety

open Sys2Proof.Machine

variable {s t : State}

theorem Inv.resetFor {p : Params} (hp : p.Legal) : Inv (State.resetFor p) where
  paramsLegal := hp
  reqWait := by simp [State.resetFor]
  respResp := by simp [State.resetFor]
  abortBusy := by simp [State.resetFor]
  keySize := List.length_replicate
  keyLenMax := Nat.zero_le _
  keyTail := fun _ _ hi => List.getD_replicate _ hi
  accPending := by simp [State.resetFor]
  kovfFull := by simp [State.resetFor]
  codeNumber := by simp [State.resetFor]
  noCode := by simp [State.resetFor]
  codeChars := by simp [State.resetFor]
  codeTail := by simp [State.resetFor]
  verdict := by simp [State.resetFor]
  remainRange := .inl rfl
  inFlightCmd := by simp [InFlight, State.resetFor]
  inFlightRemain := by simp [InFlight, State.resetFor]

/-! The schedule, the host's word and the registers R51 does not speak of. -/

theorem Inv.afterTurn (h : Inv s) (rest : List Turn) : Inv (afterTurn rest s) := { h with }
theorem Inv.useDraw (h : Inv s) : Inv (useDraw s) := { h with }
theorem Inv.answerHost (h : Inv s) (v : Word) : Inv (answerHost v s) := { h with }
theorem Inv.markDropped (h : Inv s) : Inv (markDropped s) := { h with }
theorem Inv.clearStatus (h : Inv s) (v : Word) : Inv (clearStatus v s) := { h with }
theorem Inv.setIe (h : Inv s) (v : Word) : Inv (setIe v s) := { h with }
theorem Inv.setCtr (h : Inv s) (c : DWord) : Inv (setCtr c s) := { h with }
theorem Inv.setH (h : Inv s) (x : Digest) : Inv (setH x s) := { h with }
theorem Inv.setCand (h : Inv s) (c : Buffer16) : Inv { s with cand := c } := { h with }
theorem Inv.setWctr (h : Inv s) (c : DWord) : Inv (setWctr c s) := { h with }
theorem Inv.setVbase (h : Inv s) (c : DWord) : Inv (setVbase c s) := { h with }
theorem Inv.setVidx (h : Inv s) (i : Fin 3) : Inv (setVidx i s) := { h with }

/-! The control registers. -/

theorem Inv.req_none (h : Inv s) (hf : s.fsm ≠ .wait) : s.req = none := by
  simpa using mt h.reqWait.mp hf

theorem Inv.resp_none (h : Inv s) (hf : s.fsm ≠ .resp) : s.resp = none := by
  simpa using mt h.respResp.mp hf

theorem Inv.requestAbort (h : Inv s) (hf : s.fsm ≠ .idle) : Inv (requestAbort s) :=
  { h with abortBusy := fun _ => hf }

/-- `Accept` starts from an idle block (spec/45_control.md R180). -/
theorem Inv.accept (h : Inv s) (hf : s.fsm = .idle) (w : Word) : Inv (accept w s) :=
  { h with
    reqWait := by simp [h.req_none (by simp [hf])]
    respResp := by simp [h.resp_none (by simp [hf])]
    abortBusy := by simp
    inFlightCmd := by simp [InFlight]
    inFlightRemain := by simp [InFlight] }

/-- finish returns the block to idle with no request and no response (R184). -/
theorem Inv.finish (h : Inv s) (hf : s.fsm ≠ .wait) (e : ErrCode) : Inv (finish e s) :=
  { h with
    reqWait := by simp [h.req_none hf]
    respResp := by simp
    abortBusy := by simp
    verdict := by
      by_cases hc : clearsVerdict e s = true
      · simp [hc]
      · simpa [hc] using h.verdict
    inFlightCmd := by simp [InFlight]
    inFlightRemain := by simp [InFlight] }

theorem dropResp_eq_self (hr : s.resp = none) : dropResp s = s := by
  cases s
  cases hr
  rfl

/-- A request leaves the core waiting for the answer to a command that may send one (spec/41_hmac_port.md
R121, spec/45_control.md R183). -/
theorem Inv.hmacRequest {i : Instr} (h : Inv s) (hi : decode s.cmd = .ok i)
    (hsend : sendsRequest i = true)
    (hrem : opField s.cmd = 0x7 → 1 ≤ s.tcRem.toNat ∧ s.tcRem.toNat ≤ s.params.stepS.toNat)
    (k : List Byte) (m : Message) : Inv (hmacRequest k m (dropResp s)) :=
  { h with
    reqWait := by simp
    respResp := by simp
    abortBusy := by simp
    inFlightCmd := fun _ => ⟨i, hi, hsend⟩
    inFlightRemain := fun _ => hrem }

/-- The hmac agent's answer moves the request to a response (spec/41_hmac_port.md R122). -/
theorem Inv.hmacStep (h : Inv s) (d : HmacDraw) : Inv (hmacStep d s) := by
  cases hr : s.req with
  | none => rwa [hmacStep_none hr]
  | some r =>
    have hwait : s.fsm = .wait := h.reqWait.mp (by simp [hr])
    rw [hmacStep_some hr]
    exact
      { h with
        reqWait := by simp
        respResp := by simp
        abortBusy := by simp
        inFlightCmd := fun _ => h.inFlightCmd (.inl hwait)
        inFlightRemain := fun _ => h.inFlightRemain (.inl hwait) }

/-! The key buffer and the packer. -/

theorem Inv.clearKey (h : Inv s) : Inv (clearKey s) :=
  { h with
    keySize := List.length_replicate
    keyLenMax := Nat.zero_le _
    keyTail := fun _ _ hi => List.getD_replicate _ hi
    accPending := by simp
    kovfFull := by simp }

theorem Inv.setPacker (h : Inv s) (acc : BitVec 7) (bitcnt : BitVec 3)
    (hp : acc.toNat < 2 ^ bitcnt.toNat) : Inv (setPacker acc bitcnt s) :=
  { h with accPending := hp }

theorem Inv.setKovf (h : Inv s) (hfull : s.keyLen = s.params.keyMax) : Inv (setKovf s) :=
  { h with kovfFull := fun _ => hfull }

theorem Inv.storeKeyByte (h : Inv s) (hk : s.kovf = false) (hroom : s.keyLen ≠ s.params.keyMax)
    (b : Byte) : Inv (storeKeyByte b s) :=
  { h with
    keySize := by simpa using h.keySize
    keyLenMax := Nat.lt_of_le_of_ne h.keyLenMax hroom
    keyTail := fun i hlo hhi => by
      have hpast : s.keyLen < i := hlo
      simpa [List.getD_eq_getElem?_getD, List.getElem?_set_ne hpast.ne] using
        h.keyTail i hpast.le hhi
    kovfFull := by simp [hk] }

/-! The results. -/

theorem Inv.setRemain (h : Inv s) {n : Word}
    (hn : 1 ≤ n.toNat ∧ n.toNat ≤ s.params.stepS.toNat) : Inv (setRemain n s) :=
  { h with remainRange := .inr hn }

theorem Inv.setTcRem (h : Inv s) {n : Word}
    (hn : 1 ≤ n.toNat ∧ n.toNat ≤ s.params.stepS.toNat) : Inv (setTcRem n s) :=
  { h with inFlightRemain := fun _ _ => hn }

theorem Inv.setVerdict (h : Inv s) (valid : Bool) (idx : BitVec 2) (hv : valid = true ↔ idx ≠ 0) :
    Inv (setVerdict valid idx s) :=
  { h with verdict := hv }

theorem Inv.commitCode (h : Inv s) (x : Digest) {d : BitVec 4} (hd : d ≠ 0) :
    Inv (commitCode x d s) :=
  { h with
    codeNumber := fun _ => codeNumber_fits x d.toNat
    noCode := fun h0 => absurd h0 hd
    codeChars := fun i hi => by
      have hi : i.val < d.toNat := hi
      rw [commitCode_code, getElem_codeBuffer_codeString, if_pos hi]
      exact renderChar_range _ _ _
    codeTail := fun i hi => by
      have hi : d.toNat ≤ i.val := hi
      rw [commitCode_code, getElem_codeBuffer_codeString, if_neg hi.not_gt] }

end Sys2Proof.Safety
end

section
/-! Every step of every agent keeps the invariants. -/

namespace Sys2Proof.Safety

open Sys2Proof.Machine

variable {s t : State}

/-- In EXEC no response is held, so a request starts from the state as it is. -/
theorem Inv.hmacRequest_of_exec {i : Instr} (h : Inv s) (hf : s.fsm ≠ .resp) (hi : decode s.cmd = .ok i)
    (hsend : sendsRequest i = true)
    (hrem : opField s.cmd = 0x7 → 1 ≤ s.tcRem.toNat ∧ s.tcRem.toNat ≤ s.params.stepS.toNat)
    (k : List Byte) (m : Message) : Inv (Machine.hmacRequest k m s) := by
  simpa [dropResp_eq_self (h.resp_none hf)] using h.hmacRequest hi hsend hrem k m

/-- `Try(i)` of an accepted VERIFY in EXEC (spec/44_verify.md R167). -/
theorem Inv.tryEntry_of_exec {i : Instr} (h : Inv s) (hf : s.fsm ≠ .resp) (hi : decode s.cmd = .ok i)
    (hsend : sendsRequest i = true) (hop : opField s.cmd ≠ 0x7) (n : Fin 3) : Inv (tryEntry n s) :=
  ((h.setVidx n).setWctr (windowCounter s.vbase n)).hmacRequest_of_exec hf hi hsend (absurd · hop) _ _

/-- `Try(i)` after a miss, with the response dropped (R167). -/
theorem Inv.tryEntry_dropResp {i : Instr} (h : Inv s) (hi : decode s.cmd = .ok i)
    (hsend : sendsRequest i = true) (hop : opField s.cmd ≠ 0x7) (n : Fin 3) :
    Inv (tryEntry n (dropResp s)) :=
  ((h.setVidx n).setWctr (windowCounter s.vbase n)).hmacRequest hi hsend (absurd · hop) _ _

/-- The core step of the latched command keeps the invariants, in EXEC and in RESP. -/
theorem Inv.exec {i : Instr} (h : Inv s) (hf : s.fsm = .exec ∨ s.fsm = .resp)
    (hi : decode s.cmd = .ok i) (hx : exec i s = .next t) : Inv t := by
  have hw : s.fsm ≠ .wait := by rcases hf with hf | hf <;> simp [hf]
  have hwf := decode_ok_wellFormed hi
  have hcmd := encode_of_decode_ok hi
  have hnow := nowRemaining_bounds h.paramsLegal
  cases i with
  | nop => rw [execNop_next hx]; exact h.finish hw _
  | abort => rw [execAbort_next hx]; exact h.finish hw _
  | keyclr => rw [execKeyclr_next hx]; exact h.clearKey.finish hw _
  | b32push ch =>
    obtain ⟨-, rfl⟩ | ⟨-, -, rfl⟩ | ⟨v, hk, -, ⟨-, rfl⟩ | ⟨e, -, ⟨hfull, rfl⟩ | ⟨hroom, rfl⟩⟩⟩ :=
      execB32push_next hx
    · exact h.finish hw _
    · exact h.finish hw _
    · exact (h.setPacker _ _ (pack_acc_lt v h.accPending)).finish hw _
    · exact (h.setKovf hfull).finish hw _
    · exact ((h.setPacker _ _ (pack_acc_lt v h.accPending)).storeKeyByte hk hroom e).finish hw _
  | keypush b =>
    obtain ⟨-, rfl⟩ | ⟨-, hfull, rfl⟩ | ⟨hk, hroom, rfl⟩ := execKeypush_next hx
    · exact h.finish hw _
    · exact (h.setKovf hfull).finish hw _
    · exact ((h.setPacker 0 0 (by decide)).storeKeyByte hk hroom b).finish hw _
  | tctr => rw [execTctr_next hx]; exact ((h.setCtr _).setRemain hnow).finish hw _
  | trunc d =>
    obtain ⟨-, rfl⟩ | ⟨hd, rfl⟩ := execTrunc_next hx
    · exact h.finish hw _
    · exact (h.commitCode s.h hd).finish hw _
  | hotp d =>
    have hd : d ≠ 0 := by simpa [Instr.WellFormed, Instr.wellFormed] using hwf
    obtain ⟨hr, ⟨-, rfl⟩ | ⟨-, -, rfl⟩ | ⟨-, -, rfl⟩⟩ | ⟨-, ⟨-, rfl⟩ | ⟨x, -, rfl⟩⟩ :=
      execHotp_next hx
    · exact h.finish hw _
    · exact h.finish hw _
    · refine (h.setWctr (ctr s)).hmacRequest_of_exec hr hi rfl (fun h7 => ?_) _ _
      simp [← hcmd, encode] at h7
    · exact h.finish hw _
    · exact ((h.setH x).commitCode x hd).finish hw _
  | totp d =>
    have hd : d ≠ 0 := by simpa [Instr.WellFormed, Instr.wellFormed] using hwf
    obtain ⟨hr, ⟨-, rfl⟩ | ⟨-, -, rfl⟩ | ⟨-, -, -, rfl⟩ | ⟨-, -, -, rfl⟩⟩ |
      ⟨hr, ⟨-, rfl⟩ | ⟨x, -, rfl⟩⟩ := execTotp_next hx
    · exact h.finish hw _
    · exact h.finish hw _
    · exact h.finish hw _
    · exact ((h.setTcRem hnow).setWctr _).hmacRequest_of_exec hr hi rfl (fun _ => hnow) _ _
    · exact h.finish hw _
    · have h7 : opField s.cmd = 0x7 := by simp [← hcmd, encode]
      have hheld := h.inFlightRemain (.inr hr) h7
      exact ((((h.setCtr _).setRemain hheld).setH x).commitCode x hd).finish hw _
  | verify =>
    have h7 : opField s.cmd ≠ 0x7 := by simp [← hcmd, encode]
    obtain ⟨hr, ⟨-, rfl⟩ | ⟨-, -, rfl⟩ | ⟨-, -, rfl⟩⟩ |
      ⟨-, ⟨-, rfl⟩ | ⟨x, -, ⟨-, rfl⟩ | ⟨-, -, rfl⟩ | ⟨-, -, rfl⟩⟩⟩ := execVerify_next hx
    · exact h.finish hw _
    · exact h.finish hw _
    · exact (h.setVbase (nowCounter s)).tryEntry_of_exec hr hi rfl h7 _
    · exact h.finish hw _
    · refine (h.setVerdict true _ ?_).finish hw _
      have : ∀ v : Fin 3, BitVec.ofNat 2 (v.val + 1) ≠ 0 := by decide
      simpa using this s.vidx
    · exact (h.setVerdict false 0 (by decide)).finish hw _
    · exact h.tryEntry_dropResp hi rfl h7 (s.vidx + 1)

/-- The response step is that of the command the latched word decodes to (spec/45_control.md R183). -/
theorem Inv.decode_of_resp {i : Instr} (h : Inv s) (hf : s.fsm = .resp)
    (hop : opField s.cmd = opField (encode i))
    (hdig : takesDigits i = true → digField s.cmd = digField (encode i))
    (hsend : sendsRequest i = true) : decode s.cmd = .ok i := by
  obtain ⟨j, hj, hjsend⟩ := h.inFlightCmd (.inr hf)
  obtain ⟨hjop, hjdig⟩ := decode_ok_fields hj
  have hij : i = j := by
    cases i <;> cases j <;> simp_all [sendsRequest, takesDigits, encode]
  rw [hj, hij]

theorem Inv.coreStep (h : Inv s) (hc : coreStep s = .next t) : Inv t := by
  obtain ⟨-, rfl⟩ | ⟨hf, -, rfl⟩ | ⟨hf, -, -, rfl⟩ | ⟨hf, -, i, hi, hx⟩ |
    ⟨hf, -, i, hop, hdig, hsend, hx⟩ := coreStep_next hc
  · exact h
  · exact h.finish (by rcases hf with hf | hf <;> simp [hf]) _
  · exact h.finish (by simp [hf]) _
  · exact h.exec (.inl hf) hi hx
  · exact h.exec (.inr hf) (h.decode_of_resp hf hop hdig hsend) hx

theorem Inv.writeReg (h : Inv s) (r : Reg) (v : Word) : Inv (writeReg r v s) := by
  obtain hr | ⟨-, hf, hr⟩ | ⟨-, hf, -, hr⟩ | ⟨-, hr⟩ | ⟨-, hr⟩ | ⟨-, hr⟩ |
    ⟨-, hr | hr | hr | hr | hr | ⟨k, hr⟩ | ⟨k, hr⟩⟩ := writeReg_cases r v s <;> rw [hr]
  · exact h
  · exact h.accept hf v
  · exact h.requestAbort hf
  · exact h.markDropped
  · exact h.clearStatus v
  · exact h.setIe v
  · exact { h with }
  · exact { h with }
  · exact { h with }
  · exact { h with }
  · exact { h with }
  · exact h.setCand (putWord s.cand k v)
  · exact h.setH (putWord s.h k v)

theorem Inv.hostStep {op : HostOp} (h : Inv s) (hs : hostStep op s = .next t) : Inv t := by
  obtain ⟨w, off, -, -, rfl⟩ | ⟨w, off, v, -, -, rfl⟩ | ⟨-, rfl⟩ := hostStep_next hs
  · exact h.answerHost _
  · exact h.writeReg _ v
  · exact { Inv.resetFor h.paramsLegal with }

/-- Settles O53: each agent's step keeps the invariants. -/
theorem stepKeepsInvariants : Obligations.StepKeepsInvariants := by
  intro s t h hs
  obtain ⟨op, rest, -, hs⟩ | ⟨rest, hs⟩ | ⟨d, u, hu, rfl⟩ := step_agent hs
  · exact (h.afterTurn rest).hostStep hs
  · exact (h.afterTurn rest).coreStep hs
  · obtain rfl | ⟨rest, rfl⟩ := hu
    · exact h.useDraw.hmacStep d
    · exact (h.afterTurn rest).hmacStep d

/-- Settles O54: the reset state is the reset of a legal build. -/
theorem resetMeetsInvariants : Obligations.ResetMeetsInvariants :=
  Inv.resetFor (by decide)

end Sys2Proof.Safety
end

section
/-! What the host reads in the register window (spec/10_state.md section 2, spec/20_memory.md R63, R67). -/

namespace Sys2Proof.Machine

open Sys2Proof.Safety

/-- A concatenation in arithmetic. -/
theorem toNat_append_eq {n k : Nat} (x : BitVec n) (y : BitVec k) :
    (x ++ y).toNat = x.toNat * 2 ^ k + y.toNat := by
  rw [BitVec.toNat_append, ← Nat.shiftLeft_add_eq_or_of_lt y.isLt, Nat.shiftLeft_eq]

/-- A host write turn at a word-aligned offset of the window writes the register there (R61, R64). -/
theorem step_write {s : State} {rest : List Turn} {off : Nat} {v : Word}
    (h : s.turns = .host (.wr 4 off v) :: rest) (ha : admitted 4 off = true) :
    step s = .next (writeReg (regAt off) v (afterTurn rest s)) := by
  simp [step, scheduledStep, h, takeTurn, hostStep, ha]

/-! Which register stands at the word offsets of the five buffers and in the holes. -/

theorem regAt_cand (k : Fin 4) : regAt (0x044 + 4 * k) = .cand k := by revert k; decide
theorem regAt_code (k : Fin 4) : regAt (0x054 + 4 * k) = .code k := by revert k; decide
theorem regAt_h (k : Fin 5) : regAt (0x064 + 4 * k) = .h k := by revert k; decide
theorem regAt_keyw (k : Fin 64) : regAt (0x100 + 4 * k) = .keyw k := by revert k; decide

theorem regAt_hole {off : Nat} (h : (0x078 ≤ off ∧ off ≤ 0x0FC) ∨ 0x200 ≤ off) :
    regAt off = .hole := by
  unfold regAt
  rw [if_neg (by omega), if_neg (by omega), if_neg (by omega), if_neg (by omega)]
  rcases h with ⟨hlo, hhi⟩ | hlo
  · exact if_pos (by omega)
  · rw [if_neg (by omega), if_neg (by omega)]

/-- Word k of a buffer that has its four bytes (R67). -/
theorem wordAt_eq {n k : Nat} (v : Vector Byte n) (h : 4 * k + 3 < n) :
    wordAt v k = v[4 * k] ++ v[4 * k + 1] ++ v[4 * k + 2] ++ v[4 * k + 3] := by
  simp [wordAt, packWord, show 4 * k < n by omega, show 4 * k + 1 < n by omega,
    show 4 * k + 2 < n by omega, h]

/-- Byte j of word k of the KEY window (spec/10_state.md R33). -/
theorem byteOfWord_keyWord (s : State) (k : Nat) {j : Nat} (hj : j < 4) :
    byteOfWord (keyWord s k) j =
      if s.params.keyReadback = true ∧ 4 * k + j < s.params.keyMax then s.key.getD (4 * k + j) 0
      else 0 := by
  by_cases hrb : s.params.keyReadback = true
  · obtain ⟨h0, h1, h2, h3⟩ := byteOfWord_packWord (keyByte s (4 * k)) (keyByte s (4 * k + 1))
      (keyByte s (4 * k + 2)) (keyByte s (4 * k + 3))
    simp only [keyWord, hrb, if_true, true_and]
    interval_cases j
    · exact h0
    · exact h1
    · exact h2
    · exact h3
  · simp [keyWord, hrb, byteOfWord]

/-- Settles O18: each offset from 0x000 to 0x03C but 0x008 and 0x00C reads its register's fields. -/
theorem registerMapReads : Obligations.RegisterMapReads := by
  intro s
  refine ⟨rfl, rfl, fun hlen => ?_, ?_, rfl, ?_, rfl, rfl, rfl, rfl, rfl, ?_, ?_, rfl⟩
  · have hfits : s.keyLen < 2 ^ 9 := hlen.trans_lt (by decide)
    change ((BitVec.ofNat 9 s.keyLen).setWidth 32).toNat = s.keyLen
    simp
    omega
  · change ((0 : BitVec 21) ++ s.bitcnt ++ (0 : BitVec 1) ++ s.acc).toNat = _
    rw [toNat_append_eq, toNat_append_eq, toNat_append_eq]
    simp
    omega
  all_goals
    exact BitVec.toNat_setWidth_of_le (by decide)

/-- Settles O60: the words of the buffers, the bytes of the KEY window, and the holes. -/
theorem bufferReads : Obligations.BufferReads := by
  intro s
  refine ⟨rfl, fun k hk => ?_, fun k hk => ?_, fun k hk => ?_, fun k hk j hj => ?_, fun off hoff => ?_⟩
  · rw [readOffset, regAt_cand ⟨k, hk⟩]
    exact wordAt_eq s.cand _
  · rw [readOffset, regAt_code ⟨k, hk⟩]
    exact wordAt_eq s.code _
  · rw [readOffset, regAt_h ⟨k, hk⟩]
    exact wordAt_eq s.h _
  · rw [readOffset, regAt_keyw ⟨k, hk⟩]
    exact byteOfWord_keyWord s k hj
  · rw [readOffset, regAt_hole hoff]
    rfl

/-- The one-bit fields of STATUS (R24, R25); bit 7 is reserved. -/
theorem statusWord_flags (s : State) :
    (statusWord s).getLsbD 0 = decide (s.fsm ≠ .idle) ∧ (statusWord s).getLsbD 1 = s.done ∧
      (statusWord s).getLsbD 2 = s.valid ∧ (statusWord s).getLsbD 5 = s.kovf ∧
      (statusWord s).getLsbD 6 = s.ovr ∧ (statusWord s).getLsbD 7 = false := by
  have hbusy : busy s = decide (s.fsm ≠ .idle) := by cases hf : s.fsm <;> simp [busy, hf]
  simp only [statusWord, BitVec.getLsbD_append, hbusy]
  simp [flagBit]

/-- MATCH stands in bits 4:3 (R24). -/
theorem statusWord_matchIdx (s : State) : (statusWord s).extractLsb' 3 2 = s.matchIdx := by
  ext i hi
  simp only [statusWord, BitVec.getElem_extractLsb', BitVec.getLsbD_append]
  simp [show 3 + i - 1 = i + 2 by omega, hi]

/-- ERR stands in bits 11:8 (R24). -/
theorem statusWord_err (s : State) : (statusWord s).extractLsb' 8 4 = errNumber s.err := by
  ext i hi
  simp only [statusWord, BitVec.getElem_extractLsb', BitVec.getLsbD_append]
  simp [show 8 + i - 1 = i + 7 by omega, hi]

/-- Bits 31:12 are reserved (R24). -/
theorem statusWord_reserved (s : State) : (statusWord s).extractLsb' 12 20 = 0 := by
  ext i hi
  simp only [statusWord, BitVec.getElem_extractLsb', BitVec.getLsbD_append]
  simp [show 12 + i - 1 = i + 11 by omega, hi]

/-- Settles O13: STATUS by its fields, and the write that clears DONE and OVR. -/
theorem statusRegister : Obligations.StatusRegister := by
  refine ⟨fun s => ?_, by decide, fun s rest v h => ?_⟩
  · obtain ⟨hbusy, hdone, hvalid, hkovf, hovr, hbit7⟩ := statusWord_flags s
    exact ⟨hbusy, hdone, hvalid, statusWord_matchIdx s, hkovf, hovr, hbit7, statusWord_err s,
      rfl, rfl, rfl, rfl, rfl, rfl, statusWord_reserved s⟩
  · have keep : ∀ b old : Bool, (old && !b) = if b then false else old := by decide
    rw [step_write h (by decide), ← keep, ← keep]
    rfl

/-- Bit 0 of a word, read back with the other bits 0 (R31). -/
theorem setWidth_flagBit_getLsbD_zero (v : Word) : (flagBit (v.getLsbD 0)).setWidth 32 = v &&& 1 := by
  ext i hi
  by_cases h0 : i = 0 <;> simp [flagBit, BitVec.getElem_one, h0]

/-- Settles O14: a write to IRQ_EN stores bit 0, which the register then reads. -/
theorem interruptEnable : Obligations.InterruptEnable := by
  refine ⟨by decide, fun s rest v h => ⟨step_write h (by decide), ?_⟩⟩
  exact setWidth_flagBit_getLsbD_zero v

end Sys2Proof.Machine
end

section
/-! What only some commands write: the registers of spec/10_state.md R50's table, KOVF (R28), and VALID and
MATCH (R27). -/

namespace Sys2Proof.Machine

open Sys2Proof.Safety

variable {i : Instr} {s t : State}

/-- Settles O20: STEP reads a build parameter, which no step writes. -/
theorem stepRegisterIsConstant : Obligations.StepRegisterIsConstant :=
  ⟨rfl, fun _ => rfl, fun _ _ => step_params⟩

/-- Settles O52: a register reads one group of the state, which a command that does not list the register
leaves as it is. -/
theorem onlyListedRegistersChange : Obligations.OnlyListedRegistersChange := by
  intro i s t h r hr hw
  obtain ⟨hin, hkey, htime, hdigest, hcode, -, -⟩ := exec_frame h
  cases r with
  | id | cmd | hole => rfl
  | status => exact absurd rfl hr
  | irqEn | step | nowLo | nowHi | candLen | cand k => simp only [readReg, hin]
  | keyLen | b32State | keyw k =>
    have hkey := hkey (by cases i <;> exact hw)
    simp only [readReg, keyWord, keyByte, hkey, hin]
  | ctrLo | ctrHi | remain =>
    have htime := htime (by cases i <;> exact hw)
    simp only [readReg, htime]
  | h k =>
    have hdigest : t.h = s.h := hdigest (by cases i <;> exact hw)
    simp only [readReg, hdigest]
  | digits | offs | pval | codeNum | code k =>
    have hcode := hcode (by cases i <;> exact hw)
    simp only [readReg, hcode]

/-! KOVF. -/

/-- Only KEYCLR clears KOVF: the other commands that write the key refuse while it is 1 (R28). -/
theorem exec_clears_kovf (h : exec i s = .next t) (hs : s.kovf = true) (ht : t.kovf = false) :
    i = .keyclr := by
  cases i with
  | keyclr => rfl
  | b32push ch =>
    obtain ⟨-, rfl⟩ | ⟨hk, -⟩ | ⟨v, hk, -⟩ := execB32push_next h <;> simp_all
  | keypush b =>
    obtain ⟨-, rfl⟩ | ⟨hk, -⟩ | ⟨hk, -⟩ := execKeypush_next h <;> simp_all
  | nop | abort | tctr | trunc d | hotp d | totp d | verify =>
    obtain ⟨-, -, -, -, hkovf⟩ := (exec_frame h).key rfl
    simp [hkovf, hs] at ht

/-- Settles O56: only the core step of the word KEYCLR clears KOVF, the reset event aside. -/
theorem onlyKeyclrClearsKovf : Obligations.OnlyKeyclrClearsKovf := by
  intro s t h hs ht
  obtain hrst | ⟨rest, hc⟩ | ⟨⟨-, -, -, -, hkovf⟩, -, -⟩ := step_core_or_frame h
  · exact .inl hrst
  · obtain rfl | ⟨-, ⟨e, rfl⟩ | ⟨i, -, hx, hrun⟩⟩ := coreStep_outcome hc
    · simp [hs] at ht
    · simp [hs] at ht
    · obtain rfl := exec_clears_kovf hx hs ht
      exact .inr (hrun.resolve_right (by simp [sendsRequest]))
  · simp [hkovf, hs] at ht

/-! VALID and MATCH. -/

/-- Settles O57: a core step that changes the verdict runs a word with OP = 0x8 and ends the command; no
other step changes it, the reset event aside. -/
theorem onlyVerifyWritesVerdict : Obligations.OnlyVerifyWritesVerdict := by
  intro s t h hchanged
  obtain hrst | ⟨rest, hc⟩ | ⟨-, -, hsame⟩ := step_core_or_frame h
  · exact .inl hrst
  · right
    obtain rfl | ⟨hf, ⟨e, rfl⟩ | ⟨i, hop, hx, -⟩⟩ := coreStep_outcome hc
    · exact absurd ⟨rfl, rfl⟩ hchanged
    · refine ⟨?_, ?_, rfl⟩
      · by_contra h8
        exact hchanged (finish_sameVerdict (s := afterTurn rest s) h8)
      · rcases hf with hf | hf <;> simp_all
    · obtain ⟨-, -, -, -, -, hverdict, hrunning⟩ := exec_frame hx
      refine ⟨?_, ?_, ?_⟩
      · by_contra h8
        exact hchanged (hverdict h8 fun hi => h8 (hop.trans (opField_encode_eq_verify.mpr hi)))
      · rcases hf with hf | hf <;> simp_all
      · by_contra hbusy
        obtain ⟨-, -, -, -, hsame⟩ := hrunning hbusy
        exact hchanged hsame
  · exact absurd hsame hchanged

/-! The key commands while KOVF = 1. -/

/-- Without a held response a command that sends a request makes its execute step (spec/45_control.md
R183). -/
theorem exec_execute_step (h : s.fsm ≠ .resp) :
    (∀ d, exec (.hotp d) s = hotpExecute d s) ∧ (∀ d, exec (.totp d) s = totpExecute d s) ∧
      exec .verify s = verifyExecute s := by
  cases hf : s.fsm <;> simp_all [exec, execHotp, execTotp, execVerify]

/-- While KOVF = 1 every command that uses the key ends with KEY_OVERFLOW (R28). -/
theorem exec_of_kovf (hk : s.kovf = true) (hwf : i.WellFormed)
    (hi : (∃ x, i = .b32push x) ∨ (∃ x, i = .keypush x) ∨ (sendsRequest i = true ∧ s.fsm ≠ .resp)) :
    exec i s = .next (finish .keyOverflow s) := by
  obtain ⟨ch, rfl⟩ | ⟨b, rfl⟩ | ⟨hsend, hf⟩ := hi
  · simp [exec, execB32push, hk, raise]
  · simp [exec, execKeypush, hk, raise]
  · obtain ⟨hhotp, htotp, hverify⟩ := exec_execute_step hf
    cases i with
    | hotp d =>
      have hd : ¬ d = 0 := by simpa [Instr.WellFormed, Instr.wellFormed] using hwf
      rw [hhotp, hotpExecute, if_neg hd, if_pos hk, raise]
    | totp d =>
      have hd : ¬ d = 0 := by simpa [Instr.WellFormed, Instr.wellFormed] using hwf
      rw [htotp, totpExecute, if_neg hd, if_pos hk, raise]
    | verify => rw [hverify, verifyExecute, if_pos hk, raise]
    | nop | keyclr | b32push | keypush | tctr | trunc | abort => cases hsend

/-- Settles O29: the command ends with KEY_OVERFLOW, and finish clears the verdict of a VERIFY only. -/
theorem kovfRefusesKeyCommands : Obligations.KovfRefusesKeyCommands := by
  intro s i hk hcmd hwf hi
  obtain ⟨hend, hin, hkey, htime, hdigest, hcode, hhidden, hreq⟩ := finish_frame .keyOverflow s
  refine ⟨_, exec_of_kovf hk hwf hi, hend, hin, hkey, htime, hdigest, hcode, hhidden, hreq,
    fun hv => ?_, fun hv => ?_⟩
  · exact finish_clearsVerdict (hcmd ▸ opField_encode_eq_verify.mpr hv) (by decide)
  · exact finish_sameVerdict (hcmd ▸ mt opField_encode_eq_verify.mp hv)

end Sys2Proof.Machine
end

section
/-! The accesses of the register window (spec/20_memory.md): a read, a write to an input register of an idle
block, and an access the window does not admit. -/

namespace Sys2Proof.Machine

open Sys2Proof.Safety

/-- A host turn is the host's step with the turn taken off the schedule. -/
theorem step_host {s : State} {rest : List Turn} {op : HostOp} (h : s.turns = .host op :: rest) :
    step s = hostStep op (afterTurn rest s) := by
  simp [step, scheduledStep, h, takeTurn]

/-- The window admits one word at a multiple of 4, up to 0xFFC (R61, R62). -/
theorem admitted_iff {width off : Nat} :
    admitted width off = true ↔ width = 4 ∧ off % 4 = 0 ∧ off ≤ 0xFFC := by
  simp [admitted, and_assoc]

/-- No register holds the schedule. -/
@[simp] theorem readReg_afterTurn (r : Reg) (rest : List Turn) (s : State) :
    readReg r (afterTurn rest s) = readReg r s := rfl

/-! The register map, inverted. -/

/-- The offset of a register (spec/10_state.md section 2). A hole stands at no one offset: the value for it
is a placeholder, which `regOffset_regAt` leaves out. -/
def regOffset : Reg → Nat
  | .id => 0x000
  | .cmd => 0x004
  | .status => 0x008
  | .irqEn => 0x00C
  | .keyLen => 0x010
  | .b32State => 0x014
  | .step => 0x018
  | .digits => 0x01C
  | .ctrLo => 0x020
  | .ctrHi => 0x024
  | .nowLo => 0x028
  | .nowHi => 0x02C
  | .remain => 0x030
  | .offs => 0x034
  | .pval => 0x038
  | .codeNum => 0x03C
  | .candLen => 0x040
  | .cand k => 0x044 + 4 * k.val
  | .code k => 0x054 + 4 * k.val
  | .h k => 0x064 + 4 * k.val
  | .keyw k => 0x100 + 4 * k.val
  | .hole => 0x200

/-- A word-aligned offset that is no hole is the offset of its register. -/
theorem regOffset_regAt {off : Nat} (ha : off % 4 = 0) (hr : regAt off ≠ .hole) :
    regOffset (regAt off) = off := by
  have hwords : ∀ k < 128, regAt (4 * k) ≠ .hole → regOffset (regAt (4 * k)) = 4 * k := by decide
  have hlow : off < 0x200 := Nat.lt_of_not_le fun hhigh => hr (regAt_hole (.inr hhigh))
  obtain ⟨k, rfl⟩ := Nat.dvd_of_mod_eq_zero ha
  exact hwords k (by omega) hr

/-- No two word-aligned offsets hold the same register, holes aside. -/
theorem regAt_ne_of_ne {off other : Nat} (ha : off % 4 = 0) (hb : other % 4 = 0)
    (hr : regAt off ≠ .hole) (hne : other ≠ off) : regAt other ≠ regAt off := by
  intro heq
  have hoff := regOffset_regAt ha hr
  have hother := regOffset_regAt hb (heq ▸ hr)
  exact hne (by rw [← hother, heq, hoff])

/-! The input registers (spec/45_control.md R182). -/

/-- CTR, NOW, CAND_LEN, CAND and H. -/
def isInput : Reg → Bool
  | .ctrLo | .ctrHi | .nowLo | .nowHi | .candLen | .cand _ | .h _ => true
  | _ => false

/-- The input offsets are those of the input registers. -/
theorem isInput_regAt {off : Nat} (ha : off % 4 = 0) (hin : inputOffset off = true) :
    isInput (regAt off) = true := by
  have hwords : ∀ k < 30, inputOffset (4 * k) = true → isInput (regAt (4 * k)) = true := by decide
  obtain ⟨k, rfl⟩ := Nat.dvd_of_mod_eq_zero ha
  refine hwords k ?_ hin
  simp [inputOffset] at hin
  omega

theorem writeInput_of_idle {s t : State} (hf : s.fsm = .idle) : writeInput s t = t := by
  simp [writeInput, busy, hf]

/-- A word written to a byte buffer reads back (R67). -/
theorem wordAt_putWord_same {n k : Nat} (b : Vector Byte n) (w : Word) (hk : 4 * k + 3 < n) :
    wordAt (putWord b k w) k = w := by
  rw [wordAt_eq _ hk]
  simp only [getElem_putWord]
  have hbytes := packWord_byteOfWord w
  simpa [packWord, show (4 * k + 1) / 4 = k by omega, show (4 * k + 2) / 4 = k by omega,
    show (4 * k + 3) / 4 = k by omega, Nat.add_mod] using hbytes

/-- The other words of the buffer stay (R67). -/
theorem wordAt_putWord_of_ne {n j k : Nat} (b : Vector Byte n) (w : Word) (hj : 4 * j + 3 < n)
    (hne : j ≠ k) : wordAt (putWord b k w) j = wordAt b j := by
  rw [wordAt_eq _ hj, wordAt_eq _ hj]
  simp only [getElem_putWord]
  rw [if_neg (by omega), if_neg (by omega), if_neg (by omega), if_neg (by omega)]

section
variable {r : Reg} {s : State}

/-- An input register of an idle block reads the word written to it (R64). -/
theorem readReg_writeReg_same (hf : s.fsm = .idle) (hr : isInput r = true) (v : Word) :
    readReg r (writeReg r v s) = v := by
  cases r with
  | ctrLo | ctrHi | nowLo | nowHi | candLen => simp only [writeReg, writeInput_of_idle hf, readReg]
  | cand k =>
    simp only [writeReg, writeInput_of_idle hf, readReg]
    exact wordAt_putWord_same s.cand v (by omega)
  | h k =>
    simp only [writeReg, writeInput_of_idle hf, readReg]
    exact wordAt_putWord_same s.h v (by omega)
  | _ => nomatch hr

/-- The other registers read as before the write (R64). -/
theorem readReg_writeReg_of_ne (hf : s.fsm = .idle) (hr : isInput r = true) {r' : Reg} (hne : r' ≠ r)
    (v : Word) : readReg r' (writeReg r v s) = readReg r' s := by
  cases r with
  | ctrLo | ctrHi | nowLo | nowHi | candLen =>
    simp only [writeReg, writeInput_of_idle hf]
    cases r' <;> try contradiction
    all_goals simp only [readReg, statusWord, busy, keyWord, keyByte]
  | cand k =>
    simp only [writeReg, writeInput_of_idle hf]
    cases r' with
    | cand j => exact wordAt_putWord_of_ne s.cand v (by omega) fun hjk => hne (by rw [Fin.ext hjk])
    | _ => simp only [readReg, statusWord, busy, keyWord, keyByte]
  | h k =>
    simp only [writeReg, writeInput_of_idle hf]
    cases r' with
    | h j => exact wordAt_putWord_of_ne s.h v (by omega) fun hjk => hne (by rw [Fin.ext hjk])
    | _ => simp only [readReg, statusWord, busy, keyWord, keyByte]
  | _ => nomatch hr

/-- What a write to an input register of an idle block leaves: the control registers, the HMAC port, the
key and the hidden state. -/
theorem writeReg_input_frame (hf : s.fsm = .idle) (hr : isInput r = true) (v : Word) :
    let t := writeReg r v s
    t.fsm = s.fsm ∧ t.cmd = s.cmd ∧ t.abortReq = s.abortReq ∧ t.resp = s.resp ∧ t.req = s.req ∧
      SameKey s t ∧ SameHidden s t := by
  cases r with
  | ctrLo | ctrHi | nowLo | nowHi | candLen | cand k | h k =>
    simp [writeReg, writeInput_of_idle hf, SameKey, SameHidden]
  | _ => nomatch hr

end

/-- Settles O12: the input registers stand at distinct offsets, and an idle block stores a write to one in
that register alone. -/
theorem idleInputWriteReadsBack : Obligations.IdleInputWriteReadsBack := by
  intro s rest off v hf ha hin h
  have hr := isInput_regAt ha hin
  have hhole : regAt off ≠ .hole := fun hh => by simp [hh, isInput] at hr
  have hle : off ≤ 0xFFC := by
    simp [inputOffset] at hin
    omega
  refine ⟨_, step_write h (admitted_iff.mpr ⟨rfl, ha, hle⟩),
    readReg_writeReg_same (s := afterTurn rest s) hf hr v, fun other hb _ hne => ?_,
    writeReg_input_frame (s := afterTurn rest s) hf hr v⟩
  have hother : regAt other ≠ regAt off := regAt_ne_of_ne ha hb hhole hne
  exact (readReg_writeReg_of_ne (s := afterTurn rest s) hf hr hother v).trans (readReg_afterTurn _ _ _)

/-- Settles O16: the window admits none of these accesses, and the host's step answers with the fault. -/
theorem inadmissibleAccessFaults : Obligations.InadmissibleAccessFaults := by
  intro s rest width off v hbad
  have hno : ¬ admitted width off = true := by
    rw [admitted_iff]
    omega
  exact ⟨fun h => (step_host h).trans (if_neg hno), fun h => (step_host h).trans (if_neg hno)⟩

/-- Settles O17: an admitted read answers the host with the register and touches nothing else. -/
theorem readsChangeNothing : Obligations.ReadsChangeNothing := by
  intro s rest off ha hle h
  refine ⟨?_, ?_⟩
  · rw [step_host h, hostStep, if_pos (admitted_iff.mpr ⟨rfl, ha, hle⟩), readReg_afterTurn]
    rfl
  · rintro rfl
    rfl

end Sys2Proof.Machine
end

section
/-! The command word (spec/30_encoding.md R80 to R92): the decoder reads a legal command back from its word, it
accepts exactly the legal words, and these are the words that spell a row of the opcode map. -/

namespace Sys2Proof

open Sys2Proof.Safety Sys2Proof.Machine

/-! Decoding an encoded command. -/

/-- The decoder takes each operand from the field of the word that holds it (R85, R92). -/
theorem decode_encode {i : Instr} (h : i.WellFormed) : decode (encode i) = .ok i := by
  cases i with
  | nop | keyclr | tctr | verify | abort => simp [encode, decode, decodePlain]
  | b32push | keypush => simp [encode, decode, decodeData]
  | trunc d | hotp d | totp d =>
    have hd : ¬ d = 0#4 := by simpa [Instr.WellFormed, Instr.wellFormed] using h
    simp [encode, decode, decodeDigits, hd]

/-- Settles O1: the round trip of a well-formed command, by its kind of operand. -/
theorem decodeEncodeRoundTrip : Obligations.DecodeEncodeRoundTrip :=
  fun _ => decode_encode

/-! Legality: each of the decoder's helpers accepts on the condition `legal` states for its commands. -/

/-- Bits 15:4 are the DATA and DIG fields (R82, R83). -/
theorem dataDigBits_eq_zero_iff (w : Word) :
    w.extractLsb' 4 12 = 0 ↔ dataField w = 0 ∧ digField w = 0 := by
  have hfields : w.extractLsb' 4 12 = dataField w ++ digField w :=
    (BitVec.extractLsb'_append_extractLsb'_eq_extractLsb' (start₁ := 4) (len₁ := 4) (len₂ := 8) rfl).symm
  simp only [hfields, ← BitVec.toNat_inj, toNat_append_eq]
  simp

theorem decodePlain_isOk (w : Word) (i : Instr) :
    (decodePlain w i).isOk = (w.extractLsb' 4 12 == (0 : BitVec 12)) := by
  rw [Bool.eq_iff_iff, beq_iff_eq, dataDigBits_eq_zero_iff, decodePlain]
  by_cases hdig : digField w = 0#4 <;> by_cases hdata : dataField w = 0#8 <;>
    simp [hdig, hdata, Except.isOk, Except.toBool]

theorem decodeData_isOk (w : Word) (f : Byte → Instr) :
    (decodeData w f).isOk = (digField w == 0) := by
  rw [decodeData]
  by_cases hdig : digField w = 0#4 <;> simp [hdig, Except.isOk, Except.toBool]

theorem decodeDigits_isOk (w : Word) (f : BitVec 4 → Instr) :
    (decodeDigits w f).isOk = (dataField w == 0 && digField w != 0) := by
  rw [decodeDigits]
  by_cases hdata : dataField w = 0#8 <;> by_cases hdig : digField w = 0#4 <;>
    simp [hdata, hdig, Except.isOk, Except.toBool]

/-- The decoder accepts exactly the legal words (R86, R89). -/
theorem decode_isOk (w : Word) : (decode w).isOk = legal w := by
  unfold decode legal
  by_cases hrsv : rsvField w = 0
  · rw [if_neg (not_not.mpr hrsv), beq_iff_eq.mpr hrsv, Bool.true_and]
    generalize (opField w).toNat = op
    split <;> simp only [decodePlain_isOk, decodeData_isOk, decodeDigits_isOk]
    rfl
  · rw [if_pos hrsv, beq_false_of_ne hrsv]
    rfl

theorem legal_eq_true_iff {w : Word} : legal w = true ↔ ∃ i, decode w = .ok i := by
  rw [← decode_isOk]
  cases decode w <;> simp [Except.isOk, Except.toBool]

theorem legal_eq_false_iff {w : Word} : legal w = false ↔ ∃ e, decode w = .error e := by
  rw [← decode_isOk]
  cases decode w <;> simp [Except.isOk, Except.toBool]

/-- Settles O2: a word the decoder accepts is the word of the command it answers, and the others are
illegal. -/
theorem decodeIsTotal : Obligations.DecodeIsTotal := by
  intro w
  cases h : decode w with
  | ok i =>
    exact .inl ⟨i, decode_ok_wellFormed h, rfl, encode_of_decode_ok h, legal_eq_true_iff.mpr ⟨i, h⟩⟩
  | error e => exact .inr ⟨⟨e, rfl⟩, legal_eq_false_iff.mpr ⟨e, h⟩⟩

/-! The rows of the opcode map. -/

/-- Every command has its row, operands included (R85). -/
theorem tableRow : ∀ i : Instr, Laws.TableRow.Statement i
  | .nop => Laws.TableRow.nop
  | .keyclr => Laws.TableRow.keyclr
  | .b32push ch => Laws.TableRow.b32push ch
  | .keypush b => Laws.TableRow.keypush b
  | .tctr => Laws.TableRow.tctr
  | .trunc d => Laws.TableRow.trunc d
  | .hotp d => Laws.TableRow.hotp d
  | .totp d => Laws.TableRow.totp d
  | .verify => Laws.TableRow.verify
  | .abort => Laws.TableRow.abort

/-- A legal command's word spells the command: only the digit count is left to check (R86). -/
theorem spells_encode {i : Instr} (h : i.WellFormed) : Spells (encode i) i := by
  refine ⟨(tableRow i).1, fun hdig => ?_⟩
  change digField (encode i) ≠ 0
  cases i with
  | trunc d | hotp d | totp d => simpa [encode, Instr.WellFormed, Instr.wellFormed] using h
  | nop | keyclr | b32push | keypush | tctr | verify | abort => cases hdig

/-- A field the row's mask covers whole has the row's value. -/
theorem field_of_row {w : Word} {i : Instr} (h : w &&& tableMask i = tableMatch i) {start len : Nat}
    (hmask : (tableMask i).extractLsb' start len = BitVec.allOnes len) :
    w.extractLsb' start len = (tableMatch i).extractLsb' start len := by
  rw [← h, BitVec.extractLsb'_and, hmask, BitVec.and_allOnes]

/-- Every row fixes OP (R81). -/
theorem opField_of_row {w : Word} {i : Instr} (h : w &&& tableMask i = tableMatch i) :
    opField w = (tableMatch i).extractLsb' 0 4 :=
  field_of_row h (by cases i <;> rw [tableMask] <;> decide)

/-- Every row fixes RSV at 0 (R84). -/
theorem rsvField_of_row {w : Word} {i : Instr} (h : w &&& tableMask i = tableMatch i) :
    rsvField w = 0 :=
  calc rsvField w = (tableMatch i).extractLsb' 16 16 :=
        field_of_row h (by cases i <;> rw [tableMask] <;> decide)
    _ = 0 := by cases i <;> simp [tableMatch]

/-- A word that spells a row is legal: the fields without an operand are 0 (R86). -/
theorem legal_of_spells {w : Word} {i : Instr} (h : Spells w i) : legal w = true := by
  obtain ⟨hrow, hdig⟩ := h
  have hop := opField_of_row hrow
  have hrsv := rsvField_of_row hrow
  cases i with
  | nop | keyclr | tctr | verify | abort =>
    have hbits := field_of_row (start := 4) (len := 12) hrow (by rw [tableMask]; decide)
    simp [legal, hop, hrsv, hbits, tableMatch]
  | b32push | keypush =>
    have hunused : digField w = _ := field_of_row (start := 4) (len := 4) hrow (by rw [tableMask]; decide)
    simp [legal, hop, hrsv, hunused, tableMatch]
  | trunc | hotp | totp =>
    have hunused : dataField w = _ := field_of_row (start := 8) (len := 8) hrow (by rw [tableMask]; decide)
    have hused : ¬ digField w = 0#4 := hdig rfl
    simp [legal, hop, hrsv, hunused, hused, tableMatch]

/-- A row's match value is its OP: the rows are numbered by OP alone (R85). -/
theorem tableMatch_eq_setWidth_op (i : Instr) :
    tableMatch i = ((tableMatch i).extractLsb' 0 4).setWidth 32 := by
  cases i <;> rfl

/-- Settles O3: a legal word is the word of the command it decodes to, and two rows a word spells have its
OP. -/
theorem legalWordsSpellOneCommand : Obligations.LegalWordsSpellOneCommand := by
  refine ⟨fun w => ⟨fun hw => ?_, fun ⟨_, hi⟩ => legal_of_spells hi⟩, fun w i j ⟨hi, _⟩ ⟨hj, _⟩ => ?_⟩
  · obtain ⟨i, hi⟩ := legal_eq_true_iff.mp hw
    exact ⟨i, encode_of_decode_ok hi ▸ spells_encode (decode_ok_wellFormed hi)⟩
  · rw [tableMatch_eq_setWidth_op i, tableMatch_eq_setWidth_op j, ← opField_of_row hi,
      ← opField_of_row hj]

/-- Settles O4: ten words read back and five refused, by evaluation. -/
theorem sampleWordsDecode : Obligations.SampleWordsDecode := by
  and_intros <;> rfl

end Sys2Proof
end

section
/-! A command that ends with an error (spec/45_control.md R184), and the illegal word (spec/30_encoding.md
R87). -/

namespace Sys2Proof.Machine

open Sys2Proof.Safety

/-- A core turn is the core's step with the turn taken off the schedule. -/
theorem step_core {s : State} {rest : List Turn} (h : s.turns = .core :: rest) :
    step s = coreStep (afterTurn rest s) := by
  simp [step, scheduledStep, h, takeTurn]

/-- What finish does with an error: it ends the command, clears the verdict of a word with OP = 0x8, and
writes no other register (R184). -/
theorem finish_error_frame {e : ErrCode} (he : e ≠ .none) (s : State) :
    Ended e (finish e s) ∧ SameInputs s (finish e s) ∧ SameKey s (finish e s) ∧
      SameTime s (finish e s) ∧ SameDigest s (finish e s) ∧ SameCode s (finish e s) ∧
      SameHidden s (finish e s) ∧ (finish e s).req = s.req ∧
      (opField s.cmd = 0x8 → (finish e s).valid = false ∧ (finish e s).matchIdx = 0) ∧
      (opField s.cmd ≠ 0x8 → SameVerdict s (finish e s)) := by
  obtain ⟨hend, hin, hkey, htime, hdigest, hcode, hhidden, hreq⟩ := finish_frame e s
  exact ⟨hend, hin, hkey, htime, hdigest, hcode, hhidden, hreq, (finish_clearsVerdict · he),
    finish_sameVerdict⟩

/-- The core's step of an illegal word is finish(ILLEGAL_CMD) (R87). -/
theorem coreStep_of_illegal {s : State} (hf : s.fsm = .exec) (ha : s.abortReq = false)
    (hw : legal s.cmd = false) : coreStep s = .next (finish .illegalCmd s) := by
  obtain ⟨e, he⟩ := legal_eq_false_iff.mp hw
  simp [coreStep, hf, ha, executeLatched, he, raise]

/-- Settles O6: taking the turn off the schedule touches none of the registers. -/
theorem illegalWordOnlyFinishes : Obligations.IllegalWordOnlyFinishes := by
  intro s rest hf ha hw hturn
  have hstep : step s = .next (finish .illegalCmd (afterTurn rest s)) := by
    rw [step_core hturn]
    exact coreStep_of_illegal (s := afterTurn rest s) hf ha hw
  exact ⟨_, hstep, finish_error_frame (by decide) (afterTurn rest s)⟩

end Sys2Proof.Machine
end

section
/-! Pack and the index of a character (spec/40_base32.md R100, R101), in arithmetic. -/

namespace Sys2Proof.Machine

open Sys2Proof.Safety

/-- Pack's 12-bit `t`: the pending bits with the index appended (R101). -/
theorem toNat_appendIndex (acc : BitVec 7) (v : BitVec 5) :
    (acc.setWidth 12 <<< 5 ||| v.setWidth 12).toNat = acc.toNat * 32 + v.toNat := by
  have hacc := acc.isLt
  have hv := v.isLt
  rw [BitVec.toNat_or, BitVec.toNat_shiftLeft, BitVec.toNat_setWidth_of_le (by decide),
    BitVec.toNat_setWidth_of_le (by decide), Nat.shiftLeft_eq, Nat.mod_eq_of_lt (by omega),
    ← Nat.shiftLeft_eq, ← Nat.shiftLeft_add_eq_or_of_lt hv, Nat.shiftLeft_eq]

section
variable {acc : BitVec 7} {bitcnt : BitVec 3} {v : BitVec 5}

/-- Pack emits a byte when 8 bits are pending (R101). -/
theorem pack_emitted_eq_none_iff : (pack acc bitcnt v).emitted = none ↔ bitcnt.toNat + 5 < 8 := by
  by_cases hn : 8 ≤ bitcnt.toNat + 5
  · rw [pack, if_pos hn]
    exact iff_of_false nofun (Nat.not_lt.mpr hn)
  · rw [pack, if_neg hn]
    exact iff_of_true rfl (Nat.lt_of_not_le hn)

/-- With fewer than 8 bits pending, Pack keeps them all (R101). -/
theorem pack_pends (h : acc.toNat < 2 ^ bitcnt.toNat) (hn : bitcnt.toNat + 5 < 8) :
    (pack acc bitcnt v).bitcnt.toNat = bitcnt.toNat + 5 ∧ (pack acc bitcnt v).emitted = none ∧
      (pack acc bitcnt v).acc.toNat = acc.toNat * 32 + v.toNat := by
  have hfits : acc.toNat * 32 + v.toNat < 2 ^ 7 := by
    have hpow : 2 ^ bitcnt.toNat ≤ 2 ^ 2 := Nat.pow_le_pow_right (by decide) (by omega)
    omega
  rw [pack, if_neg (by omega)]
  refine ⟨?_, rfl, ?_⟩
  · rw [BitVec.toNat_ofNat, Nat.mod_eq_of_lt hn]
  · rw [BitVec.toNat_setWidth, toNat_appendIndex, Nat.mod_eq_of_lt hfits]

/-- With 8 bits or more pending, Pack emits the oldest 8 and keeps the others (R101). -/
theorem pack_emits (h : acc.toNat < 2 ^ bitcnt.toNat) (hn : 8 ≤ bitcnt.toNat + 5) :
    (pack acc bitcnt v).bitcnt.toNat = bitcnt.toNat - 3 ∧
      (∃ e, (pack acc bitcnt v).emitted = some e ∧
        e.toNat = (acc.toNat * 32 + v.toNat) / 2 ^ (bitcnt.toNat - 3)) ∧
      (pack acc bitcnt v).acc.toNat = (acc.toNat * 32 + v.toNat) % 2 ^ (bitcnt.toNat - 3) := by
  have hcnt := bitcnt.isLt
  obtain ⟨k, hk⟩ : ∃ k : Fin 5, bitcnt.toNat = k.val + 3 :=
    ⟨⟨bitcnt.toNat - 3, by omega⟩, (Nat.sub_add_cancel (by omega)).symm⟩
  have hmask : ∀ k : Fin 5, ((1 <<< k.val : Nat) - 1 : BitVec 12).toNat = 2 ^ k.val - 1 := by decide
  have hrest : (acc.toNat * 32 + v.toNat) % 2 ^ k.val < 2 ^ 7 :=
    (Nat.mod_lt _ (by positivity)).trans_le (Nat.pow_le_pow_right (by decide) (by omega))
  have hbyte : (acc.toNat * 32 + v.toNat) / 2 ^ k.val < 2 ^ 8 := by
    rw [Nat.div_lt_iff_lt_mul (by positivity)]
    rw [hk, Nat.pow_add] at h
    omega
  rw [pack, if_pos hn, show bitcnt.toNat + 5 - 8 = k.val by omega,
    show bitcnt.toNat - 3 = k.val by omega]
  refine ⟨?_, ⟨_, rfl, ?_⟩, ?_⟩
  · rw [BitVec.toNat_ofNat]
    omega
  · rw [BitVec.toNat_setWidth, BitVec.toNat_and, BitVec.toNat_ushiftRight, toNat_appendIndex,
      Nat.shiftRight_eq_div_pow]
    change (_ &&& 2 ^ 8 - 1) % 2 ^ 8 = _
    rw [Nat.and_two_pow_sub_one_eq_mod, Nat.mod_mod, Nat.mod_eq_of_lt hbyte]
  · rw [BitVec.toNat_setWidth, BitVec.toNat_and, toNat_appendIndex, hmask,
      Nat.and_two_pow_sub_one_eq_mod, Nat.mod_eq_of_lt hrest]

end

/-- Settles O24: ACC' is bounded by the invariant's lemma; the rest is Pack's two cases. -/
theorem packAppendsIndex : Obligations.PackAppendsIndex := by
  intro acc bitcnt v h
  have hcnt := bitcnt.isLt
  by_cases hn : 8 ≤ bitcnt.toNat + 5
  · obtain ⟨hbits, hbyte, hacc⟩ := pack_emits (v := v) h hn
    exact ⟨by omega, pack_acc_lt v h, fun _ => ⟨hbyte, hacc⟩, fun hlt => by omega⟩
  · obtain ⟨hbits, hnone, hacc⟩ := pack_pends (v := v) h (by omega)
    exact ⟨by omega, pack_acc_lt v h, fun hle => by omega, fun _ => ⟨hnone, hacc⟩⟩

/-! B32Index against the alphabet. -/

/-- A letter has the index of its upper case (R100, decision D8). -/
theorem b32Index_upperCase (ch : Byte) : b32Index (upperCase ch) = b32Index ch := by
  unfold upperCase
  split
  · rename_i hlower
    have hnot : ¬ (0x41 ≤ ch ∧ ch ≤ 0x5A) := by bv_omega
    have hupper : 0x41 ≤ ch - 0x20 ∧ ch - 0x20 ≤ 0x5A := by bv_omega
    have hshift : ch - 0x20 - 0x41 = ch - 0x61 := by bv_omega
    rw [b32Index, if_pos hupper, b32Index, if_neg hnot, if_pos hlower, hshift]
  · rfl

/-- Position v of the alphabet has the index v (R100). -/
theorem b32Index_alphabet (v : BitVec 5) :
    ∃ ch, alphabet[v.toNat]? = some ch ∧ b32Index ch = some v := by
  revert v; decide

/-- A byte's index is the position of its upper case (R100). -/
theorem getElem?_alphabet_of_b32Index (ch : Byte) :
    ∀ v ∈ b32Index ch, alphabet[v.toNat]? = some (upperCase ch) := by
  revert ch; decide

/-- Settles O23: the byte at position v has the index v, and ch has the index of its upper case. -/
theorem indexIsAlphabetPosition : Obligations.IndexIsAlphabetPosition := by
  intro ch v
  refine ⟨getElem?_alphabet_of_b32Index ch v, fun h => ?_⟩
  obtain ⟨c, hc, hv⟩ := b32Index_alphabet v
  obtain rfl : c = upperCase ch := Option.some.inj (hc.symm.trans h)
  rw [← b32Index_upperCase, hv]

end Sys2Proof.Machine
end

section
/-! Key loading (spec/40_base32.md R102 to R105): what KEYCLR, KEYPUSH and B32PUSH answer case by case, and
what they leave unchanged. -/

namespace Sys2Proof.Machine

open Sys2Proof.Safety

/-- Every register but the key buffer, the packer, KOVF and what finish writes (spec/10_state.md R50). -/
abbrev SameBesidesKey (s t : State) : Prop :=
  SameInputs s t ∧ SameTime s t ∧ SameDigest s t ∧ SameCode s t ∧ SameVerdict s t ∧ SameHidden s t ∧
    t.req = s.req

section
variable {s u : State}

/-- A command that writes the key alone and ends without clearing a verdict leaves every other register
(spec/45_control.md R184). -/
theorem finish_sameBesidesKey {e : ErrCode} (hc : clearsVerdict e u = false) (h : SameBesidesKey s u) :
    SameBesidesKey s (finish e u) := by
  obtain ⟨hin, htime, hdigest, hcode, hverdict, hhidden, hreq⟩ := h
  exact ⟨hin, htime, hdigest, hcode, by simpa [SameVerdict, hc] using hverdict, hhidden, hreq⟩

/-! The writes of the key commands. -/

theorem clearKey_sameBesidesKey (s : State) : SameBesidesKey s (clearKey s) := by
  and_intros <;> rfl

theorem setPacker_sameBesidesKey (acc : BitVec 7) (bitcnt : BitVec 3) (s : State) :
    SameBesidesKey s (setPacker acc bitcnt s) := by
  and_intros <;> rfl

theorem setKovf_sameBesidesKey (s : State) : SameBesidesKey s (setKovf s) := by
  and_intros <;> rfl

theorem storeKeyByte_setPacker_sameBesidesKey (b : Byte) (acc : BitVec 7) (bitcnt : BitVec 3) (s : State) :
    SameBesidesKey s (storeKeyByte b (setPacker acc bitcnt s)) := by
  and_intros <;> rfl

/-- The stored byte reads back. -/
theorem storeKeyByte_getD_same (b : Byte) (h : s.keyLen < s.key.length) :
    (storeKeyByte b s).key.getD s.keyLen 0 = b := by
  simp [h]

/-- The other key bytes stay. -/
theorem storeKeyByte_getD_of_ne (b : Byte) {j : Nat} (h : j ≠ s.keyLen) :
    (storeKeyByte b s).key.getD j 0 = s.key.getD j 0 := by
  simp [List.getD_eq_getElem?_getD, List.getElem?_set_ne h.symm]

/-! The cases of the commands while KOVF = 0. -/

theorem exec_keyclr (s : State) : exec .keyclr s = .next (finish .none (clearKey s)) := rfl

theorem exec_b32push_discards {ch : Byte} (hk : s.kovf = false) (hch : b32Index ch = none) :
    exec (.b32push ch) s = .next (finish .none s) := by
  simp [exec, execB32push, hk, hch]

section
variable {ch : Byte} {v : BitVec 5} {e : Byte}

theorem exec_b32push_pends (hk : s.kovf = false) (hv : b32Index ch = some v)
    (he : (pack s.acc s.bitcnt v).emitted = none) :
    exec (.b32push ch) s = .next (finish .none
      (setPacker (pack s.acc s.bitcnt v).acc (pack s.acc s.bitcnt v).bitcnt s)) := by
  simp [exec, execB32push, hk, hv, he]

theorem exec_b32push_stores (hk : s.kovf = false) (hv : b32Index ch = some v)
    (he : (pack s.acc s.bitcnt v).emitted = some e) (hroom : s.keyLen ≠ s.params.keyMax) :
    exec (.b32push ch) s = .next (finish .none (storeKeyByte e
      (setPacker (pack s.acc s.bitcnt v).acc (pack s.acc s.bitcnt v).bitcnt s))) := by
  simp [exec, execB32push, hk, hv, he, keyFull, hroom]

theorem exec_b32push_overflows (hk : s.kovf = false) (hv : b32Index ch = some v)
    (he : (pack s.acc s.bitcnt v).emitted = some e) (hfull : s.keyLen = s.params.keyMax) :
    exec (.b32push ch) s = .next (finish .keyOverflow (setKovf s)) := by
  simp [exec, execB32push, hk, hv, he, keyFull, hfull]

end

theorem exec_keypush_stores (hk : s.kovf = false) (hroom : s.keyLen ≠ s.params.keyMax) (b : Byte) :
    exec (.keypush b) s = .next (finish .none (storeKeyByte b (setPacker 0 0 s))) := by
  simp [exec, execKeypush, hk, keyFull, hroom]

theorem exec_keypush_overflows (hk : s.kovf = false) (hfull : s.keyLen = s.params.keyMax) (b : Byte) :
    exec (.keypush b) s = .next (finish .keyOverflow (setKovf s)) := by
  simp [exec, execKeypush, hk, keyFull, hfull]

end

/-- Settles O22: KEYCLR writes the key alone, and every byte of the cleared buffer is 0. -/
theorem keyclrEmptiesKey : Obligations.KeyclrEmptiesKey := by
  intro s
  refine ⟨_, exec_keyclr s, (finish_frame _ _).1, rfl, rfl, rfl, rfl, List.length_replicate,
    fun i => ?_, finish_sameBesidesKey (clearsVerdict_none _) (clearKey_sameBesidesKey s)⟩
  by_cases hi : i < s.params.keyMax <;> simp [List.getD_eq_getElem?_getD, hi]

/-- Settles O25: a discarded character only finishes. -/
theorem b32pushDiscards : Obligations.B32pushDiscards := by
  intro s ch hk hch
  obtain ⟨hend, hin, hkey, htime, hdigest, hcode, hhidden, hreq⟩ := finish_frame .none s
  have hverdict : SameVerdict s (finish .none s) := by simp [SameVerdict]
  exact ⟨_, exec_b32push_discards hk hch, hend, hin, hkey, htime, hdigest, hcode, hverdict, hhidden, hreq⟩

/-- Settles O26: without a completed byte only the packer is written, with one also KEY[KEY_LEN]. -/
theorem b32pushPacks : Obligations.B32pushPacks := by
  intro s ch v hk hv hroom
  cases he : (pack s.acc s.bitcnt v).emitted with
  | none =>
    refine ⟨_, exec_b32push_pends hk hv he, (finish_frame _ _).1, rfl, rfl, hk, fun _ => ⟨rfl, rfl⟩,
      fun _ h => (nomatch h), ?_⟩
    exact finish_sameBesidesKey (clearsVerdict_none _) (setPacker_sameBesidesKey _ _ s)
  | some e =>
    have hroom : s.keyLen ≠ s.params.keyMax := hroom.resolve_left (by simp [he])
    refine ⟨_, exec_b32push_stores hk hv he hroom, (finish_frame _ _).1, rfl, rfl, hk,
      fun h => (nomatch h), fun e' he' => ?_, ?_⟩
    · obtain rfl := Option.some.inj he'
      exact ⟨rfl, List.length_set, storeKeyByte_getD_same _, fun j => storeKeyByte_getD_of_ne _⟩
    · exact finish_sameBesidesKey (clearsVerdict_none _) (storeKeyByte_setPacker_sameBesidesKey _ _ _ s)

/-- Settles O27: both commands end the same way, and neither has the word of a VERIFY. -/
theorem fullBufferOverflows : Obligations.FullBufferOverflows := by
  intro s i hk hfull hcmd hi
  have hexec : exec i s = .next (finish .keyOverflow (setKovf s)) := by
    obtain ⟨b, rfl⟩ | ⟨ch, v, e, rfl, hv, he⟩ := hi
    · exact exec_keypush_overflows hk hfull b
    · exact exec_b32push_overflows hk hv he hfull
  have hop : opField (setKovf s).cmd ≠ 0x8 := by
    have hverify : i ≠ .verify := by obtain ⟨b, rfl⟩ | ⟨ch, v, e, rfl, -⟩ := hi <;> nofun
    simpa [hcmd] using mt opField_encode_eq_verify.mp hverify
  exact ⟨_, hexec, (finish_frame _ _).1, rfl, rfl, rfl, rfl, rfl,
    finish_sameBesidesKey (clearsVerdict_of_ne hop) (setKovf_sameBesidesKey s)⟩

/-- Settles O28: KEYPUSH empties the packer and stores the byte at KEY[KEY_LEN]. -/
theorem keypushAppends : Obligations.KeypushAppends := by
  intro s b hk hroom
  exact ⟨_, exec_keypush_stores hk hroom b, (finish_frame _ _).1, rfl, List.length_set,
    storeKeyByte_getD_same (s := s) b, fun j => storeKeyByte_getD_of_ne (s := s) b, rfl, rfl, hk,
    finish_sameBesidesKey (clearsVerdict_none _) (storeKeyByte_setPacker_sameBesidesKey b 0 0 s)⟩

end Sys2Proof.Machine
end

section
/-! A Base32 string as a bit string (spec/40_base32.md R106): the value of a bit string, the bits of a
character, and the state after some bits were pushed. -/

namespace Sys2Proof.Safety

open Sys2Proof.Machine

/-! Bit strings, most significant bit first. -/

@[simp] theorem bitsValue_concat (bits : List Bool) (x : Bool) :
    bitsValue (bits ++ [x]) = 2 * bitsValue bits + x.toNat := by
  simp [bitsValue]

/-- The value of a concatenation. -/
theorem bitsValue_append (a b : List Bool) :
    bitsValue (a ++ b) = bitsValue a * 2 ^ b.length + bitsValue b := by
  induction b using List.reverseRecOn with
  | nil => simp [bitsValue]
  | append_singleton b x ih =>
    rw [← List.append_assoc, bitsValue_concat, bitsValue_concat, ih, List.length_append,
      List.length_singleton, pow_succ]
    ring

theorem bitsValue_lt (bits : List Bool) : bitsValue bits < 2 ^ bits.length := by
  induction bits using List.reverseRecOn with
  | nil => decide
  | append_singleton bits x ih =>
    have hx := x.toNat_lt
    rw [bitsValue_concat, List.length_append, List.length_singleton, pow_succ]
    omega

/-- A bit string cut in two: the older part is the quotient, the younger the remainder. -/
theorem bitsValue_take_drop (bits : List Bool) (n : Nat) :
    bitsValue (bits.take n) = bitsValue bits / 2 ^ (bits.length - n) ∧
      bitsValue (bits.drop n) = bitsValue bits % 2 ^ (bits.length - n) := by
  have hlt := bitsValue_lt (bits.drop n)
  have hcut := bitsValue_append (bits.take n) (bits.drop n)
  rw [List.length_drop] at hlt hcut
  rw [List.take_append_drop] at hcut
  rw [hcut, mul_comm]
  exact ⟨by rw [Nat.mul_add_div (by positivity), Nat.div_eq_of_lt hlt, Nat.add_zero],
    by rw [Nat.mul_add_mod, Nat.mod_eq_of_lt hlt]⟩

/-! The bits of the pushed characters. -/

theorem bitsValue_indexBits (v : BitVec 5) : bitsValue (indexBits v) = v.toNat := by
  revert v; decide

@[simp] theorem length_indexBits (v : BitVec 5) : (indexBits v).length = 5 := rfl

theorem inputBits_cons (ch : Byte) (rest : List Byte) :
    inputBits (ch :: rest) = inputBits [ch] ++ inputBits rest := by
  rw [inputBits, inputBits, inputBits, ← List.flatMap_append, ← List.filterMap_append,
    List.singleton_append]

theorem inputBits_of_discarded {ch : Byte} (h : b32Index ch = none) : inputBits [ch] = [] := by
  simp [inputBits, h]

theorem inputBits_of_index {ch : Byte} {v : BitVec 5} (h : b32Index ch = some v) :
    inputBits [ch] = indexBits v := by
  simp [inputBits, h]

theorem length_inputBits (str : List Byte) :
    (inputBits str).length = 5 * (str.filterMap b32Index).length := by
  simp [inputBits, List.length_flatMap, mul_comm]

/-- The key buffer and the packer hold the bits pushed so far (R106): whole bytes in KEY, the last
BITCNT bits in ACC. -/
structure Loaded (bits : List Bool) (s : State) : Prop where
  keySize : s.key.length = s.params.keyMax
  keyLenMax : s.keyLen ≤ s.params.keyMax
  keyLen : s.keyLen = bits.length / 8
  keyBytes : ∀ j < s.keyLen, (s.key.getD j 0).toNat = bitsValue ((bits.drop (8 * j)).take 8)
  bitcnt : s.bitcnt.toNat = bits.length % 8
  acc : s.acc.toNat = bitsValue (bits.drop (8 * s.keyLen))

section
variable {bits : List Bool} {s t : State}

theorem Loaded.finish (h : Loaded bits s) (e : ErrCode) : Loaded bits (finish e s) := { h with }

theorem Loaded.clearKey (s : State) : Loaded [] (clearKey s) where
  keySize := List.length_replicate
  keyLenMax := Nat.zero_le _
  keyLen := rfl
  keyBytes := fun _ hj => absurd hj (Nat.not_lt_zero _)
  bitcnt := rfl
  acc := rfl

/-- BITCNT counts the bits after the last whole byte. -/
theorem Loaded.length_pending (h : Loaded bits s) :
    (bits.drop (8 * s.keyLen)).length = s.bitcnt.toNat := by
  rw [List.length_drop, h.bitcnt, h.keyLen]
  omega

theorem Loaded.accPending (h : Loaded bits s) : s.acc.toNat < 2 ^ s.bitcnt.toNat := by
  rw [h.acc, ← h.length_pending]
  exact bitsValue_lt _

/-- Bits pushed later do not touch the bytes already stored. -/
theorem Loaded.keyBytes_append (h : Loaded bits s) (more : List Bool) {j : Nat} (hj : j < s.keyLen) :
    (s.key.getD j 0).toNat = bitsValue (((bits ++ more).drop (8 * j)).take 8) := by
  have hlen := h.keyLen
  rw [h.keyBytes j hj, List.drop_append_of_le_length (by omega),
    List.take_append_of_le_length (by rw [List.length_drop]; omega)]

/-- The pending bits with an index appended: what Pack works on. -/
theorem Loaded.pending_append (h : Loaded bits s) (v : BitVec 5) :
    (bits ++ indexBits v).drop (8 * s.keyLen) = bits.drop (8 * s.keyLen) ++ indexBits v := by
  have hlen := h.keyLen
  exact List.drop_append_of_le_length (by omega)

theorem Loaded.bitsValue_pending_append (h : Loaded bits s) (v : BitVec 5) :
    bitsValue ((bits ++ indexBits v).drop (8 * s.keyLen)) = s.acc.toNat * 32 + v.toNat := by
  rw [h.pending_append, bitsValue_append, ← h.acc, bitsValue_indexBits]
  rfl

/-- An index that completes no byte only lengthens the pending bits. -/
theorem Loaded.setPacker (h : Loaded bits s) {v : BitVec 5} (hn : s.bitcnt.toNat + 5 < 8) :
    Loaded (bits ++ indexBits v)
      (setPacker (pack s.acc s.bitcnt v).acc (pack s.acc s.bitcnt v).bitcnt s) := by
  obtain ⟨hbits, -, hacc⟩ := pack_pends (v := v) h.accPending hn
  have hlen := h.keyLen
  have hcnt := h.bitcnt
  exact
    { h with
      keyLen := by simp; omega
      keyBytes := fun j hj => h.keyBytes_append _ hj
      bitcnt := by simp; omega
      acc := hacc.trans (h.bitsValue_pending_append v).symm }

/-- An index that completes a byte moves the oldest 8 pending bits to KEY[KEY_LEN]. -/
theorem Loaded.storeKeyByte (h : Loaded bits s) {v : BitVec 5} (hn : 8 ≤ s.bitcnt.toNat + 5) {e : Byte}
    (he : (pack s.acc s.bitcnt v).emitted = some e) (hroom : s.keyLen ≠ s.params.keyMax) :
    Loaded (bits ++ indexBits v) (storeKeyByte e
      (Machine.setPacker (pack s.acc s.bitcnt v).acc (pack s.acc s.bitcnt v).bitcnt s)) := by
  obtain ⟨hbits, ⟨e', he', hbyte⟩, hacc⟩ := pack_emits (v := v) h.accPending hn
  obtain rfl := Option.some.inj (he.symm.trans he')
  have hlen := h.keyLen
  have hcnt := h.bitcnt
  have hlt : s.keyLen < s.params.keyMax := Nat.lt_of_le_of_ne h.keyLenMax hroom
  obtain ⟨htake, hdrop⟩ := bitsValue_take_drop ((bits ++ indexBits v).drop (8 * s.keyLen)) 8
  have hrest : ((bits ++ indexBits v).drop (8 * s.keyLen)).length - 8 = s.bitcnt.toNat - 3 := by
    rw [h.pending_append, List.length_append, h.length_pending, length_indexBits]
    omega
  rw [hrest, h.bitsValue_pending_append] at htake hdrop
  refine
    { keySize := List.length_set.trans h.keySize
      keyLenMax := hlt
      keyLen := by simp; omega
      keyBytes := fun j hj => ?_
      bitcnt := by simp; omega
      acc := ?_ }
  · obtain hold | rfl : j < s.keyLen ∨ j = s.keyLen := Nat.lt_succ_iff_lt_or_eq.mp hj
    · have hkept := storeKeyByte_getD_of_ne e hold.ne
      exact (congrArg BitVec.toNat hkept).trans (h.keyBytes_append _ hold)
    · have hstored := storeKeyByte_getD_same e (h.keySize ▸ hlt)
      rw [htake, ← hbyte]
      exact congrArg BitVec.toNat hstored
  · rw [List.drop_drop] at hdrop
    exact hacc.trans hdrop.symm

/-- B32PUSH without an error appends the bits of its character (spec/40_base32.md R104). -/
theorem Loaded.b32push (h : Loaded bits s) {ch : Byte} (hx : exec (.b32push ch) s = .next t)
    (ht : t.err = .none) : Loaded (bits ++ inputBits [ch]) t := by
  obtain ⟨-, rfl⟩ | ⟨-, hch, rfl⟩ | ⟨v, -, hv, ⟨he, rfl⟩ | ⟨e, he, ⟨-, rfl⟩ | ⟨hroom, rfl⟩⟩⟩ :=
    execB32push_next hx
  · cases ht
  · rw [inputBits_of_discarded hch, List.append_nil]
    exact h.finish .none
  · rw [inputBits_of_index hv]
    exact (h.setPacker (pack_emitted_eq_none_iff.mp he)).finish .none
  · cases ht
  · have hn : ¬ s.bitcnt.toNat + 5 < 8 := by
      rw [← pack_emitted_eq_none_iff (v := v), he]
      nofun
    rw [inputBits_of_index hv]
    exact (h.storeKeyByte (Nat.le_of_not_lt hn) he hroom).finish .none

/-- Each B32PUSH of a pushed string ended without an error. -/
theorem pushAll_cons {ch : Byte} {rest : List Byte} (h : pushAll (ch :: rest) s = some t) :
    ∃ u, exec (.b32push ch) s = .next u ∧ u.err = .none ∧ pushAll rest u = some t := by
  unfold pushAll at h
  split at h
  · rename_i u hu
    split at h
    · exact ⟨u, hu, by assumption, h⟩
    · cases h
  · cases h
  · cases h

/-- A string pushed without an error appends its bits. -/
theorem Loaded.pushAll {str : List Byte} (h : Loaded bits s) (hp : pushAll str s = some t) :
    Loaded (bits ++ inputBits str) t := by
  induction str generalizing bits s with
  | nil =>
    obtain rfl := Option.some.inj hp
    exact (List.append_nil bits).symm ▸ h
  | cons ch rest ih =>
    obtain ⟨u, hu, herr, hrest⟩ := pushAll_cons hp
    rw [inputBits_cons, ← List.append_assoc]
    exact ih (h.b32push hu herr) hrest

end

/-- Settles O30: KEYCLR loads no bits, and every character appends its own. -/
theorem pushedStringDecodes : Obligations.PushedStringDecodes := by
  intro s cleared t str hclear hpush
  have hstart : Loaded [] cleared := execKeyclr_next hclear ▸ (Loaded.clearKey s).finish .none
  have h := hstart.pushAll hpush
  exact ⟨h.keyLen, length_inputBits str, h.keyBytes, h.bitcnt, h.acc⟩

end Sys2Proof.Safety
end

section
/-! The hmac agent's turn and its allowed answers (spec/41_hmac_port.md R122, R123). -/

namespace Sys2Proof.Machine

open Sys2Proof.Safety

/-- An hmac turn is the hmac agent's step with the turn taken off the schedule. -/
theorem step_hmac {s : State} {rest : List Turn} {draw : HmacDraw} (h : s.turns = .hmac draw :: rest) :
    step s = .next (hmacStep draw (afterTurn rest s)) := by
  simp [step, scheduledStep, h, takeTurn]

/-- A key that is not empty may get its digest under either policy (R123). -/
theorem digestAllowed_of_ne_nil {k : List Byte} (h : k ≠ []) : digestAllowed k = true := by
  cases k with
  | nil => exact absurd rfl h
  | cons b k => rfl

/-- The empty key may get its digest only where EMPTY_KEY_POLICY accepts it (R123). -/
theorem digestAllowed_nil : digestAllowed [] = true ↔ Config.emptyKeyPolicy = .accept :=
  beq_iff_eq

section
variable {r : HmacReq}

/-- The draw of a digest for a key that is not empty gives HMAC_SHA1(k, m). -/
theorem hmacResponse_digest_of_ne_nil (h : r.key ≠ []) :
    hmacResponse r .digest = .digest (hmacSha1 r.key r.msg) := by
  rw [hmacResponse, if_pos (digestAllowed_of_ne_nil h)]

/-- The draw of a digest for the empty key is answered as the policy says. -/
theorem hmacResponse_digest_of_nil (h : r.key = []) :
    hmacResponse r .digest =
      if Config.emptyKeyPolicy = .accept then .digest (hmacSha1 [] r.msg) else .cryptoError := by
  simp only [hmacResponse, h, digestAllowed_nil]

end

/-- Settles O48: the turn puts the response of its draw on the port, and that response is the one R123
allows for the draw and the key. -/
theorem hmacAgentAnswers : Obligations.HmacAgentAnswers := by
  intro s rest draw r hreq hturn
  have hstep : step s = .next (hmacAnswer (hmacResponse r draw) (afterTurn rest s)) := by
    rw [step_hmac hturn, hmacStep_some (s := afterTurn rest s) hreq]
  refine ⟨hmacResponse r draw, hstep, ?_, ?_, ?_⟩
  · rintro rfl
    rfl
  · rintro rfl hkey
    exact hmacResponse_digest_of_ne_nil hkey
  · rintro rfl hkey
    exact hmacResponse_digest_of_nil hkey

end Sys2Proof.Machine
end

section
/-! What a running command reads stays as it is (spec/41_hmac_port.md R127, spec/45_control.md R182): for
each agent, what its step leaves unchanged while the block is busy. -/

namespace Sys2Proof.Machine

open Sys2Proof.Safety

/-- NOW, CAND_LEN and CAND, the inputs of a command that no command writes. -/
abbrev SameOperands (s t : State) : Prop :=
  t.nowLo = s.nowLo ∧ t.nowHi = s.nowHi ∧ t.candLen = s.candLen ∧ t.cand = s.cand

/-- The key, the packer, KOVF, CTR, REMAIN, H and the code registers: what a command may write when it
ends. -/
abbrev SameResults (s t : State) : Prop :=
  SameKey s t ∧ SameTime s t ∧ SameDigest s t ∧ SameCode s t

section
variable {s t : State}

theorem SameInputs.operands (h : SameInputs s t) : SameOperands s t := by
  obtain ⟨-, hnowLo, hnowHi, hcandLen, hcand, -⟩ := h
  exact ⟨hnowLo, hnowHi, hcandLen, hcand⟩

/-- A host write to a busy block stores nothing in the input registers (R182). -/
theorem writeReg_busy_frame (hf : s.fsm ≠ .idle) (r : Reg) (v : Word) :
    SameOperands s (writeReg r v s) ∧ SameTime s (writeReg r v s) ∧ SameDigest s (writeReg r v s) := by
  obtain h | ⟨-, hidle, -⟩ | ⟨-, -, -, h⟩ | ⟨-, h⟩ | ⟨-, h⟩ | ⟨-, h⟩ | ⟨hidle, -⟩ :=
    writeReg_cases r v s
  case inr.inl | inr.inr.inr.inr.inr.inr => exact absurd hidle hf
  all_goals
    rw [h]
    and_intros <;> rfl

/-- The host's access to a busy block, but for the reset event, leaves the inputs and the results of the
running command (R182). -/
theorem hostStep_busy_frame {op : HostOp} (h : hostStep op s = .next t) (hop : op ≠ .rst)
    (hf : s.fsm ≠ .idle) : SameOperands s t ∧ SameResults s t := by
  obtain ⟨-, hkey, hcode, -, -⟩ := hostStep_frame h hop
  have hregs : SameOperands s t ∧ SameTime s t ∧ SameDigest s t := by
    obtain ⟨_, _, -, -, rfl⟩ | ⟨_, off, v, -, -, rfl⟩ | ⟨hrst, -⟩ := hostStep_next h
    · and_intros <;> rfl
    · exact writeReg_busy_frame hf (regAt off) v
    · exact absurd hrst hop
  obtain ⟨hops, htime, hdigest⟩ := hregs
  exact ⟨hops, hkey, htime, hdigest, hcode⟩

/-- The core writes the results of a command only at the step that ends it (R127). -/
theorem coreStep_sameResults (h : coreStep s = .next t) (ht : t.fsm ≠ .idle) : SameResults s t := by
  obtain rfl | ⟨-, ⟨e, rfl⟩ | ⟨i, -, hx, -⟩⟩ := coreStep_outcome h
  · and_intros <;> rfl
  · exact absurd rfl ht
  · obtain ⟨hkey, htime, hdigest, hcode, -⟩ := (exec_frame hx).running ht
    exact ⟨hkey, htime, hdigest, hcode⟩

/-- The hmac agent's step leaves the inputs and the results (R122). -/
theorem hmacStep_sameOperands_sameResults (d : HmacDraw) (s : State) :
    SameOperands s (hmacStep d s) ∧ SameResults s (hmacStep d s) := by
  obtain ⟨hin, hkey, htime, hdigest, hcode, -⟩ := hmacStep_frame d s
  exact ⟨SameInputs.operands hin, hkey, htime, hdigest, hcode⟩

/-- A step from a busy state, the reset event aside, leaves the inputs of the running command, and its
results too while it still runs. -/
theorem step_busy_frame (h : step s = .next t) (hf : s.fsm ≠ .idle)
    (hrst : ¬ ∃ rest, s.turns = .host .rst :: rest) :
    SameOperands s t ∧ (t.fsm ≠ .idle → SameResults s t) := by
  obtain ⟨op, rest, hturn, h⟩ | ⟨rest, h⟩ | ⟨d, u, hu, rfl⟩ := step_agent h
  · have hop : op ≠ .rst := fun hop => hrst ⟨rest, hop ▸ hturn⟩
    obtain ⟨hops, hres⟩ := hostStep_busy_frame (s := afterTurn rest s) h hop hf
    exact ⟨hops, fun _ => hres⟩
  · exact ⟨SameInputs.operands (s := afterTurn rest s) (coreStep_sameInputs h),
      coreStep_sameResults (s := afterTurn rest s) h⟩
  · obtain ⟨hops, hres⟩ := hmacStep_sameOperands_sameResults d u
    obtain rfl | ⟨rest, rfl⟩ := hu <;> exact ⟨hops, fun _ => hres⟩

end

/-- Settles O58: whichever agent moves, the inputs stay, and the results stay while the command runs. -/
theorem inputsFixedWhileBusy : Obligations.InputsFixedWhileBusy := by
  intro s t h hf hrst
  obtain ⟨⟨hnowLo, hnowHi, hcandLen, hcand⟩, hres⟩ := step_busy_frame h hf hrst
  exact ⟨hnowLo, hnowHi, hcandLen, hcand, hres⟩

end Sys2Proof.Machine
end

section
/-! The counter message, dynamic truncation and the rendered code in arithmetic (spec/42_hotp.md R130 to R133). -/

namespace Sys2Proof.Machine

open Sys2Proof.Safety

/-! The counter message. -/

/-- Serialize puts the bytes of the high half before the bytes of the low half (R130). -/
theorem getElem_serialize (hi lo : Word) (i : Nat) (h : i < 8) :
    (serialize hi lo)[i] = if i < 4 then byteOfWord hi i else byteOfWord lo (i - 4) := by
  interval_cases i <;> rfl

/-- Serialize of the two halves is BE64 of the 64-bit counter (R130). -/
theorem serialize_eq_be64 (hi lo : Word) : serialize hi lo = be64 (hi ++ lo) := by
  ext1 i h
  rw [getElem_serialize, getElem_be64]
  by_cases hhigh : i < 4
  · rw [if_pos hhigh, BitVec.extractLsb'_append_eq_of_le (by omega), byteOfWord,
      show 56 - 8 * i - 32 = 8 * (3 - i) by omega]
  · rw [if_neg hhigh, BitVec.extractLsb'_append_eq_of_add_le (by omega), byteOfWord,
      show 56 - 8 * i = 8 * (3 - (i - 4)) by omega]

/-- Byte i of BE64 in arithmetic (spec/00_scope.md R10). -/
theorem toNat_getElem_be64 (c : DWord) (i : Nat) (h : i < 8) :
    (be64 c)[i].toNat = c.toNat / 2 ^ (8 * (7 - i)) % 256 := by
  rw [getElem_be64, BitVec.extractLsb'_toNat, Nat.shiftRight_eq_div_pow,
    show 56 - 8 * i = 8 * (7 - i) by omega]

/-- Settles O35: the halves of a 64-bit counter are its bytes 0 to 3 and 4 to 7. -/
theorem serializeIsBigEndian : Obligations.SerializeIsBigEndian := by
  intro hi lo
  have hctr : (hi ++ lo).toNat = hi.toNat * 2 ^ 32 + lo.toNat := toNat_append_eq hi lo
  rw [← hctr, BitVec.ofNat_toNat, BitVec.setWidth_eq, serialize_eq_be64]
  exact ⟨rfl, fun i => toNat_getElem_be64 _ i.val i.isLt⟩

/-! Dynamic truncation. -/

/-- Four bytes shifted into their places and or-ed are the number they spell. -/
theorem toNat_orBytes (a b c d : Byte) :
    (a.setWidth 32 <<< 24 ||| b.setWidth 32 <<< 16 ||| c.setWidth 32 <<< 8 ||| d.setWidth 32 : Word).toNat =
      a.toNat * 2 ^ 24 + b.toNat * 2 ^ 16 + c.toNat * 2 ^ 8 + d.toNat := by
  have ha := a.isLt
  have hb := b.isLt
  have hc := c.isLt
  have hd := d.isLt
  have hcd : c.toNat * 2 ^ 8 ||| d.toNat = c.toNat * 2 ^ 8 + d.toNat := by
    rw [← Nat.shiftLeft_eq, Nat.shiftLeft_add_eq_or_of_lt hd]
  have hbcd : b.toNat * 2 ^ 16 ||| (c.toNat * 2 ^ 8 + d.toNat) =
      b.toNat * 2 ^ 16 + (c.toNat * 2 ^ 8 + d.toNat) := by
    rw [← Nat.shiftLeft_eq b.toNat, Nat.shiftLeft_add_eq_or_of_lt (by omega)]
  have habcd : a.toNat * 2 ^ 24 ||| (b.toNat * 2 ^ 16 + (c.toNat * 2 ^ 8 + d.toNat)) =
      a.toNat * 2 ^ 24 + (b.toNat * 2 ^ 16 + (c.toNat * 2 ^ 8 + d.toNat)) := by
    rw [← Nat.shiftLeft_eq a.toNat, Nat.shiftLeft_add_eq_or_of_lt (by omega)]
  simp only [BitVec.toNat_or, BitVec.toNat_shiftLeft, BitVec.toNat_setWidth, Nat.shiftLeft_eq]
  rw [Nat.mod_eq_of_lt (a := a.toNat) (by omega), Nat.mod_eq_of_lt (a := b.toNat) (by omega),
    Nat.mod_eq_of_lt (a := c.toNat) (by omega), Nat.mod_eq_of_lt (a := d.toNat) (by omega),
    Nat.mod_eq_of_lt (by omega), Nat.mod_eq_of_lt (by omega), Nat.mod_eq_of_lt (by omega),
    Nat.or_assoc, Nat.or_assoc, hcd, hbcd, habcd]
  omega

/-- The mask 0x7F of R131 drops bit 7 of the first byte. -/
theorem toNat_and_7F (b : Byte) : (b &&& 0x7F).toNat = b.toNat % 128 :=
  Nat.and_two_pow_sub_one_eq_mod b.toNat 7

/-- The mask 0xFF of R131 drops nothing of the other bytes. -/
theorem and_FF (b : Byte) : b &&& 0xFF = b := BitVec.and_allOnes

/-- The offset of R131 in arithmetic. -/
theorem toNat_truncOffset (h : Digest) : (truncOffset h).toNat = h[19].toNat % 16 := by
  have hnibble : (h[19] &&& 0x0F).toNat = h[19].toNat % 16 :=
    Nat.and_two_pow_sub_one_eq_mod h[19].toNat 4
  rw [truncOffset, BitVec.toNat_setWidth, hnibble, Nat.mod_mod]

/-- The value of R131 in arithmetic. -/
theorem toNat_truncWord (h : Digest) : (truncWord h).toNat = truncNat h (h[19].toNat % 16) := by
  have ho := (truncOffset h).isLt
  rw [← toNat_truncOffset, truncWord, and_FF, and_FF, and_FF, toNat_orBytes, toNat_and_7F, truncNat]
  simp [show (truncOffset h).toNat < 20 by omega, show (truncOffset h).toNat + 1 < 20 by omega,
    show (truncOffset h).toNat + 2 < 20 by omega, show (truncOffset h).toNat + 3 < 20 by omega]

/-- The masked value has 31 bits, whatever the digest and the offset (R131). -/
theorem truncNat_lt (h : Digest) (o : Nat) : truncNat h o < 2 ^ 31 := by
  have h1 := (h[o + 1]?.getD 0).isLt
  have h2 := (h[o + 2]?.getD 0).isLt
  have h3 := (h[o + 3]?.getD 0).isLt
  have h0 : (h[o]?.getD 0).toNat % 128 < 128 := Nat.mod_lt _ (by decide)
  rw [truncNat]
  omega

/-- PVAL loses nothing of the value (R131). -/
theorem toNat_truncValue (h : Digest) : (truncValue h).toNat = truncNat h (h[19].toNat % 16) := by
  rw [truncValue, BitVec.toNat_setWidth, toNat_truncWord, Nat.mod_eq_of_lt (truncNat_lt h _)]

/-- Settles O36: the offset, the value, and the bound of its arithmetic form. -/
theorem dynTruncIsMasked31Bits : Obligations.DynTruncIsMasked31Bits := by
  intro h
  refine ⟨toNat_truncOffset h, toNat_truncWord h, ?_⟩
  rw [toNat_truncWord]
  exact truncNat_lt h _

/-! The rendered code. -/

/-- A rendered character in arithmetic (R133). -/
theorem toNat_renderChar (n d i : Nat) :
    (renderChar n d i).toNat = 0x30 + n / 10 ^ (d - 1 - i) % 10 := by
  have hdigit : n / 10 ^ (d - 1 - i) % 10 < 10 := Nat.mod_lt _ (by decide)
  rw [renderChar, BitVec.toNat_ofNat]
  omega

/-- The characters before the last are the string of the number without its last digit (R133). -/
theorem renderChar_succ (n : Nat) {d i : Nat} (hi : i < d) :
    renderChar n (d + 1) i = renderChar (n / 10) d i := by
  rw [renderChar, renderChar, Nat.div_div_eq_div_mul, ← Nat.pow_succ',
    show d + 1 - 1 - i = d - 1 - i + 1 by omega]

/-- Render appends the last digit to the string of the other digits (R133). -/
theorem render_succ (n d : Nat) :
    render n (d + 1) = render (n / 10) d ++ [renderChar n (d + 1) d] := by
  rw [render, List.range_succ, List.map_append, List.map_singleton, render]
  congr 1
  exact List.map_congr_left fun i hi => renderChar_succ n (List.mem_range.mp hi)

/-- A string of digits with one more digit. -/
theorem decimalValue_concat (str : List Byte) (c : Byte) :
    decimalValue (str ++ [c]) = 10 * decimalValue str + (c.toNat - 0x30) :=
  List.foldl_concat ..

/-- The rendered string spells the number, digit by digit (R133). -/
theorem decimalValue_render {n d : Nat} (h : n < 10 ^ d) : decimalValue (render n d) = n := by
  induction d generalizing n with
  | zero =>
    obtain rfl : n = 0 := Nat.lt_one_iff.mp h
    rfl
  | succ d ih =>
    have hrest : n / 10 < 10 ^ d := Nat.div_lt_of_lt_mul (by rwa [← Nat.pow_succ'])
    have hlast : (renderChar n (d + 1) d).toNat = 0x30 + n % 10 := by simp [toNat_renderChar]
    rw [render_succ, decimalValue_concat, ih hrest, hlast]
    omega

/-- Settles O37: one character per place, each an ASCII digit, and their value by induction. -/
theorem renderSpellsNumber : Obligations.RenderSpellsNumber := by
  intro n d h
  refine ⟨by simp [render], fun c hc => ?_, decimalValue_render h⟩
  obtain ⟨i, -, rfl⟩ := List.mem_map.mp hc
  exact renderChar_range n d i

end Sys2Proof.Machine
end

section
/-! TRUNC and HOTP (spec/42_hotp.md R134 to R136): what they answer in each step, the code they commit, and
HOTP from its word to its result. -/

namespace Sys2Proof.Machine

open Sys2Proof.Safety

section
variable {s : State} {d : BitVec 4} {x : Digest}

/-! The code of a digest. -/

/-- `CommitCode(h, d)` leaves the d-digit code of h in the code registers (R136). -/
theorem commitCode_holdsCode (x : Digest) (d : BitVec 4) (s : State) :
    HoldsCode x d (commitCode x d s) := by
  have hnum : (commitCode x d s).codeNum.toNat = codeNumber x d.toNat := codeNumber_fits x d.toNat
  refine ⟨toNat_truncOffset x, toNat_truncValue x, hnum, rfl, fun i hi => ?_, fun i hi => ?_⟩
  · rw [hnum, commitCode_code, getElem_codeBuffer_codeString, if_pos hi, toNat_renderChar]
  · rw [commitCode_code, getElem_codeBuffer_codeString, if_neg hi.not_gt]

/-- A command that commits a code and ends writes nothing but the code registers and what finish writes
(R136, spec/45_control.md R184). -/
theorem finish_commitCode (x : Digest) (d : BitVec 4) (s : State) :
    Ended .none (finish .none (commitCode x d s)) ∧ HoldsCode x d (finish .none (commitCode x d s)) ∧
      SameInputs s (finish .none (commitCode x d s)) ∧ SameKey s (finish .none (commitCode x d s)) ∧
      SameTime s (finish .none (commitCode x d s)) ∧ SameDigest s (finish .none (commitCode x d s)) ∧
      SameVerdict s (finish .none (commitCode x d s)) ∧ SameHidden s (finish .none (commitCode x d s)) ∧
      (finish .none (commitCode x d s)).req = s.req := by
  obtain ⟨hend, hin, hkey, htime, hdigest, -, hhidden, hreq⟩ := finish_frame .none (commitCode x d s)
  have hverdict : SameVerdict s (finish .none (commitCode x d s)) := by simp [SameVerdict]
  exact ⟨hend, commitCode_holdsCode x d s, hin, hkey, htime, hdigest, hverdict, hhidden, hreq⟩

/-! The cases of the commands. -/

theorem exec_trunc (hd : d ≠ 0) :
    exec (.trunc d) s = .next (finish .none (commitCode s.h d s)) := by
  rw [exec, execTrunc, if_neg hd, commit]

/-- HOTP's execute step sends the key and the counter (R135). -/
theorem exec_hotp_requests (hd : d ≠ 0) (hf : s.fsm ≠ .resp) (hk : s.kovf = false) :
    exec (.hotp d) s = .next (hmacRequest (keyBytes s) (be64 (ctr s)) (setWctr (ctr s) s)) := by
  rw [(exec_execute_step hf).1 d, hotpExecute, if_neg hd, if_neg (by simp [hk]), serialize_eq_be64, ctr]

/-- HOTP's response step commits the digest and its code (R135). -/
theorem exec_hotp_commits (hf : s.fsm = .resp) (hx : s.resp = some (.digest x)) :
    exec (.hotp d) s = .next (finish .none (commitCode x d (setH x s))) := by
  simp only [exec, execHotp, hf, hotpRespond, withDigest_digest hx, commit]

/-- A CryptoError answer ends the command that sent the request (R135, spec/43_totp.md R154,
spec/44_verify.md R167). -/
theorem exec_of_cryptoError {i : Instr} (hf : s.fsm = .resp) (hx : s.resp = some .cryptoError)
    (hi : sendsRequest i = true) : exec i s = .next (finish .cryptoError s) := by
  cases i with
  | hotp d => simp only [exec, execHotp, hf, hotpRespond, withDigest_cryptoError hx]
  | totp d => simp only [exec, execTotp, hf, totpRespond, withDigest_cryptoError hx]
  | verify => simp only [exec, execVerify, hf, verifyRespond, withDigest_cryptoError hx]
  | nop | keyclr | b32push | keypush | tctr | trunc | abort => cases hi

end

/-- Settles O38: the code of H is committed and the command ends. -/
theorem truncCommitsCode : Obligations.TruncCommitsCode := by
  intro s d hd
  exact ⟨_, exec_trunc hd, finish_commitCode s.h d s⟩

/-- Settles O39: the request is on the port, and nothing but wctr, req and fsm is written. -/
theorem hotpRequestsDigest : Obligations.HotpRequestsDigest := by
  intro s d hd hf hk
  refine ⟨_, exec_hotp_requests hd hf hk, ?_⟩
  and_intros <;> rfl

/-- Settles O40: H takes the digest before its code is committed. -/
theorem hotpCommitsCode : Obligations.HotpCommitsCode := by
  intro s d h hf hresp
  obtain ⟨hend, hcode, hin, hkey, htime, hdigest, hverdict, hhidden, hreq⟩ :=
    finish_commitCode h d (setH h s)
  exact ⟨_, exec_hotp_commits hf hresp, hend, hdigest, hcode, hin, hkey, htime, hverdict, hhidden, hreq⟩

/-- Settles O47: the command ends with CRYPTO_ERROR, and finish clears the verdict of a VERIFY only. -/
theorem cryptoErrorCommitsNothing : Obligations.CryptoErrorCommitsNothing := by
  intro s i hf hresp hcmd hi
  obtain ⟨hend, hin, hkey, htime, hdigest, hcode, hhidden, hreq, hcleared, hkept⟩ :=
    finish_error_frame (e := .cryptoError) (by decide) s
  refine ⟨_, exec_of_cryptoError hf hresp hi, hend, hin, hkey, htime, hdigest, hcode, hhidden, hreq,
    fun hv => ?_, fun hv => ?_⟩
  · exact hcleared (hcmd ▸ opField_encode_eq_verify.mpr hv)
  · exact hkept (hcmd ▸ mt opField_encode_eq_verify.mp hv)

/-! A run of the machine, step by step. -/

section
variable {s t : State} {i : Instr} {rest : List Turn}

/-- A run takes its first step and goes on from there. -/
theorem run_succ (n : Nat) (h : step s = .next t) : core.run (n + 1) s = core.run n t := by
  simp only [Host.Core.run, show core.step s = .next t from h]

/-- A core turn in EXEC is the execute step of the latched command (spec/45_control.md R183). -/
theorem step_execute (hturn : s.turns = .core :: rest) (hf : s.fsm = .exec) (ha : s.abortReq = false)
    (hi : decode s.cmd = .ok i) : step s = exec i (afterTurn rest s) := by
  simp [step_core hturn, coreStep, hf, ha, executeLatched, hi]

/-- A core turn in RESP is the response step of the latched command (R183). -/
theorem step_respond (hturn : s.turns = .core :: rest) (hf : s.fsm = .resp) (ha : s.abortReq = false)
    (hi : decode s.cmd = .ok i) (hsend : sendsRequest i = true) :
    step s = exec i (afterTurn rest s) := by
  rw [step_core hturn]
  simp only [coreStep, afterTurn_fsm, hf, afterTurn_abortReq, ha]
  exact respondLatched_eq (s := afterTurn rest s) hi hsend

/-- An hmac turn that draws the digest answers a request with a key (spec/41_hmac_port.md R122, R123). -/
theorem step_hmac_digest {r : HmacReq} (hturn : s.turns = .hmac .digest :: rest) (hreq : s.req = some r)
    (hkey : r.key ≠ []) :
    step s = .next (hmacAnswer (.digest (hmacSha1 r.key r.msg)) (afterTurn rest s)) := by
  rw [step_hmac hturn, hmacStep_some (s := afterTurn rest s) hreq, hmacResponse_digest_of_ne_nil hkey]

end

/-! HOTP from its word to its result. -/

/-- HOTP after its execute step, with the turns `rest` to come. -/
def hotpRequested (rest : List Turn) (s : State) : State :=
  hmacRequest (keyBytes s) (be64 (ctr s)) (setWctr (ctr s) (afterTurn rest s))

/-- HOTP with the digest x for its answer, after the hmac turn and with the turns `rest` to come. -/
def hotpAnswered (x : Digest) (rest : List Turn) (s : State) : State :=
  hmacAnswer (.digest x) (hotpRequested rest s)

@[simp] theorem hotpAnswered_cmd (x : Digest) (rest : List Turn) (s : State) :
    (hotpAnswered x rest s).cmd = s.cmd := by simp [hotpAnswered, hotpRequested]

@[simp] theorem hotpAnswered_abortReq (x : Digest) (rest : List Turn) (s : State) :
    (hotpAnswered x rest s).abortReq = s.abortReq := by simp [hotpAnswered, hotpRequested]

/-- HOTP after its response step. -/
def hotpCommitted (x : Digest) (d : BitVec 4) (s : State) : State :=
  finish .none (commitCode x d (setH x (hotpAnswered x [] s)))

/-- With the digest x for an answer, HOTP commits x and its code, and writes no other register of the window
(R135, R136). -/
theorem hotpCommitted_frame (x : Digest) (d : BitVec 4) (s : State) :
    Ended .none (hotpCommitted x d s) ∧ (hotpCommitted x d s).h = x ∧
      HoldsCode x d (hotpCommitted x d s) ∧ SameKey s (hotpCommitted x d s) ∧
      SameTime s (hotpCommitted x d s) ∧ SameVerdict s (hotpCommitted x d s) ∧
      (hotpCommitted x d s).req = none := by
  obtain ⟨hend, hcode, -, -, -, hdigest, -, -, hreq⟩ :=
    finish_commitCode x d (setH x (hotpAnswered x [] s))
  refine ⟨hend, hdigest, hcode, ?_, ?_, ?_, hreq⟩ <;>
    simp [SameKey, SameTime, SameVerdict, hotpCommitted, hotpAnswered, hotpRequested]

section
variable {s : State} {d : BitVec 4} {rest : List Turn}

/-- The first step sends the request (R135). -/
theorem step_hotp_requests (hturn : s.turns = .core :: rest) (hf : s.fsm = .exec) (ha : s.abortReq = false)
    (hi : decode s.cmd = .ok (.hotp d)) (hk : s.kovf = false) :
    step s = .next (hotpRequested rest s) := by
  have hd : d ≠ 0 := by simpa [Instr.WellFormed, Instr.wellFormed] using decode_ok_wellFormed hi
  rw [step_execute hturn hf ha hi]
  exact exec_hotp_requests hd (by simp [hf]) hk

/-- The second step answers it (spec/41_hmac_port.md R122). -/
theorem step_hotpRequested (hkey : keyBytes s ≠ []) :
    step (hotpRequested (.hmac .digest :: rest) s) =
      .next (hotpAnswered (hmacSha1 (keyBytes s) (be64 (ctr s))) rest s) :=
  step_hmac_digest (r := ⟨keyBytes s, be64 (ctr s)⟩) rfl rfl hkey

/-- The third step commits the answer (R135). -/
theorem step_hotpAnswered (ha : s.abortReq = false) (hi : decode s.cmd = .ok (.hotp d)) (x : Digest) :
    step (hotpAnswered x [.core] s) = .next (hotpCommitted x d s) := by
  rw [step_respond (s := hotpAnswered x [.core] s) rfl rfl (by simpa using ha) (by simpa using hi) rfl]
  exact exec_hotp_commits (s := hotpAnswered x [] s) rfl rfl

end

/-- Settles O49: the request, the answer and the commit, one step each. -/
theorem hotpComputesCode : Obligations.HotpComputesCode := by
  intro s d hd hf ha hcmd hk hkey hturns
  have hi : decode s.cmd = .ok (.hotp d) := by
    rw [hcmd]
    exact decode_encode (by simpa [Instr.WellFormed, Instr.wellFormed] using hd)
  refine ⟨_, ?_, hotpCommitted_frame _ d s⟩
  rw [run_succ 2 (step_hotp_requests hturns hf ha hi hk), run_succ 1 (step_hotpRequested hkey),
    run_succ 0 (step_hotpAnswered ha hi _)]
  rfl

end Sys2Proof.Machine
end

section
/-! The time counter and the remaining seconds (spec/43_totp.md R150 to R152), and TCTR (R153). -/

namespace Sys2Proof.Machine

open Sys2Proof.Safety

/-! The formulas on numbers. -/

/-- A counter of a 64-bit time is below 2^55 (R150). -/
theorem timeCounter_lt {t : Nat} (S : Nat) (ht : t < 2 ^ 64) : timeCounter t S < 2 ^ 55 :=
  (Nat.div_le_self _ _).trans_lt (by omega)

/-- With a step of at least 2 seconds the bound is R150's 2^54. -/
theorem timeCounter_lt_of_two_le {t S : Nat} (ht : t < 2 ^ 64) (hS : 2 ≤ S) :
    timeCounter t S < 2 ^ 54 :=
  calc t / 1000 / S ≤ t / 1000 / 2 := Nat.div_le_div_left hS (by decide)
    _ < 2 ^ 54 := by omega

/-- The rounding and the truncated subtraction of `remaining` are R151's max(0, ceil((p - t) / 1000)). -/
theorem natCast_ceil_seconds (t p : Nat) :
    (((p - t + 999) / 1000 : Nat) : Int) = max 0 (-(((t : Int) - (p : Int)) / 1000)) := by
  omega

/-- Settles O33: the formula is the rounding of the milliseconds left, the rest is read off the closed
form. -/
theorem remainingClosedForm : Obligations.RemainingClosedForm := by
  intro t S hS
  obtain ⟨hlo, hhi⟩ := remaining_bounds t hS
  have hclosed := remaining_eq t hS
  have hmod : t / 1000 % S < S := Nat.mod_lt _ hS
  refine ⟨natCast_ceil_seconds t _, hclosed, hlo, hhi, ?_, ?_⟩ <;> omega

/-- Refutes O32: at S = 1 the counter of the last 64-bit time is above 2^54 (assumption 17). -/
theorem not_inferredCounterBound : ¬ Obligations.InferredCounterBound := by
  intro h
  exact absurd (h (2 ^ 64 - 1) 1 (by decide) (by decide)) (by decide)

/-! The formulas on the registers. -/

/-- The counter of NOW loses nothing in 64 bits (R150). -/
theorem toNat_nowCounter (s : State) :
    (nowCounter s).toNat = timeCounter (now s).toNat s.params.stepS.toNat := by
  have hlt := timeCounter_lt s.params.stepS.toNat (now s).isLt
  rw [nowCounter, BitVec.toNat_ofNat, Nat.mod_eq_of_lt (hlt.trans (by decide))]

/-- The remaining seconds of NOW lose nothing in 32 bits (R151, R152). -/
theorem toNat_nowRemaining {s : State} (h : s.params.Legal) :
    (nowRemaining s).toNat = s.params.stepS.toNat - (now s).toNat / 1000 % s.params.stepS.toNat := by
  obtain ⟨-, -, hS⟩ := h
  have hle := (remaining_bounds (now s).toNat hS).2
  rw [nowRemaining, BitVec.toNat_ofNat, Nat.mod_eq_of_lt (hle.trans_lt s.params.stepS.isLt),
    remaining_eq _ hS]

theorem toNat_highHalf (c : DWord) : (highHalf c).toNat = c.toNat / 2 ^ 32 := by
  have hc := c.isLt
  rw [highHalf, BitVec.extractLsb'_toNat, Nat.shiftRight_eq_div_pow, Nat.mod_eq_of_lt (by omega)]

theorem toNat_lowHalf (c : DWord) : (lowHalf c).toNat = c.toNat % 2 ^ 32 := by
  rw [lowHalf, BitVec.extractLsb'_toNat, Nat.shiftRight_zero]

/-- Settles O31: the counter is the formula's, and far enough below 2^64 for one more. -/
theorem timeCounterFits : Obligations.TimeCounterFits := by
  intro s _
  have hnow := (now s).isLt
  have hlt : (nowCounter s).toNat < 2 ^ 55 := toNat_nowCounter s ▸ timeCounter_lt _ hnow
  refine ⟨toNat_nowCounter s, hlt, fun hS => ?_, ?_⟩
  · exact toNat_nowCounter s ▸ timeCounter_lt_of_two_le hnow hS
  · exact BitVec.toNat_add_of_lt (by simp; omega)

/-- The block after TCTR (R153). -/
def tctrCommitted (s : State) : State :=
  finish .none (setRemain (nowRemaining s) (setCtr (nowCounter s) s))

theorem exec_tctr (s : State) : exec .tctr s = .next (tctrCommitted s) := rfl

/-- Settles O34: CTR takes the halves of the counter, REMAIN the remaining seconds. -/
theorem tctrWritesCounter : Obligations.TctrWritesCounter := by
  intro s hlegal
  refine ⟨_, exec_tctr s, (finish_frame _ _).1, ?_, ?_, toNat_nowRemaining hlegal, ?_⟩
  · exact (toNat_highHalf _).trans (by rw [toNat_nowCounter, timeCounter])
  · exact (toNat_lowHalf _).trans (by rw [toNat_nowCounter, timeCounter])
  · simp [SameInputs, SameKey, SameDigest, SameCode, SameVerdict, SameHidden, tctrCommitted]

end Sys2Proof.Machine
end

section
/-! TOTP (spec/43_totp.md R154): what its two steps answer, the empty key, and TOTP as TCTR and then HOTP
(R153). -/

namespace Sys2Proof.Machine

open Sys2Proof.Safety

section
variable {s : State} {d : BitVec 4} {x : Digest}

/-! The cases of the command. -/

theorem wellFormed_hotp : (Instr.hotp d).WellFormed ↔ d ≠ 0 := bne_iff_ne

theorem wellFormed_totp : (Instr.totp d).WellFormed ↔ d ≠ 0 := bne_iff_ne

/-- TOTP's execute step sends the key and the counter of NOW (R154). -/
theorem exec_totp_requests (hd : d ≠ 0) (hf : s.fsm ≠ .resp) (hk : s.kovf = false)
    (hlen : s.keyLen ≠ 0) :
    exec (.totp d) s = .next (hmacRequest (keyBytes s) (be64 (nowCounter s))
      (setWctr (nowCounter s) (setTcRem (nowRemaining s) s))) := by
  obtain ⟨-, htotp, -⟩ := exec_execute_step hf
  rw [htotp, totpExecute, if_neg hd, if_neg (by simp [hk]), if_neg hlen]

/-- TOTP's response step commits the counter and the seconds it held back, the digest and its code
(R154). -/
theorem exec_totp_commits (hf : s.fsm = .resp) (hx : s.resp = some (.digest x)) :
    exec (.totp d) s =
      .next (finish .none (commitCode x d (setH x (setRemain s.tcRem (setCtr s.wctr s))))) := by
  simp only [exec, execTotp, hf, totpRespond, withDigest_digest hx, commit]

/-- TOTP and VERIFY refuse an empty key (R154, spec/44_verify.md R167). -/
theorem exec_of_empty_key {i : Instr} (hlen : s.keyLen = 0) (hk : s.kovf = false) (hf : s.fsm ≠ .resp)
    (hwf : i.WellFormed) (hi : (∃ d, i = .totp d) ∨ i = .verify) :
    exec i s = .next (finish .invalidSecret s) := by
  obtain ⟨-, htotp, hverify⟩ := exec_execute_step hf
  obtain ⟨d, rfl⟩ | rfl := hi
  · rw [htotp, totpExecute, if_neg (wellFormed_totp.mp hwf), if_neg (by simp [hk]), if_pos hlen, raise]
  · rw [hverify, verifyExecute, if_neg (by simp [hk]), if_pos hlen, raise]

end

/-- Settles O41: the request is on the port, and nothing but wctr, tc_rem, req and fsm is written. -/
theorem totpRequestsDigest : Obligations.TotpRequestsDigest := by
  intro s d hd hf hk hlen hlegal
  refine ⟨_, nowCounter s, exec_totp_requests hd hf hk hlen, ?_, toNat_nowCounter s,
    toNat_nowRemaining hlegal, ?_⟩
  · exact ⟨rfl, rfl, rfl, rfl⟩
  · and_intros <;> rfl

/-- Settles O42: CTR, REMAIN and H take their values before the code of the digest is committed. -/
theorem totpCommitsCode : Obligations.TotpCommitsCode := by
  intro s d h hf hresp
  obtain ⟨hend, hcode, hin, hkey, ⟨hlo, hhi, hremain⟩, hdigest, hverdict, hhidden, hreq⟩ :=
    finish_commitCode h d (setH h (setRemain s.tcRem (setCtr s.wctr s)))
  exact ⟨_, exec_totp_commits hf hresp, hend, hhi ▸ toNat_highHalf s.wctr, hlo ▸ toNat_lowHalf s.wctr,
    hremain, hdigest, hcode, hin, hkey, hverdict, hhidden, hreq⟩

/-- What finish does with an error of the latched command: only VERIFY's verdict is cleared, and no other
register is written (spec/45_control.md R184). -/
theorem finish_error_frame_of_cmd {e : ErrCode} (he : e ≠ .none) {i : Instr} {s : State}
    (hcmd : s.cmd = encode i) :
    Ended e (finish e s) ∧ SameInputs s (finish e s) ∧ SameKey s (finish e s) ∧
      SameTime s (finish e s) ∧ SameDigest s (finish e s) ∧ SameCode s (finish e s) ∧
      SameHidden s (finish e s) ∧ (finish e s).req = s.req ∧
      (i = .verify → (finish e s).valid = false ∧ (finish e s).matchIdx = 0) ∧
      (i ≠ .verify → SameVerdict s (finish e s)) := by
  have hverify : opField s.cmd = 0x8 ↔ i = .verify := hcmd ▸ opField_encode_eq_verify
  rw [ne_eq, ← hverify]
  exact finish_error_frame he s

/-- Settles O46: the command ends with INVALID_SECRET, and finish clears the verdict of a VERIFY only. -/
theorem emptySecretRefused : Obligations.EmptySecretRefused := by
  intro s i hlen hk hf hcmd hwf hi
  exact ⟨_, exec_of_empty_key hlen hk hf hwf hi, finish_error_frame_of_cmd (by decide) hcmd⟩

/-! The states of a TOTP on its way to its result. -/

/-- TOTP after its execute step, with the turns `rest` to come. -/
def totpRequested (rest : List Turn) (s : State) : State :=
  hmacRequest (keyBytes s) (be64 (nowCounter s))
    (setWctr (nowCounter s) (setTcRem (nowRemaining s) (afterTurn rest s)))

/-- TOTP with the digest x for its answer, after the hmac turn and with the turns `rest` to come. -/
def totpAnswered (x : Digest) (rest : List Turn) (s : State) : State :=
  hmacAnswer (.digest x) (totpRequested rest s)

/-- TOTP after its response step. -/
def totpCommitted (x : Digest) (d : BitVec 4) (s : State) : State :=
  finish .none (commitCode x d
    (setH x (setRemain (nowRemaining s) (setCtr (nowCounter s) (totpAnswered x [] s)))))

@[simp] theorem totpAnswered_cmd (x : Digest) (rest : List Turn) (s : State) :
    (totpAnswered x rest s).cmd = s.cmd := by simp [totpAnswered, totpRequested]

@[simp] theorem totpAnswered_abortReq (x : Digest) (rest : List Turn) (s : State) :
    (totpAnswered x rest s).abortReq = s.abortReq := by simp [totpAnswered, totpRequested]

/-- A command's word accepted, with the turns `rest` to come (spec/45_control.md R180). -/
def latched (i : Instr) (rest : List Turn) (s : State) : State := accept (encode i) (afterTurn rest s)

section
variable {s : State} {d : BitVec 4} {rest : List Turn}

/-! The steps from a command word to its result. -/

/-- A host turn that writes a word to CMD of an idle block has it accepted (spec/45_control.md R180). -/
theorem step_accept {w : Word} (hturn : s.turns = .host (.wr 4 0x004 w) :: rest) (hf : s.fsm = .idle) :
    step s = .next (accept w (afterTurn rest s)) := by
  rw [step_write hturn (by decide), show regAt 0x004 = .cmd by decide]
  simp [writeReg, busy, hf]

/-- TCTR takes one step (R153). -/
theorem step_tctr (hturn : s.turns = .core :: rest) (hf : s.fsm = .exec) (ha : s.abortReq = false)
    (hi : decode s.cmd = .ok .tctr) : step s = .next (tctrCommitted (afterTurn rest s)) := by
  rw [step_execute hturn hf ha hi, exec_tctr]

/-- TOTP's first step sends the request (R154). -/
theorem step_totp_requests (hturn : s.turns = .core :: rest) (hf : s.fsm = .exec) (ha : s.abortReq = false)
    (hi : decode s.cmd = .ok (.totp d)) (hk : s.kovf = false) (hlen : s.keyLen ≠ 0) :
    step s = .next (totpRequested rest s) := by
  rw [step_execute hturn hf ha hi]
  exact exec_totp_requests (wellFormed_totp.mp (decode_ok_wellFormed hi)) (by simp [hf]) hk hlen

/-- TOTP's second step answers it (spec/41_hmac_port.md R122). -/
theorem step_totpRequested (hkey : keyBytes s ≠ []) :
    step (totpRequested (.hmac .digest :: rest) s) =
      .next (totpAnswered (hmacSha1 (keyBytes s) (be64 (nowCounter s))) rest s) :=
  step_hmac_digest (r := ⟨keyBytes s, be64 (nowCounter s)⟩) rfl rfl hkey

/-- TOTP's third step commits the answer (R154). -/
theorem step_totpAnswered (ha : s.abortReq = false) (hi : decode s.cmd = .ok (.totp d)) (x : Digest) :
    step (totpAnswered x [.core] s) = .next (totpCommitted x d s) := by
  rw [step_respond (s := totpAnswered x [.core] s) rfl rfl (by simpa using ha) (by simpa using hi) rfl]
  exact exec_totp_commits (s := totpAnswered x [] s) rfl rfl

/-! The runs of the two schedules. -/

/-- A run whose schedule starts with a write of a command's word to CMD of an idle block goes on with that
command accepted (spec/45_control.md R180). -/
theorem run_accept (hf : s.fsm = .idle) (n : Nat) (i : Instr) (rest : List Turn) :
    core.run (n + 1) { s with turns := .host (.wr 4 0x004 (encode i)) :: rest } =
      core.run n (latched i rest s) :=
  run_succ n (step_accept rfl hf)

/-- With a digest for an answer, TOTP commits the code of the counter of NOW in three steps (R154). -/
theorem run_totp (hturns : s.turns = [.core, .hmac .digest, .core]) (hf : s.fsm = .exec)
    (ha : s.abortReq = false) (hi : decode s.cmd = .ok (.totp d)) (hk : s.kovf = false)
    (hkey : keyBytes s ≠ []) :
    core.run 3 s = .next (totpCommitted (hmacSha1 (keyBytes s) (be64 (nowCounter s))) d s) := by
  have hlen : s.keyLen ≠ 0 := fun h => hkey (by simp [keyBytes, h])
  rw [run_succ 2 (step_totp_requests hturns hf ha hi hk hlen), run_succ 1 (step_totpRequested hkey),
    run_succ 0 (step_totpAnswered ha hi _)]
  rfl

/-- With a digest for an answer, HOTP commits the code of CTR in three steps (spec/42_hotp.md R135). -/
theorem run_hotp (hturns : s.turns = [.core, .hmac .digest, .core]) (hf : s.fsm = .exec)
    (ha : s.abortReq = false) (hi : decode s.cmd = .ok (.hotp d)) (hk : s.kovf = false)
    (hkey : keyBytes s ≠ []) :
    core.run 3 s = .next (hotpCommitted (hmacSha1 (keyBytes s) (be64 (ctr s))) d s) := by
  rw [run_succ 2 (step_hotp_requests hturns hf ha hi hk), run_succ 1 (step_hotpRequested hkey),
    run_succ 0 (step_hotpAnswered ha hi _)]
  rfl

/-- HOTP with its word accepted after TCTR, and the turns `rest` to come. -/
def hotpAfterTctr (d : BitVec 4) (rest : List Turn) (s : State) : State :=
  latched (.hotp d) rest (tctrCommitted s)

/-- The counter HOTP reads after TCTR is the counter of NOW (R153). -/
theorem ctr_hotpAfterTctr (d : BitVec 4) (rest : List Turn) (s : State) :
    ctr (hotpAfterTctr d rest s) = nowCounter s := ctr_setCtr (nowCounter s) s

/-- With a digest for an answer, TCTR and then HOTP commit the code of the counter of NOW (R153). -/
theorem run_tctr_hotp
    (hturns : s.turns =
      .core :: .host (.wr 4 0x004 (encode (.hotp d))) :: [.core, .hmac .digest, .core])
    (hf : s.fsm = .exec) (ha : s.abortReq = false) (hi : decode s.cmd = .ok .tctr) (hd : d ≠ 0)
    (hk : s.kovf = false) (hkey : keyBytes s ≠ []) :
    core.run 5 s = .next (hotpCommitted (hmacSha1 (keyBytes s) (be64 (nowCounter s))) d
      (hotpAfterTctr d [.core, .hmac .digest, .core] s)) := by
  have hhotp : decode (encode (.hotp d)) = .ok (.hotp d) := decode_encode (wellFormed_hotp.mpr hd)
  rw [run_succ 4 (step_tctr hturns hf ha hi), run_succ 3 (step_accept rfl rfl),
    ← ctr_hotpAfterTctr d [.core, .hmac .digest, .core] s]
  exact run_hotp (s := hotpAfterTctr d [.core, .hmac .digest, .core] s) rfl rfl rfl hhotp hk hkey

/-! What the two commit. -/

/-- The same digest commits the same CTR, REMAIN, H and code registers both ways, from states with one
counter of NOW and one number of remaining seconds (R153). -/
theorem totpCommitted_eq_tctr_hotp {u : State} (hctr : nowCounter s = nowCounter u)
    (hrem : nowRemaining s = nowRemaining u) (x : Digest) (d : BitVec 4) (rest : List Turn) :
    SameTime (hotpCommitted x d (hotpAfterTctr d rest u)) (totpCommitted x d s) ∧
      SameDigest (hotpCommitted x d (hotpAfterTctr d rest u)) (totpCommitted x d s) ∧
      SameCode (totpCommitted x d s) (hotpCommitted x d (hotpAfterTctr d rest u)) := by
  simp [SameTime, SameDigest, SameCode, totpCommitted, hotpCommitted, hotpAnswered, hotpRequested,
    hotpAfterTctr, latched, tctrCommitted, hctr, hrem]

end

/-- Settles O50: both schedules commit the digest of the counter of NOW, TOTP in one command and TCTR and
HOTP in two. -/
theorem totpIsTctrThenHotp : Obligations.TotpIsTctrThenHotp := by
  intro s d hd hf ha hk hkey
  have htotp : decode (encode (.totp d)) = .ok (.totp d) := decode_encode (wellFormed_totp.mpr hd)
  have htctr : decode (encode .tctr) = .ok .tctr := decode_encode rfl
  have runTotp := run_totp (s := latched (.totp d) _ s) rfl rfl ha htotp hk hkey
  have runTctrHotp := run_tctr_hotp (s := latched .tctr _ s) rfl rfl ha htctr hd hk hkey
  obtain ⟨⟨hlo, hhi, hremain⟩, hdigest, hcode⟩ :=
    totpCommitted_eq_tctr_hotp (s := latched (.totp d) [.core, .hmac .digest, .core] s)
      (u := latched .tctr _ s) rfl rfl (hmacSha1 (keyBytes s) (be64 (nowCounter s))) d _
  exact ⟨_, _, (run_accept hf 3 _ _).trans runTotp, (run_accept hf 5 _ _).trans runTctrHotp,
    hlo, hhi, hremain, hdigest, hcode, (finish_frame _ _).1, (finish_frame _ _).1⟩

end Sys2Proof.Machine
end

section
/-! VERIFY (spec/44_verify.md R165 to R168): the comparison, the counters of the window, what its two steps
answer, and VERIFY from its word to its verdict. -/

namespace Sys2Proof.Machine

open Sys2Proof.Safety

section
variable {s t : State} {i : Fin 3} {x : Digest}

/-! The comparison. -/

/-- Match compares the candidate with the code's string (R166). -/
theorem candMatches_iff {str : List Byte} : candMatches str s = true ↔ IsCandidate s str := by
  simp [candMatches]

/-- The first six bytes of a buffer are a string of length 6 exactly when they agree one by one. -/
theorem take_six_eq_iff {b : Buffer16} {str : List Byte} (hlen : str.length = 6) :
    b.toList.take 6 = str ↔ ∀ i : Fin 6, str[i.val]? = some b[i.val] := by
  constructor
  · rintro rfl i
    simp [i.isLt]
  · intro h
    refine List.ext_getElem (by simp [hlen]) fun j _ hj => ?_
    have hchar := h ⟨j, hlen ▸ hj⟩
    simpa [hj] using hchar.symm

/-! The counters of the window. -/

/-- Entry i of a window is the counter base + i - 1 (R165, R167). -/
theorem toNat_windowCounter {base : DWord} (hlo : 1 ≤ base.toNat + i.val)
    (hhi : base.toNat + i.val ≤ 2 ^ 64) : (windowCounter base i).toNat = base.toNat + i.val - 1 := by
  have hi := i.isLt
  rw [windowCounter]
  bv_omega

/-- The entry after entry i is for the counter base + i (R167). -/
theorem windowCounter_succ (base : DWord) (hi : i ≠ 2) :
    windowCounter base (i + 1) = base + BitVec.ofNat 64 i.val := by
  have hsucc : (i + 1).val = i.val + 1 := by omega
  rw [windowCounter, hsucc]
  bv_omega

/-- The window of NOW does not wrap (R165). -/
theorem toNat_windowCounter_now (h : 1 ≤ (nowCounter s).toNat + i.val) :
    (windowCounter (nowCounter s) i).toNat = (nowCounter s).toNat + i.val - 1 := by
  have hlt : (nowCounter s).toNat < 2 ^ 55 := toNat_nowCounter s ▸ timeCounter_lt _ (now s).isLt
  exact toNat_windowCounter h (by omega)

/-- The index of the first entry VERIFY tries (R165). -/
def firstEntry (s : State) : Fin 3 := if nowCounter s = 0 then 1 else 0

theorem firstEntry_of_base_zero (h : (nowCounter s).toNat = 0) : firstEntry s = 1 :=
  if_pos (BitVec.eq_of_toNat_eq h)

theorem firstEntry_of_base_pos (h : 1 ≤ (nowCounter s).toNat) : firstEntry s = 0 :=
  if_neg fun h0 => by simp [h0] at h

/-! The cases of the command. -/

/-- VERIFY's execute step fixes the base and tries the first entry (R167). -/
theorem exec_verify_starts (hf : s.fsm ≠ .resp) (hk : s.kovf = false) (hlen : s.keyLen ≠ 0) :
    exec .verify s = .next (tryEntry (firstEntry s) (setVbase (nowCounter s) s)) := by
  obtain ⟨-, -, hverify⟩ := exec_execute_step hf
  rw [hverify, verifyExecute, if_neg (by simp [hk]), if_neg hlen, firstEntry]
  split <;> rfl

section
variable (hf : s.fsm = .resp) (hx : s.resp = some (.digest x))
include hf hx

/-- VERIFY's response step with a digest compares its 6-digit code (R167, R170). -/
theorem exec_verify_responds :
    exec .verify s =
      if candMatches (codeString x 6) s then
        commit (setVerdict true (BitVec.ofNat 2 (s.vidx.val + 1)) s)
      else if s.vidx = 2 then commit (setVerdict false 0 s)
      else .next (tryEntry (s.vidx + 1) (dropResp s)) := by
  simp only [exec, execVerify, hf, verifyRespond, withDigest_digest hx]

/-- It gives the verdict when the code is the candidate (R167). -/
theorem exec_verify_matches (hcand : IsCandidate s (codeString x 6)) :
    exec .verify s = .next (finish .none (setVerdict true (BitVec.ofNat 2 (s.vidx.val + 1)) s)) := by
  rw [exec_verify_responds hf hx, if_pos (candMatches_iff.mpr hcand), commit]

/-- At the last entry it gives the verdict without a match (R167). -/
theorem exec_verify_rejects (hcand : ¬ IsCandidate s (codeString x 6)) (hlast : s.vidx = 2) :
    exec .verify s = .next (finish .none (setVerdict false 0 s)) := by
  rw [exec_verify_responds hf hx, if_neg (mt candMatches_iff.mp hcand), if_pos hlast, commit]

/-- At another entry without a match it tries the next one (R167). -/
theorem exec_verify_tries_next (hcand : ¬ IsCandidate s (codeString x 6)) (hlast : s.vidx ≠ 2) :
    exec .verify s = .next (tryEntry (s.vidx + 1) (dropResp s)) := by
  rw [exec_verify_responds hf hx, if_neg (mt candMatches_iff.mp hcand), if_neg hlast]

end

/-- A command that ends with a verdict writes only VALID, MATCH and what finish writes (R167,
spec/45_control.md R184). -/
theorem finish_setVerdict (valid : Bool) (idx : BitVec 2) (s : State) :
    Ended .none (finish .none (setVerdict valid idx s)) ∧
      (finish .none (setVerdict valid idx s)).valid = valid ∧
      (finish .none (setVerdict valid idx s)).matchIdx = idx ∧
      SameHidden s (finish .none (setVerdict valid idx s)) ∧
      (finish .none (setVerdict valid idx s)).req = s.req := by
  simp [Ended, SameHidden]

/-- VERIFY writes no register of the window but STATUS (spec/10_state.md R50). -/
theorem exec_verify_frame (h : exec .verify s = .next t) :
    SameInputs s t ∧ SameKey s t ∧ SameTime s t ∧ SameDigest s t ∧ SameCode s t := by
  obtain ⟨hin, hkey, htime, hdigest, hcode, -, -⟩ := exec_frame h
  exact ⟨hin, hkey rfl, htime rfl, hdigest rfl, hcode rfl⟩

end

/-- Settles O44: Match is the equality of the first six bytes, read one by one. -/
theorem matchComparesSixBytes : Obligations.MatchComparesSixBytes := by
  intro str s hlen
  rw [candMatches_iff, IsCandidate, take_six_eq_iff hlen]

/-- Settles O43: the request is for the first entry, and nothing but vbase, vidx, wctr, req and fsm is
written. -/
theorem verifyStartsWindow : Obligations.VerifyStartsWindow := by
  intro s hf hk hlen _
  have hexec := exec_verify_starts hf hk hlen
  obtain ⟨hin, hkey, htime, hdigest, hcode⟩ := exec_verify_frame hexec
  have hrequested : Requested (windowCounter (nowCounter s) (firstEntry s)) s
      (tryEntry (firstEntry s) (setVbase (nowCounter s) s)) := by simp [Requested, keyBytes]
  have hbase : (tryEntry (firstEntry s) (setVbase (nowCounter s) s)).vbase = nowCounter s := by simp
  refine ⟨_, _, hexec, hrequested, ?_⟩
  rw [hbase]
  refine ⟨toNat_nowCounter s, fun hzero => ?_, fun hpos => ?_, hin, hkey, htime, hdigest, hcode, ?_⟩
  · rw [firstEntry_of_base_zero hzero]
    exact ⟨tryEntry_vidx _ _, by rw [toNat_windowCounter_now] <;> simp [hzero]⟩
  · rw [firstEntry_of_base_pos hpos]
    exact ⟨tryEntry_vidx _ _, toNat_windowCounter_now hpos⟩
  · simp [SameVerdict, SameDone]

/-- Settles O45: the three branches of the comparison. -/
theorem verifyTriesEntries : Obligations.VerifyTriesEntries := by
  intro s h hf hresp
  by_cases hcand : IsCandidate s (codeString h 6)
  · have hexec := exec_verify_matches hf hresp hcand
    obtain ⟨hin, hkey, htime, hdigest, hcode⟩ := exec_verify_frame hexec
    obtain ⟨hend, hvalid, hidx, hhidden, hreq⟩ :=
      finish_setVerdict true (BitVec.ofNat 2 (s.vidx.val + 1)) s
    have hmatch : (BitVec.ofNat 2 (s.vidx.val + 1)).toNat = s.vidx.val + 1 := by
      rw [BitVec.toNat_ofNat]; omega
    have ⟨_, _, hvbase, htcRem⟩ := hhidden
    exact ⟨_, hexec, hin, hkey, htime, hdigest, hcode, hvbase, htcRem,
      fun _ => ⟨hend, hvalid, (congrArg _ hidx).trans hmatch, hhidden, hreq⟩, absurd hcand,
      absurd hcand⟩
  · by_cases hlast : s.vidx = 2
    · have hexec := exec_verify_rejects hf hresp hcand hlast
      obtain ⟨hin, hkey, htime, hdigest, hcode⟩ := exec_verify_frame hexec
      obtain ⟨hend, hvalid, hidx, hhidden, hreq⟩ := finish_setVerdict false 0 s
      have ⟨_, _, hvbase, htcRem⟩ := hhidden
      exact ⟨_, hexec, hin, hkey, htime, hdigest, hcode, hvbase, htcRem, (absurd · hcand),
        fun _ _ => ⟨hend, hvalid, hidx, hhidden, hreq⟩, fun _ => absurd hlast⟩
    · have hexec := exec_verify_tries_next hf hresp hcand hlast
      obtain ⟨hin, hkey, htime, hdigest, hcode⟩ := exec_verify_frame hexec
      have hrequested : Requested (s.vbase + BitVec.ofNat 64 s.vidx.val) s
          (tryEntry (s.vidx + 1) (dropResp s)) := by
        simp [Requested, keyBytes, windowCounter_succ s.vbase hlast]
      have hvidx : (s.vidx + 1).val = s.vidx.val + 1 := by omega
      refine ⟨_, hexec, hin, hkey, htime, hdigest, hcode, ?_, ?_, (absurd · hcand),
        fun _ => (absurd · hlast), fun _ _ => ⟨?_, ?_, ?_, ?_, hrequested⟩⟩ <;>
        simp [SameVerdict, SameDone, hvidx]

/-! The states of a VERIFY on its way to its verdict. -/

/-- The digest of entry i of the window of NOW (R167). -/
def entryDigest (i : Fin 3) (s : State) : Digest :=
  hmacSha1 (keyBytes s) (be64 (windowCounter (nowCounter s) i))

/-- The 6-digit code of entry i of the window of NOW (R170). -/
def entryCode (i : Fin 3) (s : State) : List Byte := codeString (entryDigest i s) 6

/-- VERIFY waiting for the answer for entry i, with the turns `rest` to come. -/
def verifyRequested (i : Fin 3) (rest : List Turn) (s : State) : State :=
  tryEntry i (setVbase (nowCounter s) (afterTurn rest s))

/-- VERIFY with the digest of entry i for an answer, and the turns `rest` to come. -/
def verifyAnswered (i : Fin 3) (rest : List Turn) (s : State) : State :=
  hmacAnswer (.digest (entryDigest i s)) (verifyRequested i rest s)

/-- VERIFY ended with a verdict at entry i, with the turns `rest` to come. -/
def verifyDecided (valid : Bool) (idx : BitVec 2) (i : Fin 3) (rest : List Turn) (s : State) : State :=
  finish .none (setVerdict valid idx (verifyAnswered i rest s))

@[simp] theorem verifyAnswered_cmd (i : Fin 3) (rest : List Turn) (s : State) :
    (verifyAnswered i rest s).cmd = s.cmd := by simp [verifyAnswered, verifyRequested]

@[simp] theorem verifyAnswered_abortReq (i : Fin 3) (rest : List Turn) (s : State) :
    (verifyAnswered i rest s).abortReq = s.abortReq := by simp [verifyAnswered, verifyRequested]

@[simp] theorem verifyAnswered_candLen (i : Fin 3) (rest : List Turn) (s : State) :
    (verifyAnswered i rest s).candLen = s.candLen := by simp [verifyAnswered, verifyRequested]

@[simp] theorem verifyAnswered_cand (i : Fin 3) (rest : List Turn) (s : State) :
    (verifyAnswered i rest s).cand = s.cand := by simp [verifyAnswered, verifyRequested]

@[simp] theorem verifyAnswered_vidx (i : Fin 3) (rest : List Turn) (s : State) :
    (verifyAnswered i rest s).vidx = i := by simp [verifyAnswered, verifyRequested]

@[simp] theorem verifyAnswered_fsm (i : Fin 3) (rest : List Turn) (s : State) :
    (verifyAnswered i rest s).fsm = .resp := by simp [verifyAnswered]

@[simp] theorem verifyAnswered_resp (i : Fin 3) (rest : List Turn) (s : State) :
    (verifyAnswered i rest s).resp = some (.digest (entryDigest i s)) := by simp [verifyAnswered]

/-- An answer changes neither the candidate nor the code it is compared with (R166). -/
@[simp] theorem isCandidate_verifyAnswered (i : Fin 3) (rest : List Turn) (s : State) :
    IsCandidate (verifyAnswered i rest s) (codeString (entryDigest i s) 6) ↔
      IsCandidate s (entryCode i s) := by
  simp [IsCandidate, entryCode]

/-- The next try after an answer waits as the first try does, with no answer held (R167). -/
theorem tryEntry_verifyAnswered (i j : Fin 3) (rest : List Turn) (s : State) :
    tryEntry j (dropResp (verifyAnswered i rest s)) = verifyRequested j rest (dropResp s) := by
  simp only [verifyAnswered, verifyRequested, tryEntry, hmacRequest, hmacAnswer, setWctr, setVidx,
    setVbase, dropResp, afterTurn, keyBytes, nowCounter, now]

/-- The turns of m answers with a digest, each processed by the core. -/
def answers : Nat → List Turn
  | 0 => []
  | m + 1 => .hmac .digest :: .core :: answers m

/-- After n steps from u the command has ended without error and with this verdict. -/
def VerdictAfter (n : Nat) (u : State) (valid : Bool) (idx : BitVec 2) : Prop :=
  ∃ t, core.run n u = .next t ∧ Ended .none t ∧ t.valid = valid ∧ t.matchIdx = idx

/-- The code of entry i is the code of the counter base + i - 1 (R165, R170). -/
theorem entryCode_eq_windowCode {s : State} {i : Fin 3} (h : 1 ≤ (nowCounter s).toNat + i.val) :
    entryCode i s = windowCode (keyBytes s) ((nowCounter s).toNat + i.val - 1) := by
  rw [entryCode, entryDigest, windowCode, ← toNat_windowCounter_now h, BitVec.ofNat_toNat,
    BitVec.setWidth_eq]

/-! Turns left over pass. -/

/-- An idle block without a request passes the turns of the core and the hmac agent
(spec/45_control.md R183, spec/41_hmac_port.md R122). -/
theorem run_answers_of_idle {u : State} (hf : u.fsm = .idle) (hreq : u.req = none) :
    ∀ m, core.run (2 * m) (afterTurn (answers m) u) = .next (afterTurn [] u)
  | 0 => rfl
  | m + 1 => by
    have hhmac : step (afterTurn (answers (m + 1)) u) = .next (afterTurn (.core :: answers m) u) := by
      rw [step_hmac rfl]
      exact congrArg _ (hmacStep_none hreq)
    have hcore : step (afterTurn (.core :: answers m) u) = .next (afterTurn (answers m) u) := by
      rw [step_core rfl]
      exact coreStep_of_not_enabled (by simp [coreEnabled, hf])
    rw [Nat.mul_succ, run_succ _ hhmac, run_succ _ hcore, run_answers_of_idle hf hreq m]

/-- A VERIFY that has ended keeps its verdict while the turns left over pass. -/
theorem verdictAfter_decided (valid : Bool) (idx : BitVec 2) (i : Fin 3) (m : Nat) (s : State) :
    VerdictAfter (2 * m) (verifyDecided valid idx i (answers m) s) valid idx := by
  obtain ⟨hend, hvalid, hidx, -⟩ := finish_setVerdict valid idx (verifyAnswered i (answers m) s)
  exact ⟨_, run_answers_of_idle (u := verifyDecided valid idx i (answers m) s) rfl rfl m, hend, hvalid,
    hidx⟩

section
variable {s : State} {i : Fin 3} {rest : List Turn}

/-! The steps of one entry. -/

/-- VERIFY's first step requests the first entry (R167). -/
theorem step_verify_starts (hturn : s.turns = .core :: rest) (hf : s.fsm = .exec) (ha : s.abortReq = false)
    (hi : decode s.cmd = .ok .verify) (hk : s.kovf = false) (hlen : s.keyLen ≠ 0) :
    step s = .next (verifyRequested (firstEntry s) rest s) := by
  rw [step_execute hturn hf ha hi]
  exact exec_verify_starts (s := afterTurn rest s) (by simp [hf]) hk hlen

/-- The hmac agent answers the request of an entry (spec/41_hmac_port.md R122). -/
theorem step_verifyRequested (hkey : keyBytes s ≠ []) (i : Fin 3) (rest : List Turn) :
    step (verifyRequested i (.hmac .digest :: rest) s) = .next (verifyAnswered i rest s) :=
  step_hmac_digest (r := ⟨keyBytes s, be64 (windowCounter (nowCounter s) i)⟩) rfl rfl hkey

section
variable (ha : s.abortReq = false) (hi : decode s.cmd = .ok .verify)
include ha hi

/-- The core's turn with an answer is VERIFY's response step (spec/45_control.md R183). -/
theorem step_verifyAnswered (i : Fin 3) (rest : List Turn) :
    step (verifyAnswered i (.core :: rest) s) = exec .verify (verifyAnswered i rest s) :=
  step_respond (i := .verify) rfl (verifyAnswered_fsm ..) (by simpa using ha) (by simpa using hi) rfl

/-! The run from an entry to the verdict. -/

variable (hkey : keyBytes s ≠ [])
include hkey

/-- A matching entry decides (R168). -/
theorem verdictAfter_of_match (hcand : IsCandidate s (entryCode i s)) (m : Nat) :
    VerdictAfter (2 * m + 2) (verifyRequested i (answers (m + 1)) s) true
      (BitVec.ofNat 2 (i.val + 1)) := by
  have hstep : step (verifyAnswered i (.core :: answers m) s) =
      .next (verifyDecided true (BitVec.ofNat 2 (i.val + 1)) i (answers m) s) := by
    rw [step_verifyAnswered ha hi, exec_verify_matches (verifyAnswered_fsm ..) (verifyAnswered_resp ..)
      (by simpa using hcand), verifyAnswered_vidx, verifyDecided]
  rw [VerdictAfter, answers, run_succ _ (step_verifyRequested hkey i _), run_succ _ hstep]
  exact verdictAfter_decided _ _ i m s

/-- The last entry decides without a match too (R168). -/
theorem verdictAfter_of_no_match_last (hcand : ¬ IsCandidate s (entryCode 2 s)) (m : Nat) :
    VerdictAfter (2 * m + 2) (verifyRequested 2 (answers (m + 1)) s) false 0 := by
  have hstep : step (verifyAnswered 2 (.core :: answers m) s) =
      .next (verifyDecided false 0 2 (answers m) s) := by
    rw [step_verifyAnswered ha hi, exec_verify_rejects (verifyAnswered_fsm ..) (verifyAnswered_resp ..)
      (by simpa using hcand) (verifyAnswered_vidx ..), verifyDecided]
  rw [VerdictAfter, answers, run_succ _ (step_verifyRequested hkey 2 _), run_succ _ hstep]
  exact verdictAfter_decided _ _ 2 m s

/-- Another entry without a match leads to the next one (R168). -/
theorem run_of_no_match (hcand : ¬ IsCandidate s (entryCode i s)) (hlast : i ≠ 2) (m : Nat) :
    core.run (2 * m + 2) (verifyRequested i (answers (m + 1)) s) =
      core.run (2 * m) (verifyRequested (i + 1) (answers m) (dropResp s)) := by
  have hstep : step (verifyAnswered i (.core :: answers m) s) =
      .next (verifyRequested (i + 1) (answers m) (dropResp s)) := by
    rw [step_verifyAnswered ha hi, exec_verify_tries_next (verifyAnswered_fsm ..)
      (verifyAnswered_resp ..) (by simpa using hcand) (by simpa using hlast), verifyAnswered_vidx,
      tryEntry_verifyAnswered]
  rw [answers, run_succ _ (step_verifyRequested hkey i _), run_succ _ hstep]

/-- From entry 1 on, the first of base and base + 1 whose code is the candidate decides (R168). -/
theorem run_from_base (m : Nat) :
    ∃ t, core.run (2 * m + 4) (verifyRequested 1 (answers (m + 2)) s) = .next t ∧ Ended .none t ∧
      (if IsCandidate s (windowCode (keyBytes s) (nowCounter s).toNat) then
        t.valid = true ∧ t.matchIdx = 2
      else if IsCandidate s (windowCode (keyBytes s) ((nowCounter s).toNat + 1)) then
        t.valid = true ∧ t.matchIdx = 3
      else t.valid = false ∧ t.matchIdx = 0) := by
  have hcode1 : entryCode 1 s = windowCode (keyBytes s) (nowCounter s).toNat :=
    entryCode_eq_windowCode (Nat.le_add_left 1 _)
  have hcode2 : entryCode 2 s = windowCode (keyBytes s) ((nowCounter s).toNat + 1) :=
    entryCode_eq_windowCode (Nat.le_add_left 1 ((nowCounter s).toNat + 1))
  rw [← hcode1, ← hcode2]
  by_cases hcand1 : IsCandidate s (entryCode 1 s)
  · simp only [if_pos hcand1]
    exact verdictAfter_of_match ha hi hkey hcand1 (m + 1)
  · simp only [if_neg hcand1]
    have hrun := run_of_no_match ha hi hkey hcand1 (by decide) (m + 1)
    by_cases hcand2 : IsCandidate s (entryCode 2 s)
    · simp only [if_pos hcand2]
      obtain ⟨t, hrest, hverdict⟩ := verdictAfter_of_match (s := dropResp s) ha hi hkey hcand2 m
      exact ⟨t, hrun.trans hrest, hverdict⟩
    · simp only [if_neg hcand2]
      obtain ⟨t, hrest, hverdict⟩ :=
        verdictAfter_of_no_match_last (s := dropResp s) ha hi hkey hcand2 m
      exact ⟨t, hrun.trans hrest, hverdict⟩

end
end

/-- Settles O51: entry 0 is tried when base ≥ 1, and the run goes on from entry 1 when it is not or does not
match. -/
theorem verifyDecidesWindow : Obligations.VerifyDecidesWindow := by
  intro s base hf ha hcmd hk hkey _ hbase hturns
  have hi : decode s.cmd = .ok .verify := hcmd ▸ decode_encode rfl
  have hlen : s.keyLen ≠ 0 := fun h => hkey (by simp [h])
  obtain rfl : base = (nowCounter s).toNat := hbase.trans (toNat_nowCounter s).symm
  rw [run_succ 6 (step_verify_starts hturns hf ha hi hk hlen)]
  rw [← keyBytes] at hkey ⊢
  by_cases hpos : 1 ≤ (nowCounter s).toNat
  · have hcode0 : entryCode 0 s = windowCode (keyBytes s) ((nowCounter s).toNat - 1) :=
      entryCode_eq_windowCode hpos
    rw [firstEntry_of_base_pos hpos]
    by_cases hcand0 : IsCandidate s (entryCode 0 s)
    · simp only [if_pos (And.intro hpos (hcode0 ▸ hcand0))]
      exact verdictAfter_of_match ha hi hkey hcand0 2
    · simp only [if_neg (fun h => hcand0 (hcode0 ▸ And.right h))]
      have hrun := run_of_no_match ha hi hkey hcand0 (by decide) 2
      obtain ⟨t, hrest, hverdict⟩ := run_from_base (s := dropResp s) ha hi hkey 0
      exact ⟨t, hrun.trans hrest, hverdict⟩
  · rw [firstEntry_of_base_zero (by omega)]
    simp only [if_neg (fun h => hpos (And.left h))]
    exact run_from_base ha hi hkey 1

end Sys2Proof.Machine
end

section
/-! Whose turn it is and what the core does with it (spec/45_control.md R183 to R187): the command's step, the
end by an abort request, and the turns that pass. -/

namespace Sys2Proof.Machine

open Sys2Proof.Safety

section
variable {s : State}

/-- The core's work on a latched command is exec of it: in EXEC for every command, in RESP for one that sent
a request (R183). -/
theorem coreStep_eq_exec {i : Instr} (hf : s.fsm = .exec ∨ (s.fsm = .resp ∧ sendsRequest i = true))
    (ha : s.abortReq = false) (hi : decode s.cmd = .ok i) : coreStep s = exec i s := by
  obtain hf | ⟨hf, hsend⟩ := hf
  · simp [coreStep, hf, ha, executeLatched, hi]
  · simp only [coreStep, hf, ha]
    exact respondLatched_eq hi hsend

/-- An abort request is looked at before anything else (R183, R187). -/
theorem coreStep_of_abortReq (hf : s.fsm = .exec ∨ s.fsm = .resp) (ha : s.abortReq = true) :
    coreStep s = .next (finish .aborted s) := by
  obtain hf | hf := hf <;> simp [coreStep, hf, ha, raise]

/-- The core has a step exactly in EXEC and in RESP (R183). -/
theorem coreEnabled_iff : coreEnabled s = true ↔ s.fsm = .exec ∨ s.fsm = .resp := by
  simp [coreEnabled]

/-- With an empty schedule a core that has a step moves (assumption 5). -/
theorem step_unscheduled_core (hturns : s.turns = []) (hc : coreEnabled s = true) :
    step s = coreStep s := by
  simp [step, scheduledStep, unscheduledStep, hturns, hc]

/-- With an empty schedule and no core step the hmac agent answers a request (assumption 5). -/
theorem step_unscheduled_hmac (hturns : s.turns = []) (hc : coreEnabled s = false)
    (hreq : s.req.isSome = true) :
    step s = .next (hmacStep (Config.hmacDraw s.draws) (useDraw s)) := by
  simp [step, scheduledStep, unscheduledStep, hturns, hc, hreq]

end

/-- Settles O5: either way to name the core gives it the step, and its step is exec of the command. -/
theorem stepRunsDecodedCommand : Obligations.StepRunsDecodedCommand := by
  intro s i hf ha hi
  refine ⟨fun rest hturn => ?_, fun hturns => ?_⟩
  · rw [step_core hturn]
    exact coreStep_eq_exec (s := afterTurn rest s) hf ha hi
  · rw [step_unscheduled_core hturns (coreEnabled_iff.mpr (hf.imp_right And.left)),
      coreStep_eq_exec hf ha hi]

/-- Settles O7: the core's step is finish(ABORTED), which discards the answer and writes no result. -/
theorem abortRequestEndsCommand : Obligations.AbortRequestEndsCommand := by
  intro s rest hf ha hturn
  have hstep : step s = .next (finish .aborted (afterTurn rest s)) := by
    rw [step_core hturn]
    exact coreStep_of_abortReq (s := afterTurn rest s) hf ha
  exact ⟨_, hstep, finish_error_frame (by decide) (afterTurn rest s)⟩

/-- Settles O8: an agent that has no step leaves the state with the turn taken off. -/
theorem turnWithoutStepPasses : Obligations.TurnWithoutStepPasses := by
  refine fun s rest => ⟨fun hf hturn => ?_, fun draw hreq hturn => ?_⟩
  · have hc : coreEnabled (afterTurn rest s) = false := by
      obtain hf | hf := hf <;> simp [coreEnabled, hf]
    rw [step_core hturn, coreStep_of_not_enabled hc]
  · rw [step_hmac hturn, hmacStep_none (s := afterTurn rest s) hreq]

/-- Settles O21: NOP and ABORT are finish(NONE), which clears no verdict. -/
theorem nopAndAbortDoNothing : Obligations.NopAndAbortDoNothing := by
  intro s i hi
  have hexec : exec i s = .next (finish .none s) := by
    obtain rfl | rfl := hi <;> rfl
  obtain ⟨hend, hin, hkey, htime, hdigest, hcode, hhidden, hreq⟩ := finish_frame .none s
  have hverdict : SameVerdict s (finish .none s) := by simp [SameVerdict]
  exact ⟨_, hexec, hend, hin, hkey, htime, hdigest, hcode, hverdict, hhidden, hreq⟩

end Sys2Proof.Machine
end

section
/-! The host's writes under the busy protocol (spec/45_control.md R180 to R182). -/

namespace Sys2Proof.Machine

open Sys2Proof.Safety

section
variable {s : State} {off : Nat}

/-- A running command keeps its input registers: the write is dropped (R182). -/
theorem writeReg_input_of_busy {r : Reg} (hf : s.fsm ≠ .idle) (hr : isInput r = true) (v : Word) :
    writeReg r v s = markDropped s := by
  cases r with
  | ctrLo | ctrHi | nowLo | nowHi | candLen | cand k | h k => simp [writeReg, writeInput, busy, hf]
  | _ => nomatch hr

/-- A register that is no input register and none of CMD, STATUS and IRQ_EN takes no write (R182). -/
theorem writeReg_of_not_writable {r : Reg} (hin : isInput r = false) (hcmd : r ≠ .cmd)
    (hstatus : r ≠ .status) (hirqEn : r ≠ .irqEn) (v : Word) : writeReg r v s = s := by
  cases r with
  | cmd | status | irqEn => contradiction
  | ctrLo | ctrHi | nowLo | nowHi | candLen | cand k | h k => nomatch hin
  | _ => rfl

/-- The offset of a register is an input offset exactly for the input registers. -/
theorem inputOffset_regOffset (r : Reg) : inputOffset (regOffset r) = isInput r := by
  cases r with
  | cand k | code k | h k | keyw k => revert k; decide
  | _ => rfl

/-- Outside the input offsets stands no input register. -/
theorem isInput_regAt_eq_false (ha : off % 4 = 0) (hin : inputOffset off = false) :
    isInput (regAt off) = false := by
  by_cases hhole : regAt off = .hole
  · rw [hhole]
    rfl
  · rw [← inputOffset_regOffset, regOffset_regAt ha hhole, hin]

end

/-- Settles O9: the step is `Accept(w)`, and STATUS shows the state after it. -/
theorem idleBlockAcceptsCommand : Obligations.IdleBlockAcceptsCommand := by
  intro s rest w hf hturn
  obtain ⟨hbusy, hdone, -⟩ := statusWord_flags (accept w (afterTurn rest s))
  exact ⟨_, step_accept hturn hf, rfl, hbusy, hdone⟩

/-- Settles O10: the step is `CmdWhileBusy(w)`. -/
theorem busyCommandWrite : Obligations.BusyCommandWrite := by
  intro s rest w hf hturn
  have hwrite : writeReg .cmd w (afterTurn rest s) = cmdWhileBusy w (afterTurn rest s) := by
    simp [writeReg, busy, hf]
  rw [step_write hturn (by decide), show regAt 0x004 = .cmd from rfl, hwrite]
  rfl

/-- Settles O11: the register at the offset is an input register, STATUS, IRQ_EN, or one that takes no
write. -/
theorem hostWritesObeyBusy : Obligations.HostWritesObeyBusy := by
  intro s rest off v ha hle hturn
  rw [step_write hturn (admitted_iff.mpr ⟨rfl, ha, hle⟩)]
  refine ⟨fun hin hf => ?_, ?_, ?_, fun hin hcmd hstatus hirqEn => ?_⟩
  · rw [writeReg_input_of_busy (s := afterTurn rest s) hf (isInput_regAt ha hin)]
    rfl
  · rintro rfl
    rfl
  · rintro rfl
    rfl
  · have hother : ∀ other, other % 4 = 0 → regAt other ≠ .hole → off ≠ other →
        regAt off ≠ regAt other := fun other hb hr hne => regAt_ne_of_ne hb ha hr hne
    rw [writeReg_of_not_writable (isInput_regAt_eq_false ha hin)
      (hother 0x004 rfl (by decide) hcmd) (hother 0x008 rfl (by decide) hstatus)
      (hother 0x00C rfl (by decide) hirqEn)]
    rfl

end Sys2Proof.Machine
end

section
/-! Progress (spec/45_control.md R189, R190): with an empty schedule every step of a busy block that meets the
invariants completes and brings the command nearer to its end. -/

namespace Sys2Proof.Safety

open Sys2Proof.Machine

/-- A bound on the steps the command in progress still takes: an answer and a response step for each window
entry from vidx on, and before the first of them the execute step. HOTP and TOTP, which send one request,
take no more. -/
def stepsLeft (s : State) : Nat :=
  match s.fsm with
  | .idle => 0
  | .exec => 7
  | .wait => 2 * (3 - s.vidx.val)
  | .resp => 2 * (3 - s.vidx.val) - 1

section
variable {s t : State}

/-- A command completes unless it is in RESP with no response held. -/
theorem exec_completes {i : Instr} (hr : s.fsm = .resp → s.resp ≠ none) :
    ∃ t, Machine.exec i s = .next t := by
  cases hx : Machine.exec i s with
  | next t => exact ⟨t, rfl⟩
  | fault f =>
    obtain ⟨hresp, hnone⟩ := exec_fault hx
    exact absurd hnone (hr hresp)
  | refused r => exact absurd hx exec_ne_refused

/-- The invariants rule out the faults of a core step, so it completes (spec/10_state.md R51). -/
theorem Inv.coreStep_completes (h : Inv s) : ∃ t, Machine.coreStep s = .next t := by
  by_cases hc : coreEnabled s = true
  case neg => exact ⟨s, coreStep_of_not_enabled (by simpa using hc)⟩
  have hf := coreEnabled_iff.mp hc
  have hheld : s.fsm = .resp → s.resp ≠ none := fun hresp =>
    Option.isSome_iff_ne_none.mp (h.respResp.mpr hresp)
  cases ha : s.abortReq with
  | true => exact ⟨_, coreStep_of_abortReq hf ha⟩
  | false =>
    obtain hf | hf := hf
    · cases hi : decode s.cmd with
      | ok i => rw [coreStep_eq_exec (.inl hf) ha hi]; exact exec_completes hheld
      | error e => exact ⟨_, coreStep_of_illegal hf ha (legal_eq_false_iff.mpr ⟨e, hi⟩)⟩
    · obtain ⟨i, hi, hsend⟩ := h.inFlightCmd (.inr hf)
      rw [coreStep_eq_exec (.inr ⟨hf, hsend⟩) ha hi]
      exact exec_completes hheld

/-- A command's step ends the command or sends a request, and after an answer only VERIFY sends another, for
the next window entry (R183, spec/44_verify.md R167). -/
theorem exec_ends_or_requests {i : Instr} (h : Machine.exec i s = .next t) :
    t.fsm = .idle ∨
      t.fsm = .wait ∧ (s.fsm ≠ .resp ∨ s.vidx ≠ 2 ∧ t.vidx = s.vidx + 1) := by
  cases i with
  | nop => rw [execNop_next h]; exact .inl rfl
  | abort => rw [execAbort_next h]; exact .inl rfl
  | keyclr => rw [execKeyclr_next h]; exact .inl rfl
  | tctr => rw [execTctr_next h]; exact .inl rfl
  | b32push ch =>
    obtain ⟨-, rfl⟩ | ⟨-, -, rfl⟩ | ⟨v, -, -, ⟨-, rfl⟩ | ⟨e, -, ⟨-, rfl⟩ | ⟨-, rfl⟩⟩⟩ :=
      execB32push_next h <;> exact .inl rfl
  | keypush b =>
    obtain ⟨-, rfl⟩ | ⟨-, -, rfl⟩ | ⟨-, -, rfl⟩ := execKeypush_next h <;> exact .inl rfl
  | trunc d => obtain ⟨-, rfl⟩ | ⟨-, rfl⟩ := execTrunc_next h <;> exact .inl rfl
  | hotp d =>
    obtain ⟨hr, ⟨-, rfl⟩ | ⟨-, -, rfl⟩ | ⟨-, -, rfl⟩⟩ | ⟨-, ⟨-, rfl⟩ | ⟨x, -, rfl⟩⟩ := execHotp_next h
    case inl.inr.inr => exact .inr ⟨rfl, .inl hr⟩
    all_goals exact .inl rfl
  | totp d =>
    obtain ⟨hr, ⟨-, rfl⟩ | ⟨-, -, rfl⟩ | ⟨-, -, -, rfl⟩ | ⟨-, -, -, rfl⟩⟩ |
      ⟨-, ⟨-, rfl⟩ | ⟨x, -, rfl⟩⟩ := execTotp_next h
    case inl.inr.inr.inr => exact .inr ⟨rfl, .inl hr⟩
    all_goals exact .inl rfl
  | verify =>
    obtain ⟨hr, ⟨-, rfl⟩ | ⟨-, -, rfl⟩ | ⟨-, -, rfl⟩⟩ |
      ⟨-, ⟨-, rfl⟩ | ⟨x, -, ⟨-, rfl⟩ | ⟨-, -, rfl⟩ | ⟨-, hv, rfl⟩⟩⟩ := execVerify_next h
    case inl.inr.inr => exact .inr ⟨rfl, .inl hr⟩
    case inr.inr.inr.inr => exact .inr ⟨rfl, .inr ⟨hv, rfl⟩⟩
    all_goals exact .inl rfl

/-- A core step ends the command or sends a request, as exec does (R183). -/
theorem coreStep_ends_or_requests (hf : s.fsm = .exec ∨ s.fsm = .resp)
    (h : Machine.coreStep s = .next t) :
    t.fsm = .idle ∨
      t.fsm = .wait ∧ (s.fsm ≠ .resp ∨ s.vidx ≠ 2 ∧ t.vidx = s.vidx + 1) := by
  obtain ⟨hno, -⟩ | ⟨-, -, rfl⟩ | ⟨-, -, -, rfl⟩ | ⟨-, -, i, -, hx⟩ | ⟨-, -, i, -, -, -, hx⟩ :=
    coreStep_next h
  · obtain hf | hf := hf <;> simp [hf] at hno
  · exact .inl rfl
  · exact .inl rfl
  · exact exec_ends_or_requests hx
  · exact exec_ends_or_requests hx

/-! The bound goes down. -/

theorem stepsLeft_le_seven (s : State) : stepsLeft s ≤ 7 := by
  cases hf : s.fsm <;> simp only [stepsLeft, hf] <;> omega

theorem stepsLeft_pos (hf : s.fsm ≠ .idle) : 0 < stepsLeft s := by
  cases hfsm : s.fsm with
  | idle => exact absurd hfsm hf
  | exec | wait | resp => simp only [stepsLeft, hfsm]; omega

/-- The core's step in EXEC or RESP brings the command nearer to its end. -/
theorem coreStep_stepsLeft_lt (hf : s.fsm = .exec ∨ s.fsm = .resp)
    (h : Machine.coreStep s = .next t) : stepsLeft t < stepsLeft s := by
  obtain ht | ⟨ht, hnext⟩ := coreStep_ends_or_requests hf h
  · have hbusy : s.fsm ≠ .idle := by obtain hf | hf := hf <;> simp [hf]
    simpa only [stepsLeft, ht] using stepsLeft_pos hbusy
  · obtain hf | hf := hf
    · simp only [stepsLeft, ht, hf]
      omega
    · obtain ⟨hlast, hvidx⟩ := hnext.resolve_left (not_not_intro hf)
      have hsucc : t.vidx.val = s.vidx.val + 1 := by
        rw [hvidx, Fin.val_add_one_of_lt (Fin.lt_last_iff_ne_last.mpr hlast)]
      simp only [stepsLeft, ht, hf]
      omega

/-- The hmac agent's answer moves the command from WAIT to RESP, one step nearer to its end
(spec/41_hmac_port.md R122). -/
theorem hmacStep_stepsLeft_lt (hf : s.fsm = .wait) (hreq : s.req.isSome = true) (d : HmacDraw) :
    stepsLeft (Machine.hmacStep d s) < stepsLeft s := by
  obtain ⟨r, hr⟩ := Option.isSome_iff_exists.mp hreq
  rw [hmacStep_some hr]
  simp only [stepsLeft, hmacAnswer_fsm, hmacAnswer_vidx, hf]
  omega

/-- A busy block with an empty schedule makes a step, and the step brings the command nearer to its end. -/
theorem Inv.step_stepsLeft_lt (h : Inv s) (hturns : s.turns = []) (hf : s.fsm ≠ .idle) :
    ∃ t, step s = .next t ∧ t.turns = [] ∧ stepsLeft t < stepsLeft s := by
  by_cases hc : coreEnabled s = true
  · obtain ⟨t, ht⟩ := h.coreStep_completes
    obtain ⟨-, -, -, -, -, -, -, -, hkeep, -⟩ := coreStep_sameInputs ht
    exact ⟨t, (step_unscheduled_core hturns hc).trans ht, hkeep.trans hturns,
      coreStep_stepsLeft_lt (coreEnabled_iff.mp hc) ht⟩
  · have hwait : s.fsm = .wait := by
      rw [coreEnabled_iff] at hc
      cases hfsm : s.fsm <;> simp_all
    have hreq := h.reqWait.mpr hwait
    obtain ⟨-, -, -, -, -, -, -, -, hkeep, -⟩ :=
      (hmacStep_frame (Config.hmacDraw s.draws) (Machine.useDraw s)).1
    exact ⟨_, step_unscheduled_hmac hturns (by simpa using hc) hreq, hkeep.trans hturns,
      hmacStep_stepsLeft_lt (s := Machine.useDraw s) hwait hreq _⟩

end

/-- Along a run the bound goes down until the block is idle. -/
theorem Inv.run_to_idle (n : Nat) {s : State} (h : Inv s) (hturns : s.turns = [])
    (hn : stepsLeft s ≤ n) :
    ∃ k t, k ≤ n ∧ core.run k s = .next t ∧ t.fsm = .idle ∧ t.turns = [] := by
  induction n generalizing s with
  | zero =>
    have hf : s.fsm = .idle := by
      by_contra hf
      exact absurd (stepsLeft_pos hf) (by omega)
    exact ⟨0, s, le_rfl, rfl, hf, hturns⟩
  | succ n ih =>
    by_cases hf : s.fsm = .idle
    · exact ⟨0, s, Nat.zero_le _, rfl, hf, hturns⟩
    · obtain ⟨u, hstep, huturns, hless⟩ := h.step_stepsLeft_lt hturns hf
      obtain ⟨k, t, hk, hrun, hend⟩ := ih (stepKeepsInvariants s u h hstep) huturns (by omega)
      exact ⟨k + 1, t, Nat.succ_le_succ hk, (run_succ k hstep).trans hrun, hend⟩

/-- Settles O59: no command is more than seven steps from its end. -/
theorem commandsFinish : Obligations.CommandsFinish :=
  fun s h hturns => h.run_to_idle 7 hturns (stepsLeft_le_seven s)

end Sys2Proof.Safety
end

section
/-! How a host access stops the machine (spec/60_exceptions.md R203), and the interrupt line (R206). -/

namespace Sys2Proof.Machine

section
variable {s : State} {op : HostOp}

/-- What the window does not admit, as R62 lists it. -/
theorem not_admitted_iff {width off : Nat} :
    ¬ admitted width off = true ↔ width ≠ 4 ∨ off % 4 ≠ 0 ∨ 0xFFF < off := by
  rw [admitted_iff]
  omega

/-- The host's step faults only at an access that is not admitted, with that access's BusError (R203). -/
theorem hostStep_fault {f : Fault} (h : hostStep op s = .fault f) :
    ∃ width off, ¬ admitted width off = true ∧
      ((op = .rd width off ∧ f = .busError .read width off) ∨
        ∃ v, op = .wr width off v ∧ f = .busError .write width off) := by
  cases op with
  | rd width off =>
    rw [hostStep] at h
    split at h <;> cases h
    next hno => exact ⟨width, off, hno, .inl ⟨rfl, rfl⟩⟩
  | wr width off v =>
    rw [hostStep] at h
    split at h <;> cases h
    next hno => exact ⟨width, off, hno, .inr ⟨v, rfl, rfl⟩⟩
  | rst => cases h

/-- The host's step completes or faults (R203). -/
theorem hostStep_ne_refused {r : Refusal} : hostStep op s ≠ .refused r := by
  cases op with
  | rd | wr => rw [hostStep]; split <;> nofun
  | rst => nofun

/-- With an empty schedule and no agent that has a step, the block keeps its state (R215). -/
theorem step_unscheduled_none (hturns : s.turns = []) (hc : coreEnabled s = false)
    (hreq : s.req = none) : step s = .next s := by
  simp [step, scheduledStep, unscheduledStep, hturns, hc, hreq]

end

/-- Settles O15: the IE and the DONE each operation leaves, conjoined. -/
theorem interruptLine : Obligations.InterruptLine := by
  refine ⟨fun s => ?_, fun e s => ?_, fun v s => ?_, fun v s => ?_, fun w s => ?_, fun s => ?_⟩
  · rw [irq, Bool.and_eq_true]
  · rw [irq, finish_ie, finish_done, Bool.and_true]
  · rw [irq, setIe_ie, setIe_done]
  · rw [irq, irq, clearStatus_ie, clearStatus_done, Bool.and_assoc]
  · rw [irq, accept_done, Bool.and_false]
  · rw [irq, resetEvent_done, Bool.and_false]

end Sys2Proof.Machine
end

section
/-! Safety (spec/60_exceptions.md R216): under the invariants nothing but a host access stops the machine. -/

namespace Sys2Proof.Safety

open Sys2Proof.Machine

/-- Whatever is not the host's turn completes: the core's step by the invariants, the hmac agent's always. -/
theorem Inv.host_turn_or_step_completes {s : State} (h : Inv s) :
    (∃ op rest, s.turns = .host op :: rest) ∨ ∃ t, step s = .next t := by
  cases hturns : s.turns with
  | cons turn rest =>
    cases turn with
    | host op => exact .inl ⟨op, rest, rfl⟩
    | core => exact .inr (step_core hturns ▸ (h.afterTurn rest).coreStep_completes)
    | hmac draw => exact .inr ⟨_, step_hmac hturns⟩
  | nil =>
    right
    cases hc : coreEnabled s with
    | true => exact step_unscheduled_core hturns hc ▸ h.coreStep_completes
    | false =>
      cases hreq : s.req with
      | none => exact ⟨s, step_unscheduled_none hturns hc hreq⟩
      | some r => exact ⟨_, step_unscheduled_hmac hturns hc (by simp [hreq])⟩

/-- Settles O55: a step that does not complete is the host's, and the host's step stops only with a
BusError. -/
theorem onlyBusErrorsStop : Obligations.OnlyBusErrorsStop := by
  intro s h
  obtain ⟨op, rest, hturns⟩ | ⟨t, ht⟩ := h.host_turn_or_step_completes
  · rw [step_host hturns]
    refine ⟨fun f hf => ?_, fun r => hostStep_ne_refused⟩
    obtain ⟨width, off, hno, ⟨rfl, rfl⟩ | ⟨v, rfl, rfl⟩⟩ := hostStep_fault hf
    · exact ⟨rest, width, off, not_admitted_iff.mp hno, .inl ⟨hturns, rfl⟩⟩
    · exact ⟨rest, width, off, not_admitted_iff.mp hno, .inr ⟨v, hturns, rfl⟩⟩
  · simp [ht]

end Sys2Proof.Safety
end

section
/-! The reset event (spec/70_reset_and_hazards.md R220). -/

namespace Sys2Proof.Machine

open Sys2Proof.Safety

/-- The host's RST turn is the reset event, with the turn taken off the schedule. -/
theorem step_rst {s : State} {rest : List Turn} (h : s.turns = .host .rst :: rest) :
    step s = .next (resetEvent (afterTurn rest s)) :=
  step_host h

/-- The reset event loads R220's table from any state. -/
theorem isReset_resetEvent (s : State) : IsReset (resetEvent s) := by
  simp [IsReset, irq]

/-- The reset event leaves the start state, which has no turns to come, as it is. -/
theorem resetEvent_reset : resetEvent State.reset = State.reset := rfl

theorem isReset_reset : IsReset State.reset :=
  resetEvent_reset ▸ isReset_resetEvent State.reset

/-- Settles O19: the start state is a fixed point of the reset event, so one lemma gives the table for both;
ID and STEP read the same in every state of a build. -/
theorem resetLoadsEveryValue : Obligations.ResetLoadsEveryValue := by
  obtain ⟨hstart, hstep, -⟩ := stepRegisterIsConstant
  have hid (s : State) : readOffset 0x000 s = 0x4F545043 := (registerMapReads s).1
  refine ⟨fun s rest hturns => ?_, isReset_reset, hid _, (hstep _).trans hstart⟩
  exact ⟨_, step_rst hturns, isReset_resetEvent _, rfl, hid _, hstep _⟩

end Sys2Proof.Machine
end
